-- ==== Sys2Proof/Word.lean ====
section
/-! DEFINITION. The word types of the SFLZ block: the 32-bit register and bus word, and the 24-bit bus byte
address (spec/00_scope.md R6, R8). -/

namespace Sys2Proof

/-- One register or bus word (R6: "register width ... 32"; R8: bit 0 is the least significant bit). A character of a
memory is held as such a word, zero-extended (spec/20_memory.md R65). -/
abbrev Word := BitVec 32

/-- A byte address on the host bus (R6: 24 bits). -/
abbrev Addr := BitVec 24

end Sys2Proof
end

