-- ==== Sys2Proof/Config.lean ====
section
/-! DEFINITION. What an implementation of the block fixes (spec/00_scope.md R6) and the one value the spec leaves
free (spec/20_memory.md R74). -/

namespace Sys2Proof

/-- The implementation parameters of R6. "A model takes each one as an argument": a machine state carries them
(`Machine.State.params`), nothing changes them, and the CAP registers read them (R34).
The sizes R6 fixes for every implementation stand in the types: WINDOW.W is 8 bits, CODE_BITS is 32 bits. -/
structure Params where
  /-- CHAR_W: width in bits of one character of every memory. -/
  charW : Nat
  /-- TXT_DEPTH: entries of TXT. -/
  txtDepth : Nat
  /-- BSTR_DEPTH: entries of BSTR. -/
  bstrDepth : Nat
  /-- TOK_DEPTH: entries of TOK. -/
  tokDepth : Nat
  /-- CT_DEPTH: entries of CT. -/
  ctDepth : Nat
  deriving DecidableEq, Repr

/-- R6's default column: "the value this spec takes for the block when nothing else is said". -/
def Params.default : Params :=
  { charW := 8, txtDepth := 4096, bstrDepth := 32768, tokDepth := 262144, ctDepth := 256 }

/-- R6: MAX_CODE_LEN, "longest code a CT entry holds", fixed. -/
def Config.maxCodeLen : Nat := 32

/-- R6: "W reset", the one parameter value a source gives. -/
def Config.windowReset : BitVec 8 := 7

/-- R22: the constant the ID register holds. -/
def Config.idWord : Word := 0x53464C5A

/-- The free value of R74: what a memory read returns while BUSY = 1, "an unspecified 32-bit value", "a free draw
under no law". It has no body, so nothing can be proved about the value. The argument counts the draws
(`Machine.State.draws`), so that two reads need not agree; that it depends on nothing else is the model's choice (log
entry 4, DEDUCED; unsafe only where two states are compared). -/
opaque Config.busyRead : Nat → Word

end Sys2Proof
end

