-- ==== Sys2Proof/Syntax.lean ====
section
/-! DEFINITION. The instructions: the seven commands of spec/30_encoding.md R81, one constructor per row of
spec/opcode_table.json. -/

namespace Sys2Proof

/-- A command of SFLZ-CMD revision 1 (R2, R81). "A command has no immediate and no register-number field. Its
operands are fixed registers and memories" (R80), so no constructor has an argument. -/
inductive Instr where
  /-- BUILD: FrequencyModel, tree and code table, from TXT to CT (spec/41_shannon_fano.md R140). -/
  | build
  /-- SF_ENCODE: from TXT to BSTR with the table in CT (R155). -/
  | sfEncode
  /-- SF_DECODE: from BSTR to TXT with the table in CT (R165). -/
  | sfDecode
  /-- LZ_ENCODE: from BSTR to TOK (spec/42_lz77.md R180). -/
  | lzEncode
  /-- LZ_DECODE: from TOK to BSTR (R195). -/
  | lzDecode
  /-- COMPRESS: from TXT to CT, BSTR and TOK (spec/43_pipeline.md R220). -/
  | compress
  /-- DECOMPRESS: from TOK and CT through BSTR to TXT (R227). -/
  | decompress
  deriving DecidableEq, Repr

end Sys2Proof
end

