-- ==== Sys2Proof/WellFormed.lean ====
section
/-! DEFINITION. Well-formedness checks: of a command word (spec/30_encoding.md R80, R82), of an instruction, of a host
bus access (spec/20_memory.md R61) and of the implementation parameters (spec/00_scope.md R6). -/

namespace Sys2Proof

/-- R82 read the other way: a command word is legal when RSVD = v[31:4] is 0 and OP = v[3:0] is 1 to 7. -/
def commandWordWf (v : Word) : Bool :=
  decide (v >>> 4 = 0) && decide (1 ≤ (v &&& 0xF).toNat) && decide ((v &&& 0xF).toNat ≤ 7)

/-- R80: a command has no operand field, so every instruction is well-formed. -/
def Instr.wf : Instr → Bool
  | .build => true
  | .sfEncode => true
  | .sfDecode => true
  | .lzEncode => true
  | .lzDecode => true
  | .compress => true
  | .decompress => true

/-- R61: "An access is *well-formed* when its address has bits [1:0] = 00 and all four byte lanes are enabled." -/
def accessWf (a : Addr) (lanes : BitVec 4) : Bool :=
  decide (a.toNat % 4 = 0) && decide (lanes = 0xF)

/-- The constraint column of R6's table. -/
def Params.wf (p : Params) : Bool :=
  decide (8 ≤ p.charW ∧ p.charW ≤ 32) && decide (1 ≤ p.txtDepth ∧ p.txtDepth ≤ 262144) &&
  decide (1 ≤ p.bstrDepth ∧ p.bstrDepth ≤ 262144) && decide (1 ≤ p.tokDepth ∧ p.tokDepth ≤ 262144) &&
  decide (1 ≤ p.ctDepth ∧ p.ctDepth ≤ 65536)

end Sys2Proof
end

