-- ==== Sys2Proof/Decode.lean ====
section
/-! DEFINITION. The decoder of command words and, after it, the encoder (spec/30_encoding.md R80 to R83). Every command
word is one 32-bit word; the block fetches nothing (spec/20_memory.md R71): the word is the one written to CMD. -/

namespace Sys2Proof

/-- OP, bits [3:0] of a command word (R80). -/
def opField (v : Word) : BitVec 4 := v.extractLsb' 0 4

/-- RSVD, bits [31:4] of a command word (R80). -/
def rsvdField (v : Word) : BitVec 28 := v.extractLsb' 4 28

/-- Why a word is no command (R82). Either way the block accepts it and completes it with ILLEGAL_CMD (R233). -/
inductive Reject where
  /-- RSVD ≠ 0. -/
  | reservedBits
  /-- OP is 0 or 8 to 15. -/
  | illegalOp
  deriving DecidableEq, Repr

/-- R83, "the whole decoder": if `v[31:4] = 0` and `1 ≤ v[3:0] ≤ 7`, the row of R81 with that OP; else illegal. -/
def decode (v : Word) : Except Reject Instr :=
  if rsvdField v ≠ 0 then .error .reservedBits
  else
    match (opField v).toNat with
    | 1 => .ok .build
    | 2 => .ok .sfEncode
    | 3 => .ok .sfDecode
    | 4 => .ok .lzEncode
    | 5 => .ok .lzDecode
    | 6 => .ok .compress
    | 7 => .ok .decompress
    | _ => .error .illegalOp

/-- The command word of each command (R81's table). -/
def encode : Instr → Word
  | .build => 0x00000001
  | .sfEncode => 0x00000002
  | .sfDecode => 0x00000003
  | .lzEncode => 0x00000004
  | .lzDecode => 0x00000005
  | .compress => 0x00000006
  | .decompress => 0x00000007

/-- The instruction the decoder reads from a word numbered as spec/opcode_table.json numbers it. Every command word is
one length, 32 bits (R80): bits above `nbits` are 0, and a longer instruction does not exist. -/
def decodeTableWord (nbits w : Nat) : Option Instr :=
  if nbits ≤ 32 then
    match decode (BitVec.ofNat 32 (w % 2 ^ nbits)) with
    | .ok i => some i
    | .error _ => none
  else none

end Sys2Proof
end

