-- ==== Sys2Proof/Machine/State.lean ====
section
/-! DEFINITION. The state of the block (spec/10_state.md R20 to R46), as plain data, with the turns still to come, and the
state after a hard reset (spec/70_reset_and_hazards.md R270, R271). -/

namespace Sys2Proof.Machine

/-- STATUS.ERR (spec/60_exceptions.md R240). "Codes 7 to 15 are never written", so they have no constructor. -/
inductive ErrCode where
  /-- 0: no error. -/
  | ok
  /-- 1: the command word is illegal. -/
  | illegalCmd
  /-- 2: TXT_LEN = 0. -/
  | emptyInput
  /-- 3: a TXT symbol has no entry in CT[0..ALPHA_N). -/
  | unknownSymbol
  /-- 4: CT[0..ALPHA_N) fails TableOK. -/
  | badTable
  /-- 5: an output does not fit its memory. -/
  | capacity
  /-- 6: the input-length register exceeds its memory's depth. -/
  | badLength
  deriving DecidableEq, Repr

/-- STATUS.TRUNC_CAUSE (spec/60_exceptions.md R242). "Values 4 to 15 are never written". -/
inductive TruncCause where
  /-- 0, NONE: no truncation. -/
  | noTrunc
  /-- 1: a '<' with no later '>'. -/
  | unterminated
  /-- 2: a malformed token body. -/
  | badField
  /-- 3: a back-reference out of range. -/
  | badOffset
  deriving DecidableEq, Repr

/-- The stored fields of STATUS (R25). BUSY is not here: it is 1 exactly when the phase is Busy (R41). -/
structure Status where
  /-- bit 1, W1C -/
  done : Bool
  /-- bit 2, RO -/
  wTail : Bool
  /-- bit 3, RO -/
  wTrunc : Bool
  /-- bit 4, W1C -/
  ovr : Bool
  /-- bit 5, W1C -/
  acc : Bool
  /-- bits [11:8], RO -/
  err : ErrCode
  /-- bits [15:12], RO -/
  truncCause : TruncCause
  deriving DecidableEq, Repr

/-- The register file (R21), by its stored fields. ID (R22) is a constant and the CAP registers (R34) are the
parameters; both are read through `readReg`. -/
structure Regs where
  /-- CTRL bit 0 (R23) -/
  irqEn : Bool
  /-- CMD (R24) -/
  cmd : Word
  /-- STATUS (R25) -/
  status : Status
  /-- ERR_INFO (R26) -/
  errInfo : Word
  /-- WINDOW.W (R27) -/
  window : BitVec 8
  /-- TXT_LEN (R28) -/
  txtLen : Word
  /-- BSTR_LEN (R29) -/
  bstrLen : Word
  /-- TOK_LEN (R30) -/
  tokLen : Word
  /-- ALPHA_N (R31) -/
  alphaN : Word
  /-- TAIL_BITS (R32) -/
  tailBits : Word
  /-- TRUNC_POS (R33) -/
  truncPos : Word
  deriving DecidableEq, Repr

/-- One memory: the entries written since the hard reset, as (entry index, word) pairs, indexes strictly rising
(`Memory.wf`). An unlisted entry holds no value (R271; log entry 3). The entry, one 32-bit word, is the smallest
unit any access reaches (spec/20_memory.md R61, R62; log entry 7). -/
structure Memory where
  cells : List (Nat × Word)
  deriving DecidableEq, Repr

/-- The code-table memory CT (R40): one memory a field, since the host may write a field alone. -/
structure CodeTable where
  /-- field 0, SYM -/
  sym : Memory
  /-- field 1, FREQ -/
  freq : Memory
  /-- field 2, CODE_LEN -/
  codeLen : Memory
  /-- field 3, CODE_BITS -/
  codeBits : Memory
  deriving DecidableEq, Repr

/-- The four memories (R37 to R40). -/
structure Memories where
  txt : Memory
  bstr : Memory
  tok : Memory
  ct : CodeTable
  deriving DecidableEq, Repr

/-- One word of memory: an entry of TXT, BSTR or TOK, or one field of an entry of CT (spec/20_memory.md R64). -/
inductive Cell where
  | txt (k : Nat)
  | bstr (k : Nat)
  | tok (k : Nat)
  | ctSym (k : Nat)
  | ctFreq (k : Nat)
  | ctLen (k : Nat)
  | ctBits (k : Nat)
  deriving DecidableEq, Repr

/-- A location a command may write (spec/40_host_interface.md R123): a word of memory, or one of the four registers
the engine writes as outputs (R21, "written by engine"). -/
inductive Loc where
  | cell (c : Cell)
  | txtLen
  | bstrLen
  | tokLen
  | alphaN
  deriving DecidableEq, Repr

/-- The snapshot taken at acceptance: "copy of every register and every memory entry" (R113, R122). -/
structure Snapshot where
  regs : Regs
  mems : Memories
  deriving DecidableEq, Repr

/-- The engine phase (R41). -/
inductive Phase where
  | idle
  | busy (op : Word) (snap : Snapshot)
  deriving DecidableEq, Repr

/-- One host bus transaction (spec/40_host_interface.md R110), with its byte enables (spec/20_memory.md R61). -/
inductive BusTxn where
  | read (a : Addr) (lanes : BitVec 4)
  | write (a : Addr) (lanes : BitVec 4) (v : Word)
  deriving DecidableEq, Repr

/-- One turn of the total order of steps (spec/20_memory.md R68). -/
inductive Turn where
  /-- The engine may take its step; with no command in flight it has none (R118). -/
  | engine
  /-- The host performs one transaction (R110). -/
  | bus (t : BusTxn)
  /-- The hard reset input (R270). -/
  | hardReset
  deriving DecidableEq, Repr

/-- The machine: the block's state (R20), the implementation parameters (R6), and three fields of the model's own
(log entries 1, 2 and 4). -/
structure State where
  /-- The implementation parameters (R6, R34). -/
  params : Params
  /-- The register file (R21). -/
  regs : Regs
  /-- The four memories (R37 to R40). -/
  mems : Memories
  /-- The engine phase with the snapshot (R41). -/
  phase : Phase
  /-- The steps still to come, in the total order of R68 (log entry 1). -/
  turns : List Turn
  /-- What bus reads have returned, newest first (log entry 2). -/
  returned : List Word
  /-- How many free values have been drawn (log entry 4). -/
  draws : Nat
  deriving DecidableEq, Repr

/-- How a step can stop with a fault. -/
inductive Fault where
  /-- A memory entry nothing has written since the hard reset was read: by a host read while Idle, or by a command in
  its input range. "Has no defined result, and a model faults on it" (R271). Raised by `busRead` and `complete`. Safe. -/
  | unwrittenRead (c : Cell)
  deriving DecidableEq, Repr

/-- How an instruction can be refused. -/
inductive Refusal where
  /-- An instruction `exec` has no meaning for yet. No arm answers it now. Safe. -/
  | notModelled (mnemonic : String)
  deriving DecidableEq, Repr

/-- STATUS after reset: 0x00000000 (R25). -/
def Status.reset : Status :=
  { done := false, wTail := false, wTrunc := false, ovr := false, acc := false, err := .ok, truncCause := .noTrunc }

/-- The reset column of R21, R23, R25 and R27. -/
def Regs.reset : Regs :=
  { irqEn := false, cmd := 0, status := Status.reset, errInfo := 0, window := Config.windowReset, txtLen := 0,
    bstrLen := 0, tokLen := 0, alphaN := 0, tailBits := 0, truncPos := 0 }

/-- Memories nothing has been written to (R271). -/
def Memories.unwritten : Memories :=
  { txt := ⟨[]⟩, bstr := ⟨[]⟩, tok := ⟨[]⟩, ct := { sym := ⟨[]⟩, freq := ⟨[]⟩, codeLen := ⟨[]⟩, codeBits := ⟨[]⟩ } }

/-- The machine right after a hard reset (R270, R271), with the default parameters (R6) and no step ahead. -/
def State.reset : State :=
  { params := Params.default, regs := Regs.reset, mems := Memories.unwritten, phase := .idle, turns := [],
    returned := [], draws := 0 }

end Sys2Proof.Machine
end

