-- ==== Sys2Proof/Machine/Flags.lean ====
section
/-! DEFINITION. Every computation of STATUS: its bus word, its W1C write, its updates at acceptance and at commit, and the
IRQ output (spec/10_state.md R25, R45; spec/40_host_interface.md R113, R116, R119, R120; spec/60_exceptions.md R240 to
R250). The block has no condition codes or arithmetic flags (R46). -/

namespace Sys2Proof.Machine

/-- The number of an error code (R240). -/
def ErrCode.code : ErrCode → BitVec 4
  | .ok => 0
  | .illegalCmd => 1
  | .emptyInput => 2
  | .unknownSymbol => 3
  | .badTable => 4
  | .capacity => 5
  | .badLength => 6

/-- The number of a truncation cause (R242). -/
def TruncCause.code : TruncCause → BitVec 4
  | .noTrunc => 0
  | .unterminated => 1
  | .badField => 2
  | .badOffset => 3

/-- The word a read of STATUS returns, laid out as R25's table; reserved bits [7:6] and [31:16] read 0. -/
def Status.word (busy : Bool) (st : Status) : Word :=
  0#16 ++ st.truncCause.code ++ st.err.code ++ 0#2 ++ BitVec.ofBool st.acc ++ BitVec.ofBool st.ovr ++
    BitVec.ofBool st.wTrunc ++ BitVec.ofBool st.wTail ++ BitVec.ofBool st.done ++ BitVec.ofBool busy

/-- A write of STATUS (R116): clears DONE (bit 1), OVR (bit 4) and ACC (bit 5) where `v` has a 1, and nothing else. -/
def Status.w1c (v : Word) (st : Status) : Status :=
  { st with done := st.done && !v[1], ovr := st.ovr && !v[4], acc := st.acc && !v[5] }

/-- STATUS at acceptance (R113): DONE, W_TAIL, W_TRUNC, ERR and TRUNC_CAUSE become 0; OVR and ACC are unchanged. -/
def Status.accepted (st : Status) : Status :=
  { st with done := false, wTail := false, wTrunc := false, err := .ok, truncCause := .noTrunc }

/-- STATUS at the commit of `Ok(writes, tail, trunc)` (R119). -/
def Status.committedOk (tail : Nat) (trunc : Option (TruncCause × Nat)) (st : Status) : Status :=
  { st with
    done := true
    wTail := decide (tail > 0)
    wTrunc := trunc.isSome
    err := .ok
    truncCause := match trunc with
      | some (cause, _) => cause
      | none => .noTrunc }

/-- STATUS at the commit of `Fail(code, info)` (R120). -/
def Status.committedFail (code : ErrCode) (st : Status) : Status :=
  { st with done := true, wTail := false, wTrunc := false, err := code, truncCause := .noTrunc }

/-- STATUS.OVR ← 1 (R114). -/
def Status.setOvr (st : Status) : Status := { st with ovr := true }

/-- STATUS.ACC ← 1 (R115, spec/20_memory.md R74). -/
def Status.setAcc (st : Status) : Status := { st with acc := true }

/-- STATUS.BUSY (R41): 1 exactly when the phase is Busy. -/
def State.busy (s : State) : Bool :=
  match s.phase with
  | .idle => false
  | .busy _ _ => true

/-- The IRQ output (R45, R247): `STATUS.DONE AND CTRL.IRQ_EN`, a level that holds no state. -/
def State.irq (s : State) : Bool := s.regs.status.done && s.regs.irqEn

end Sys2Proof.Machine
end

