-- ==== Sys2Proof/Machine/Ops.lean ====
section
/-! DEFINITION. The operations over memory and registers that every meaning shares: entries of memory, the locations a
command writes, acceptance, the two commits, and the resets (spec/20_memory.md R64, R65; spec/40_host_interface.md R113,
R118 to R123; spec/70_reset_and_hazards.md R270 to R272). -/

namespace Sys2Proof.Machine

/-! ### One memory -/

/-- The canonical form: entry indexes strictly rising. An unlisted entry holds no value, so no listed entry equals what
an unlisted one reads as. -/
abbrev Memory.wf (m : Memory) : Prop := m.cells.Pairwise fun a b => a.1 < b.1

/-- The word entry `k` holds, if anything has written it since the hard reset (R271). -/
def Memory.read (m : Memory) (k : Nat) : Option Word := m.cells.lookup k

/-- Entry `k` set to `v` in a list of entries whose indexes rise. -/
def insertCell (k : Nat) (v : Word) : List (Nat × Word) → List (Nat × Word)
  | [] => [(k, v)]
  | (j, w) :: rest =>
    if k < j then (k, v) :: (j, w) :: rest
    else if k = j then (k, v) :: rest
    else (j, w) :: insertCell k v rest

/-- Entry `k` set to `v`. -/
def Memory.write (m : Memory) (k : Nat) (v : Word) : Memory := ⟨insertCell k v m.cells⟩

/-! ### The four memories -/

/-- The memory of a cell is canonical in every one of the four memories. -/
abbrev Memories.wf (m : Memories) : Prop :=
  m.txt.wf ∧ m.bstr.wf ∧ m.tok.wf ∧ m.ct.sym.wf ∧ m.ct.freq.wf ∧ m.ct.codeLen.wf ∧ m.ct.codeBits.wf

/-- The word a cell holds, if any. -/
def Memories.read (m : Memories) : Cell → Option Word
  | .txt k => m.txt.read k
  | .bstr k => m.bstr.read k
  | .tok k => m.tok.read k
  | .ctSym k => m.ct.sym.read k
  | .ctFreq k => m.ct.freq.read k
  | .ctLen k => m.ct.codeLen.read k
  | .ctBits k => m.ct.codeBits.read k

/-- A cell set to a word. -/
def Memories.write (m : Memories) (c : Cell) (v : Word) : Memories :=
  match c with
  | .txt k => { m with txt := m.txt.write k v }
  | .bstr k => { m with bstr := m.bstr.write k v }
  | .tok k => { m with tok := m.tok.write k v }
  | .ctSym k => { m with ct := { m.ct with sym := m.ct.sym.write k v } }
  | .ctFreq k => { m with ct := { m.ct with freq := m.ct.freq.write k v } }
  | .ctLen k => { m with ct := { m.ct with codeLen := m.ct.codeLen.write k v } }
  | .ctBits k => { m with ct := { m.ct with codeBits := m.ct.codeBits.write k v } }

/-- How many bits a cell stores (R65; R40 for CT's fields). -/
def Cell.width (p : Params) : Cell → Nat
  | .txt _ => p.charW
  | .bstr _ => p.charW
  | .tok _ => p.charW
  | .ctSym _ => p.charW
  | .ctFreq _ => 32
  | .ctLen _ => 6
  | .ctBits _ => 32

/-- The index of a cell's entry in its memory. -/
def Cell.index : Cell → Nat
  | .txt k => k
  | .bstr k => k
  | .tok k => k
  | .ctSym k => k
  | .ctFreq k => k
  | .ctLen k => k
  | .ctBits k => k

/-- The depth of a cell's memory (R6). -/
def Cell.depth (p : Params) : Cell → Nat
  | .txt _ => p.txtDepth
  | .bstr _ => p.bstrDepth
  | .tok _ => p.tokDepth
  | .ctSym _ => p.ctDepth
  | .ctFreq _ => p.ctDepth
  | .ctLen _ => p.ctDepth
  | .ctBits _ => p.ctDepth

/-- R65: a cell keeps the stored bits of a word written to it, and drops the rest. -/
def storedBits (p : Params) (c : Cell) (v : Word) : Word := BitVec.ofNat 32 (v.toNat % 2 ^ c.width p)

/-! ### Locations a command writes -/

/-- The value at a location; `none` for a memory entry that holds none. -/
def State.readLoc (s : State) : Loc → Option Word
  | .cell c => s.mems.read c
  | .txtLen => some s.regs.txtLen
  | .bstrLen => some s.regs.bstrLen
  | .tokLen => some s.regs.tokLen
  | .alphaN => some s.regs.alphaN

/-- What a location keeps of a word written to it (R65; a length register stores all 32 bits, R28). -/
def storedAt (p : Params) (l : Loc) (v : Word) : Word :=
  match l with
  | .cell c => storedBits p c v
  | .txtLen => v
  | .bstrLen => v
  | .tokLen => v
  | .alphaN => v

/-- `loc <- val` of R119. -/
def State.writeLoc (s : State) (l : Loc) (v : Word) : State :=
  match l with
  | .cell c => { s with mems := s.mems.write c (storedBits s.params c v) }
  | .txtLen => { s with regs := { s.regs with txtLen := v } }
  | .bstrLen => { s with regs := { s.regs with bstrLen := v } }
  | .tokLen => { s with regs := { s.regs with tokLen := v } }
  | .alphaN => { s with regs := { s.regs with alphaN := v } }

/-- `for each (loc, val) in writes: loc <- val` (R119). -/
def State.applyWrites (s : State) : List (Loc × Word) → State
  | [] => s
  | (l, v) :: rest => (s.writeLoc l v).applyWrites rest

/-- The writes of a sequence to entries k, k+1, ... of one memory, named by `mk`. -/
def seqWrites (mk : Nat → Cell) (k : Nat) : List Word → List (Loc × Word)
  | [] => []
  | v :: rest => (.cell (mk k), v) :: seqWrites mk (k + 1) rest

/-! ### A command's result and its commit -/

/-- `Ok(writes, tail, trunc)` of R123. -/
structure Outputs where
  writes : List (Loc × Word)
  tail : Nat
  trunc : Option (TruncCause × Nat)
  deriving DecidableEq, Repr

/-- Why a command's computation ends without `Ok`. -/
inductive Stop where
  /-- `raise Error(code, info)` (R123, spec/00_scope.md R10). -/
  | raised (code : ErrCode) (info : Word)
  /-- The command read a memory entry that holds no value (spec/70_reset_and_hazards.md R271). -/
  | unwritten (c : Cell)
  deriving DecidableEq, Repr

/-- `if cond: raise Error(code, info)`. -/
def raiseIf (cond : Bool) (code : ErrCode) (info : Word) : Except Stop Unit :=
  if cond then .error (.raised code info) else .ok ()

/-- The memory ids of R243. -/
def memIdTxt : Word := 1
def memIdBstr : Word := 2
def memIdTok : Word := 3
def memIdCt : Word := 4

/-- The live registers and memories, as acceptance copies them (R113). -/
def State.capture (s : State) : Snapshot := { regs := s.regs, mems := s.mems }

/-- What a command reads: the snapshot in flight (R122). With no command in flight, what an acceptance would
capture (log entry 8; no step runs a command then). -/
def State.inputs (s : State) : Snapshot :=
  match s.phase with
  | .idle => s.capture
  | .busy _ snap => snap

/-- The commit of `Ok(writes, tail, trunc)` (R119), in R119's order. -/
def State.commitOk (s : State) (out : Outputs) : State :=
  let s1 := s.applyWrites out.writes
  { s1 with
    regs := { s1.regs with
      tailBits := BitVec.ofNat 32 out.tail
      truncPos := match out.trunc with
        | some (_, pos) => BitVec.ofNat 32 pos
        | none => 0
      errInfo := 0
      status := s1.regs.status.committedOk out.tail out.trunc }
    phase := .idle }

/-- The commit of `Fail(code, info)` (R120): this block's one way of taking an error. "No memory entry and no other
register changes." There is no return from it: the block has no traps and no control flow (spec/60_exceptions.md R246,
R250). -/
def State.commitFail (s : State) (code : ErrCode) (info : Word) : State :=
  { s with
    regs := { s.regs with
      tailBits := 0
      truncPos := 0
      errInfo := info
      status := s.regs.status.committedFail code }
    phase := .idle }

/-- The completion step (R118): the command's result is committed. -/
def State.complete (s : State) (result : Except Stop Outputs) : Host.Outcome State Fault Refusal :=
  match result with
  | .ok out => .next (s.commitOk out)
  | .error (.raised code info) => .next (s.commitFail code info)
  | .error (.unwritten c) => .fault (.unwrittenRead c)

/-! ### Acceptance and resets -/

/-- Acceptance of the command word `v` (R113), in R113's order: CMD and the cleared result registers first, then the
snapshot of every register and memory entry "as they stand now", then the phase. -/
def State.accept (s : State) (v : Word) : State :=
  let s1 := { s with
    regs := { s.regs with cmd := v, status := s.regs.status.accepted, errInfo := 0, tailBits := 0, truncPos := 0 } }
  { s1 with phase := .busy v s1.capture }

/-- Soft reset (R272): every register to its hard-reset value, the phase Idle with any command aborted, memories kept. -/
def State.softReset (s : State) : State := { s with regs := Regs.reset, phase := .idle }

/-- Hard reset (R270, R271): as a soft reset, and no memory entry holds a value. -/
def State.hardReset (s : State) : State :=
  { s with regs := Regs.reset, phase := .idle, mems := Memories.unwritten }

end Sys2Proof.Machine
end

