-- ==== Sys2Proof/Machine/Bus.lean ====
section
/-! DEFINITION. Host bus transactions: the address map, register reads and writes, memory reads and writes, in both engine
phases (spec/10_state.md R21 to R35; spec/20_memory.md R60 to R74; spec/40_host_interface.md R110 to R117, R125). -/

namespace Sys2Proof.Machine

/-- The registers of R21's table. -/
inductive Reg where
  | id
  | ctrl
  | cmd
  | status
  | errInfo
  | window
  | txtLen
  | bstrLen
  | tokLen
  | alphaN
  | tailBits
  | truncPos
  | capTxtDepth
  | capBstrDepth
  | capTokDepth
  | capCtDepth
  | capCharW
  deriving DecidableEq, Repr

/-- What an aligned address names (R60, R64). `unmapped` covers R63's cases: an unmapped address, an entry at or above
its memory's depth, and a register offset R21 does not name. -/
inductive Target where
  | reg (r : Reg)
  | cell (c : Cell)
  | unmapped
  deriving DecidableEq, Repr

/-- The register at an offset of the register region (R21). -/
def regAt (offset : Nat) : Option Reg :=
  match offset with
  | 0x000 => some .id
  | 0x004 => some .ctrl
  | 0x008 => some .cmd
  | 0x00C => some .status
  | 0x010 => some .errInfo
  | 0x014 => some .window
  | 0x018 => some .txtLen
  | 0x01C => some .bstrLen
  | 0x020 => some .tokLen
  | 0x024 => some .alphaN
  | 0x028 => some .tailBits
  | 0x02C => some .truncPos
  | 0x030 => some .capTxtDepth
  | 0x034 => some .capBstrDepth
  | 0x038 => some .capTokDepth
  | 0x03C => some .capCtDepth
  | 0x040 => some .capCharW
  | _ => none

/-- The offset of a register (R21). -/
def Reg.offset : Reg → Addr
  | .id => 0x000
  | .ctrl => 0x004
  | .cmd => 0x008
  | .status => 0x00C
  | .errInfo => 0x010
  | .window => 0x014
  | .txtLen => 0x018
  | .bstrLen => 0x01C
  | .tokLen => 0x020
  | .alphaN => 0x024
  | .tailBits => 0x028
  | .truncPos => 0x02C
  | .capTxtDepth => 0x030
  | .capBstrDepth => 0x034
  | .capTokDepth => 0x038
  | .capCtDepth => 0x03C
  | .capCharW => 0x040

/-- The field of CT entry `k` with field number `f` (R40). -/
def ctField (k f : Nat) : Cell :=
  match f with
  | 0 => .ctSym k
  | 1 => .ctFreq k
  | 2 => .ctLen k
  | _ => .ctBits k

/-- The region a bus address lies in: its bits [23:20]. Every region of R60 starts at a multiple of 0x10_0000 and, by
R6's bounds on the depths, ends before the next. -/
def regionOf (a : Addr) : Nat := (a.extractLsb' 20 4).toNat

/-- The byte offset of a bus address in its region: its bits [19:0]. -/
def offsetOf (a : Addr) : Nat := (a.extractLsb' 0 20).toNat

/-- The address map (R60, R63, R64) at an aligned address. -/
def targetOf (p : Params) (a : Addr) : Target :=
  let n := offsetOf a
  match regionOf a with
  | 0 =>
    match regAt n with
    | some r => .reg r
    | none => .unmapped
  | 1 => if n / 4 < p.txtDepth then .cell (.txt (n / 4)) else .unmapped
  | 2 => if n / 4 < p.bstrDepth then .cell (.bstr (n / 4)) else .unmapped
  | 3 => if n / 4 < p.tokDepth then .cell (.tok (n / 4)) else .unmapped
  | 4 => if n / 16 < p.ctDepth then .cell (ctField (n / 16) (n % 16 / 4)) else .unmapped
  | _ => .unmapped

/-- The bus address of a memory word (R64). -/
def Cell.addr : Cell → Addr
  | .txt k => BitVec.ofNat 24 (0x100000 + 4 * k)
  | .bstr k => BitVec.ofNat 24 (0x200000 + 4 * k)
  | .tok k => BitVec.ofNat 24 (0x300000 + 4 * k)
  | .ctSym k => BitVec.ofNat 24 (0x400000 + 16 * k)
  | .ctFreq k => BitVec.ofNat 24 (0x400000 + 16 * k + 4)
  | .ctLen k => BitVec.ofNat 24 (0x400000 + 16 * k + 8)
  | .ctBits k => BitVec.ofNat 24 (0x400000 + 16 * k + 12)

/-! ### Registers -/

/-- A register's current value (R111): reserved fields and the write-only SOFT_RESET read 0, in both phases. -/
def State.readReg (s : State) : Reg → Word
  | .id => Config.idWord
  | .ctrl => (BitVec.ofBool s.regs.irqEn).setWidth 32
  | .cmd => s.regs.cmd
  | .status => s.regs.status.word s.busy
  | .errInfo => s.regs.errInfo
  | .window => s.regs.window.setWidth 32
  | .txtLen => s.regs.txtLen
  | .bstrLen => s.regs.bstrLen
  | .tokLen => s.regs.tokLen
  | .alphaN => s.regs.alphaN
  | .tailBits => s.regs.tailBits
  | .truncPos => s.regs.truncPos
  | .capTxtDepth => BitVec.ofNat 32 s.params.txtDepth
  | .capBstrDepth => BitVec.ofNat 32 s.params.bstrDepth
  | .capTokDepth => BitVec.ofNat 32 s.params.tokDepth
  | .capCtDepth => BitVec.ofNat 32 s.params.ctDepth
  | .capCharW => BitVec.ofNat 32 s.params.charW

/-- STATUS.ACC ← 1, as a host access forbidden while Busy sets it (R74, R115). -/
def State.setAcc (s : State) : State := { s with regs := { s.regs with status := s.regs.status.setAcc } }

/-- A write of WINDOW, a length register or ALPHA_N: while Busy it is ignored and ACC ← 1 (R115); while Idle the
register file becomes `r` (R112). -/
def State.configWrite (s : State) (r : Regs) : State :=
  if s.busy then s.setAcc else { s with regs := r }

/-- A write of CMD: accepted while Idle (R113), dropped with OVR ← 1 while Busy (R114). -/
def State.writeCmd (s : State) (v : Word) : State :=
  if s.busy then { s with regs := { s.regs with status := s.regs.status.setOvr } } else s.accept v

/-- A write of CTRL, in either phase (R117): IRQ_EN ← v[0], then a soft reset if v[1] = 1. -/
def State.writeCtrl (s : State) (v : Word) : State :=
  let s1 := { s with regs := { s.regs with irqEn := v[0] } }
  if v[1] then s1.softReset else s1

/-- A bus write of a register (R112 to R117). A RO register ignores it in every phase and never sets ACC. -/
def State.writeReg (s : State) (r : Reg) (v : Word) : State :=
  match r with
  | .id => s
  | .ctrl => s.writeCtrl v
  | .cmd => s.writeCmd v
  | .status => { s with regs := { s.regs with status := s.regs.status.w1c v } }
  | .errInfo => s
  | .window => s.configWrite { s.regs with window := v.setWidth 8 }
  | .txtLen => s.configWrite { s.regs with txtLen := v }
  | .bstrLen => s.configWrite { s.regs with bstrLen := v }
  | .tokLen => s.configWrite { s.regs with tokLen := v }
  | .alphaN => s.configWrite { s.regs with alphaN := v }
  | .tailBits => s
  | .truncPos => s
  | .capTxtDepth => s
  | .capBstrDepth => s
  | .capTokDepth => s
  | .capCtDepth => s
  | .capCharW => s

/-! ### Transactions -/

/-- A bus read returns `v` to the host (R110). -/
def State.answer (s : State) (v : Word) : State := { s with returned := v :: s.returned }

/-- `BusRead(a)` (R110). Not well-formed or unmapped: returns 0 (R61, R63). A memory word while Busy: a free value and
ACC ← 1 (R74). A memory word while Idle: its stored bits (R125), and a fault if nothing has written it (R271). -/
def State.busRead (s : State) (a : Addr) (lanes : BitVec 4) : Host.Outcome State Fault Refusal :=
  if accessWf a lanes then
    match targetOf s.params a with
    | .reg r => .next (s.answer (s.readReg r))
    | .unmapped => .next (s.answer 0)
    | .cell c =>
      if s.busy then .next { (s.setAcc).answer (Config.busyRead s.draws) with draws := s.draws + 1 }
      else
        match s.mems.read c with
        | some v => .next (s.answer v)
        | none => .fault (.unwrittenRead c)
  else .next (s.answer 0)

/-- `BusWrite(a, v)` (R110). Not well-formed or unmapped: no effect (R61, R63). A memory word while Busy: ignored, and
ACC ← 1 (R74). A memory word while Idle: its stored bits of `v` (R65, R125). -/
def State.busWrite (s : State) (a : Addr) (lanes : BitVec 4) (v : Word) : State :=
  if accessWf a lanes then
    match targetOf s.params a with
    | .reg r => s.writeReg r v
    | .unmapped => s
    | .cell c => if s.busy then s.setAcc else { s with mems := s.mems.write c (storedBits s.params c v) }
  else s

/-- One host transaction, one atomic step (R110). -/
def State.busStep (s : State) : BusTxn → Host.Outcome State Fault Refusal
  | .read a lanes => s.busRead a lanes
  | .write a lanes v => .next (s.busWrite a lanes v)

end Sys2Proof.Machine
end

