-- ==== Sys2Proof/Machine/Text.lean ====
section
/-! DEFINITION. Characters, decimal text, and codes as strings of '0' and '1' (spec/00_scope.md R9, R11, R12;
spec/30_encoding.md R85, R86, R89). -/

namespace Sys2Proof.Machine

/-! ### Characters (R11) -/

def chZero : Word := 0x30
def chOne : Word := 0x31
def chNine : Word := 0x39
def chLess : Word := 0x3C
def chComma : Word := 0x2C
def chGreater : Word := 0x3E

/-! ### Decimal text (R12) -/

/-- The character of one decimal digit. -/
def digitChar (d : Nat) : Word := BitVec.ofNat 32 (0x30 + d)

/-- The digits of `v` put before `rest`, most significant first; `fuel` bounds the number of digits. -/
def decDigits : (fuel v : Nat) → (rest : List Word) → List Word
  | 0, _, rest => rest
  | fuel + 1, v, rest =>
    if v < 10 then digitChar v :: rest else decDigits fuel (v / 10) (digitChar (v % 10) :: rest)

/-- `dec(v)` (R12): the shortest decimal text, "0" for zero, no leading zeros. -/
def dec (v : Nat) : List Word := decDigits (v + 1) v []

/-- Whether a character is one of '0' to '9'. -/
def isDigit (c : Word) : Bool := decide (chZero.toNat ≤ c.toNat) && decide (c.toNat ≤ chNine.toNat)

/-- `digits(f)` (spec/42_lz77.md R196): non-empty, and every character a digit. -/
def digits (f : List Word) : Bool := !f.isEmpty && f.all isDigit

/-- `val(f)` (R12): the value of a digit string, most significant digit first; leading zeros allowed. A natural
number, never wrapped (R15). -/
def val (f : List Word) : Nat := f.foldl (fun acc c => 10 * acc + (c.toNat - chZero.toNat)) 0

/-! ### Codes (R85) -/

/-- `ch(b)`: '0' for 0 and '1' for 1. -/
def bitChar (b : Bool) : Word := if b then chOne else chZero

/-- `b(c)`: 0 for '0' and 1 for '1'. -/
def charBit (c : Word) : Nat := if c = chOne then 1 else 0

/-- CODE_BITS of a code string: right-aligned, first code bit most significant. -/
def codeBitsOf (c : List Word) : Word := BitVec.ofNat 32 (c.foldl (fun acc x => 2 * acc + charBit x) 0)

/-- The code string an entry holds: `[ch(CODE_BITS[L-1]), ..., ch(CODE_BITS[0])]`; bits [31:L] are ignored. -/
def codeString (len : Nat) (bits : Word) : List Word :=
  (List.range len).map fun t => bitChar (bits.getLsbD (len - 1 - t))

/-! ### Slices (R9) -/

/-- `s[p..p+j)`. -/
def slice (s : List Word) (p j : Nat) : List Word := (s.drop p).take j

end Sys2Proof.Machine
end

