-- ==== Sys2Proof/Machine/Operands.lean ====
section
/-! DEFINITION. The operands of the commands (spec/30_encoding.md R84): what each reads from its snapshot
(spec/40_host_interface.md R122), the length check (R124) and the table check TableOK (spec/41_shannon_fano.md R152).
An entry is read where the pseudocode reads it, so a command stops on an unwritten entry only when its pseudocode reads
that entry (spec/70_reset_and_hazards.md R271; log entry 6). -/

namespace Sys2Proof.Machine

/-- One word of the snapshot's memories. -/
def Snapshot.cell (snap : Snapshot) (c : Cell) : Except Stop Word :=
  match snap.mems.read c with
  | some v => .ok v
  | none => .error (.unwritten c)

/-- Entries k, k+1, ..., k+n-1 of the memory `mk` names, in this order. -/
def Snapshot.seqFrom (snap : Snapshot) (mk : Nat → Cell) (k : Nat) : (n : Nat) → Except Stop (List Word)
  | 0 => .ok []
  | n + 1 => do
    let v ← snap.cell (mk k)
    let rest ← snap.seqFrom mk (k + 1) n
    .ok (v :: rest)

/-- `Seq(M, n)` (spec/00_scope.md R10). -/
def Snapshot.seq (snap : Snapshot) (mk : Nat → Cell) (n : Nat) : Except Stop (List Word) := snap.seqFrom mk 0 n

/-- The length check (R124): `if len > depth: raise Error(BAD_LENGTH, id)`. -/
def checkLength (len depth : Nat) (id : Word) : Except Stop Unit := raiseIf (decide (len > depth)) .badLength id

/-- The capacity check (spec/60_exceptions.md R240, R243): `if size > depth: raise Error(CAPACITY, id)`. -/
def checkCapacity (size depth : Nat) (id : Word) : Except Stop Unit := raiseIf (decide (size > depth)) .capacity id

/-- `SYM[k]`. -/
def Snapshot.sym (snap : Snapshot) (k : Nat) : Except Stop Word := snap.cell (.ctSym k)

/-- `CODE_LEN[k]`. -/
def Snapshot.codeLen (snap : Snapshot) (k : Nat) : Except Stop Nat := do
  let l ← snap.cell (.ctLen k)
  .ok l.toNat

/-- `codeStr(k)` (spec/30_encoding.md R85). -/
def Snapshot.codeStr (snap : Snapshot) (k : Nat) : Except Stop (List Word) := do
  let l ← snap.codeLen k
  let b ← snap.cell (.ctBits k)
  .ok (codeString l b)

/-- Whether entries j and k break the table: equal symbols, or one code a prefix of the other (R152). The codes are
read only when the symbols differ. -/
def Snapshot.clash (snap : Snapshot) (j k : Nat) : Except Stop Bool := do
  let sj ← snap.sym j
  let sk ← snap.sym k
  if sj = sk then .ok true
  else do
    let cj ← snap.codeStr j
    let ck ← snap.codeStr k
    .ok (cj.isPrefixOf ck || ck.isPrefixOf cj)

/-- R152's inner loop over the given j. -/
def Snapshot.checkPairs (snap : Snapshot) (k : Nat) : List Nat → Except Stop Unit
  | [] => .ok ()
  | j :: rest => do
    let bad ← snap.clash j k
    raiseIf bad .badTable (BitVec.ofNat 32 k)
    snap.checkPairs k rest

/-- R152's loop body at k: CODE_LEN in 1 to 32, then every j below k. -/
def Snapshot.checkEntry (snap : Snapshot) (k : Nat) : Except Stop Unit := do
  let l ← snap.codeLen k
  raiseIf (decide (l < 1) || decide (l > Config.maxCodeLen)) .badTable (BitVec.ofNat 32 k)
  snap.checkPairs k (List.range k)

/-- R152's outer loop over the given k. -/
def Snapshot.checkEntries (snap : Snapshot) : List Nat → Except Stop Unit
  | [] => .ok ()
  | k :: rest => do
    snap.checkEntry k
    snap.checkEntries rest

/-- `TableOK` (R152): the size, then the entries in ascending order, so that `info` is the lowest failing index. -/
def Snapshot.tableOk (p : Params) (snap : Snapshot) : Except Stop Unit := do
  let n := snap.regs.alphaN.toNat
  raiseIf (decide (n = 0) || decide (n > p.ctDepth)) .badTable 0xFFFFFFFF
  snap.checkEntries (List.range n)

end Sys2Proof.Machine
end

