-- ==== Sys2Proof/Machine/Lz77.lean ====
section
/-! DEFINITION. The LZ77 stage: LZ_ENCODE and LZ_DECODE (spec/42_lz77.md). -/

namespace Sys2Proof.Machine

/-! ### LZ_ENCODE -/

/-- A token (off, L, c); `next` is one character or none (R185). -/
structure Token where
  off : Nat
  len : Nat
  next : List Word
  deriving DecidableEq, Repr

/-- `P` of R181: the starts p in the window with `ws <= p`, `p + j <= i` and `s[p..p+j) = s[i..i+j)`, ascending. -/
def occurrences (s : List Word) (ws i j : Nat) : List Nat :=
  (List.range' ws (i + 1 - j - ws)).filter fun p => slice s p j = slice s i j

/-- One pass of R181's search loop at length j: a non-empty P overwrites the match with its greatest start (R184). -/
def searchStep (s : List Word) (ws i : Nat) (best : Nat × Nat) (j : Nat) : Nat × Nat :=
  match (occurrences s ws i j).max? with
  | some p => (i - p, j)
  | none => best

/-- The match (off, L) at cursor i (R182 to R184): every j from 1 to `Lmax = min(W, i, n - i)`, ascending. -/
def search (s : List Word) (w i : Nat) : Nat × Nat :=
  (List.range' 1 (min w (min i (s.length - i)))).foldl (searchStep s (i - w) i) (0, 0)

/-- R181's loop from cursor i on; `fuel` is at least `n - i`, since the cursor advances by L + 1 (R185). -/
def tokensFrom (s : List Word) (w : Nat) : (fuel i : Nat) → List Token
  | 0, _ => []
  | fuel + 1, i =>
    if i < s.length then
      let m := search s w i
      ⟨m.1, m.2, slice s (i + m.2) 1⟩ :: tokensFrom s w fuel (i + m.2 + 1)
    else []

/-- `toks` of R181. -/
def lzTokens (s : List Word) (w : Nat) : List Token := tokensFrom s w s.length 0

/-- The text of one token (R187): `<off,len,c>`. -/
def Token.text (k : Token) : List Word :=
  chLess :: (dec k.off ++ chComma :: (dec k.len ++ chComma :: (k.next ++ [chGreater])))

/-- The token text of a sequence: tokens "with no separators" (R187). -/
def lzText (s : List Word) (w : Nat) : List Word := (lzTokens s w).flatMap Token.text

/-- `F_LZ_ENCODE(snap)` (R181). -/
def fLzEncode (p : Params) (snap : Snapshot) : Except Stop Outputs := do
  let n := snap.regs.bstrLen.toNat
  checkLength n p.bstrDepth memIdBstr
  let s ← snap.seq .bstr n
  let out := lzText s snap.regs.window.toNat
  checkCapacity out.length p.tokDepth memIdTok
  .ok { writes := seqWrites .tok 0 out ++ [(.tokLen, BitVec.ofNat 32 out.length)], tail := 0, trunc := none }

/-- LZ_ENCODE (R180): its completion step. -/
def execLzEncode (s : State) : Host.Outcome State Fault Refusal := s.complete (fLzEncode s.params s.inputs)

/-! ### LZ_DECODE -/

/-- The text before the first `sep` and the text after it; `none` when there is no `sep`. -/
def breakAt (sep : Word) : List Word → Option (List Word × List Word)
  | [] => none
  | c :: rest =>
    if c = sep then some ([], rest)
    else
      match breakAt sep rest with
      | some (before, after) => some (c :: before, after)
      | none => none

/-- A token body's fields (R199, R200): split at the first two commas; A and B digit strings below 2^32; C empty or one
character. `none` is BAD_FIELD. -/
def parseBody (body : List Word) : Option Token :=
  match breakAt chComma body with
  | none => none
  | some (a, rest) =>
    match breakAt chComma rest with
    | none => none
    | some (b, c) =>
      if digits a && digits b && decide (val a < 2 ^ 32) && decide (val b < 2 ^ 32) && decide (c.length ≤ 1) then
        some ⟨val a, val b, c⟩
      else none

/-- R202's copy. `rev` is the output so far, newest character first, so `out[|out| - off]` is its element `off - 1`. Each
character is appended before the next is read: the start moves on by one as the output grows by one, so the distance
stays `off`. -/
def copyBack (off : Nat) : (len : Nat) → (rev : List Word) → List Word
  | 0, rev => rev
  | len + 1, rev => copyBack off len (rev.getD (off - 1) 0 :: rev)

/-- R196's loop from TOK index q on: `rest` is `t[q..T)` and `rev` the output so far, newest first. The result is the
output, newest first, and the truncation record. Every pass consumes a character, so `fuel` is at least the length of
`rest`. A copy stops after `limit + 1` characters: the output then exceeds the limit whatever follows, and "an
implementation may stop as soon as it passes BSTR_DEPTH. The result is the same" (R206). -/
def scanFrom (limit : Nat) : (fuel q : Nat) → (rest rev : List Word) → List Word × Option (TruncCause × Nat)
  | 0, _, _, rev => (rev, none)
  | _ + 1, _, [], rev => (rev, none)
  | fuel + 1, q, c :: rest, rev =>
    if c ≠ chLess then scanFrom limit fuel (q + 1) rest (c :: rev)
    else
      match breakAt chGreater rest with
      | none => (rev, some (.unterminated, q))
      | some (body, after) =>
        match parseBody body with
        | none => (rev, some (.badField, q))
        | some k =>
          if k.len ≥ 1 ∧ (k.off = 0 ∨ k.off > rev.length) then (rev, some (.badOffset, q))
          else scanFrom limit fuel (q + body.length + 2) after (k.next ++ copyBack k.off (min k.len (limit + 1)) rev)

/-- The decoded characters and truncation record of a token text (R196, R204), for an output memory of `limit`
entries. -/
def lzDecode (limit : Nat) (t : List Word) : List Word × Option (TruncCause × Nat) :=
  let r := scanFrom limit t.length 0 t []
  (r.1.reverse, r.2)

/-- `F_LZ_DECODE(snap)` (R196). -/
def fLzDecode (p : Params) (snap : Snapshot) : Except Stop Outputs := do
  let len := snap.regs.tokLen.toNat
  checkLength len p.tokDepth memIdTok
  let t ← snap.seq .tok len
  let r := lzDecode p.bstrDepth t
  checkCapacity r.1.length p.bstrDepth memIdBstr
  .ok { writes := seqWrites .bstr 0 r.1 ++ [(.bstrLen, BitVec.ofNat 32 r.1.length)], tail := 0, trunc := r.2 }

/-- LZ_DECODE (R195): its completion step. -/
def execLzDecode (s : State) : Host.Outcome State Fault Refusal := s.complete (fLzDecode s.params s.inputs)

end Sys2Proof.Machine
end

