-- ==== Sys2Proof/Machine/ShannonFano.lean ====
section
/-! DEFINITION. The Shannon-Fano stage: BUILD, SF_ENCODE and SF_DECODE (spec/41_shannon_fano.md). -/

namespace Sys2Proof.Machine

/-! ### FrequencyModel (R141) and ranking (R142) -/

/-- One pass of R141's loop: count `x`, adding it at the end of U when it is new. -/
def bump (x : Word) : List (Word × Nat) → List (Word × Nat)
  | [] => [(x, 1)]
  | (u, f) :: rest => if u = x then (u, f + 1) :: rest else (u, f) :: bump x rest

/-- The frequency model of t (R141): the distinct symbols in order of first occurrence, each with its count. -/
def tally (t : List Word) : List (Word × Nat) := t.foldl (fun m x => bump x m) []

/-- A symbol that precedes all of `ranked` in U put into it: before every symbol of equal or lower frequency. -/
def insertRanked (e : Word × Nat) : List (Word × Nat) → List (Word × Nat)
  | [] => [e]
  | r :: rest => if r.2 ≤ e.2 then e :: r :: rest else r :: insertRanked e rest

/-- `stableSortDescendingBy(F, U)` (R142). -/
def rank (model : List (Word × Nat)) : List (Word × Nat) := model.foldr insertRanked []

/-! ### The tree (R143 to R145) and its codes (R146, R147) -/

/-- A node of the tree (R143): `Leaf(sym, freq)` or `Internal(freq, left, right)`. -/
inductive Node where
  | leaf (sym : Word) (freq : Nat)
  | internal (freq : Nat) (left right : Node)
  deriving DecidableEq, Repr

/-- The frequency a node holds. -/
def Node.freq : Node → Nat
  | .leaf _ f => f
  | .internal f _ _ => f

/-- `Tree(L)` (R144) of the non-empty slice `e :: rest`: split at `floor(|L| / 2)`, first half left. `fuel` is at least
the length of `rest`, which bounds the depth. -/
def treeFrom : (fuel : Nat) → (e : Word × Nat) → (rest : List (Word × Nat)) → Node
  | 0, e, _ => .leaf e.1 e.2
  | fuel + 1, e, rest =>
    let m := (rest.length + 1) / 2
    match rest.drop (m - 1) with
    | [] => .leaf e.1 e.2
    | r :: right =>
      if m = 0 then .leaf e.1 e.2
      else
        let l := treeFrom fuel e (rest.take (m - 1))
        let r := treeFrom fuel r right
        .internal (l.freq + r.freq) l r

/-- `root <- Tree(S)` (R144). -/
def tree (e : Word × Nat) (rest : List (Word × Nat)) : Node := treeFrom rest.length e rest

/-- One entry of the code table before it is stored: symbol, frequency, code string. -/
structure TableEntry where
  sym : Word
  freq : Nat
  code : List Word
  deriving DecidableEq, Repr

/-- The leaves left to right, each with its path from the root, left = '0' and right = '1' (R146). -/
def Node.leaves (path : List Word) : Node → List TableEntry
  | .leaf s f => [⟨s, f, path⟩]
  | .internal _ l r => l.leaves (path ++ [chZero]) ++ r.leaves (path ++ [chOne])

/-- The code of each leaf (R146), and "0" for a tree that is a single leaf (R147). -/
def Node.table : Node → List TableEntry
  | .leaf s f => [⟨s, f, [chZero]⟩]
  | .internal f l r => (Node.internal f l r).leaves []

/-- The PrefixCodeTable of a text (R141 to R147), in rank order. Empty text has no tree. -/
def buildTable (t : List Word) : List TableEntry :=
  match rank (tally t) with
  | [] => []
  | e :: rest => (tree e rest).table

/-! ### The closed form (R148) -/

/-- `c(k, n)` of R148; `fuel` is at least n. -/
def pathCode : (fuel k n : Nat) → List Word
  | 0, _, _ => []
  | fuel + 1, k, n =>
    if n ≤ 1 then []
    else
      let h := n / 2
      if k < h then chZero :: pathCode fuel k h else chOne :: pathCode fuel (k - h) (n - h)

/-- `code(k, n)` of R148. BUILD does not use it: its codes come from the tree. Statements compare the two. -/
def closedCode (k n : Nat) : List Word := if n = 1 then [chZero] else pathCode n k n

/-! ### BUILD -/

/-- The writes of CT[k], CT[k+1], ...: all four fields (R149). -/
def tableWrites (k : Nat) : List TableEntry → List (Loc × Word)
  | [] => []
  | e :: rest =>
    (.cell (.ctSym k), e.sym) :: (.cell (.ctFreq k), BitVec.ofNat 32 e.freq) ::
    (.cell (.ctLen k), BitVec.ofNat 32 e.code.length) :: (.cell (.ctBits k), codeBitsOf e.code) ::
    tableWrites (k + 1) rest

/-- `F_BUILD(snap)` (R149). -/
def fBuild (p : Params) (snap : Snapshot) : Except Stop Outputs := do
  let n := snap.regs.txtLen.toNat
  checkLength n p.txtDepth memIdTxt
  raiseIf (decide (n = 0)) .emptyInput 0
  let t ← snap.seq .txt n
  checkCapacity (tally t).length p.ctDepth memIdCt
  .ok { writes := tableWrites 0 (buildTable t) ++ [(.alphaN, BitVec.ofNat 32 (tally t).length)], tail := 0, trunc := none }

/-- BUILD (R140): its completion step. -/
def execBuild (s : State) : Host.Outcome State Fault Refusal := s.complete (fBuild s.params s.inputs)

/-! ### SF_ENCODE -/

/-- `{ k | 0 <= k < n and SYM[k] = x }` (R156), over the given k in ascending order; every SYM[k] is read. -/
def Snapshot.matching (snap : Snapshot) (x : Word) : List Nat → Except Stop (List Nat)
  | [] => .ok []
  | k :: rest => do
    let sk ← snap.sym k
    let more ← snap.matching x rest
    .ok (if sk = x then k :: more else more)

/-- R156's loop from TXT index q on: each symbol's code in order; UNKNOWN_SYMBOL with info q when it has no entry. -/
def Snapshot.encodeFrom (snap : Snapshot) (n : Nat) (q : Nat) : List Word → Except Stop (List Word)
  | [] => .ok []
  | x :: rest => do
    let ks ← snap.matching x (List.range n)
    match ks with
    | [] => .error (.raised .unknownSymbol (BitVec.ofNat 32 q))
    | k :: _ => do
      let code ← snap.codeStr k
      let more ← snap.encodeFrom n (q + 1) rest
      .ok (code ++ more)

/-- `F_SF_ENCODE(snap)` (R156). -/
def fSfEncode (p : Params) (snap : Snapshot) : Except Stop Outputs := do
  let len := snap.regs.txtLen.toNat
  checkLength len p.txtDepth memIdTxt
  snap.tableOk p
  let t ← snap.seq .txt len
  let out ← snap.encodeFrom snap.regs.alphaN.toNat 0 t
  checkCapacity out.length p.bstrDepth memIdBstr
  .ok { writes := seqWrites .bstr 0 out ++ [(.bstrLen, BitVec.ofNat 32 out.length)], tail := 0, trunc := none }

/-- SF_ENCODE (R155): its completion step. -/
def execSfEncode (s : State) : Host.Outcome State Fault Refusal := s.complete (fSfEncode s.params s.inputs)

/-! ### SF_DECODE -/

/-- The first of the given k with `codeStr(k) = cand` (R166). Under TableOK there is at most one (R167). -/
def Snapshot.findCode (snap : Snapshot) (cand : List Word) : List Nat → Except Stop (Option Nat)
  | [] => .ok none
  | k :: rest => do
    let code ← snap.codeStr k
    if code = cand then .ok (some k) else snap.findCode cand rest

/-- R166's loop over the rest of the bitstring, with the candidate so far: the symbols emitted from here on, and the
length of the candidate at the end, which is `tail`. -/
def Snapshot.scanBits (snap : Snapshot) (n : Nat) (cand : List Word) : List Word → Except Stop (List Word × Nat)
  | [] => .ok ([], cand.length)
  | c :: rest => do
    let hit ← snap.findCode (cand ++ [c]) (List.range n)
    match hit with
    | some k => do
      let x ← snap.sym k
      let r ← snap.scanBits n [] rest
      .ok (x :: r.1, r.2)
    | none => snap.scanBits n (cand ++ [c]) rest

/-- `F_SF_DECODE(snap)` (R166). -/
def fSfDecode (p : Params) (snap : Snapshot) : Except Stop Outputs := do
  let len := snap.regs.bstrLen.toNat
  checkLength len p.bstrDepth memIdBstr
  snap.tableOk p
  let b ← snap.seq .bstr len
  let r ← snap.scanBits snap.regs.alphaN.toNat [] b
  checkCapacity r.1.length p.txtDepth memIdTxt
  .ok { writes := seqWrites .txt 0 r.1 ++ [(.txtLen, BitVec.ofNat 32 r.1.length)], tail := r.2, trunc := none }

/-- SF_DECODE (R165): its completion step. -/
def execSfDecode (s : State) : Host.Outcome State Fault Refusal := s.complete (fSfDecode s.params s.inputs)

end Sys2Proof.Machine
end

