-- ==== Sys2Proof/Machine/Pipeline.lean ====
section
/-! DEFINITION. The composite commands COMPRESS and DECOMPRESS, and illegal command words (spec/43_pipeline.md). -/

namespace Sys2Proof.Machine

/-! ### COMPRESS -/

/-- The code of a symbol in a table just built. Every symbol of the text has an entry (R221). -/
def codeIn (table : List TableEntry) (x : Word) : List Word :=
  match table with
  | [] => []
  | e :: rest => if e.sym = x then e.code else codeIn rest x

/-- The SF_ENCODE stage with the table just built (R221): the codes of `t`, concatenated. -/
def encodeWith (table : List TableEntry) (t : List Word) : List Word := t.flatMap (codeIn table)

/-- `F_COMPRESS(snap)` (R221). -/
def fCompress (p : Params) (snap : Snapshot) : Except Stop Outputs := do
  let n := snap.regs.txtLen.toNat
  checkLength n p.txtDepth memIdTxt
  raiseIf (decide (n = 0)) .emptyInput 0
  let t ← snap.seq .txt n
  checkCapacity (tally t).length p.ctDepth memIdCt
  let table := buildTable t
  let b := encodeWith table t
  checkCapacity b.length p.bstrDepth memIdBstr
  let tok := lzText b snap.regs.window.toNat
  checkCapacity tok.length p.tokDepth memIdTok
  .ok
    { writes :=
        tableWrites 0 table ++ [(.alphaN, BitVec.ofNat 32 (tally t).length)] ++
        (seqWrites .bstr 0 b ++ [(.bstrLen, BitVec.ofNat 32 b.length)]) ++
        (seqWrites .tok 0 tok ++ [(.tokLen, BitVec.ofNat 32 tok.length)])
      tail := 0
      trunc := none }

/-- COMPRESS (R220): its completion step. -/
def execCompress (s : State) : Host.Outcome State Fault Refusal := s.complete (fCompress s.params s.inputs)

/-! ### DECOMPRESS -/

/-- `F_DECOMPRESS(snap)` (R228). A truncation in the LZ stage does not stop the command. -/
def fDecompress (p : Params) (snap : Snapshot) : Except Stop Outputs := do
  let len := snap.regs.tokLen.toNat
  checkLength len p.tokDepth memIdTok
  snap.tableOk p
  let t ← snap.seq .tok len
  let d := lzDecode p.bstrDepth t
  checkCapacity d.1.length p.bstrDepth memIdBstr
  let r ← snap.scanBits snap.regs.alphaN.toNat [] d.1
  checkCapacity r.1.length p.txtDepth memIdTxt
  .ok
    { writes :=
        (seqWrites .bstr 0 d.1 ++ [(.bstrLen, BitVec.ofNat 32 d.1.length)]) ++
        (seqWrites .txt 0 r.1 ++ [(.txtLen, BitVec.ofNat 32 r.1.length)])
      tail := r.2
      trunc := d.2 }

/-- DECOMPRESS (R227): its completion step. -/
def execDecompress (s : State) : Host.Outcome State Fault Refusal := s.complete (fDecompress s.params s.inputs)

/-! ### Illegal command words -/

/-- `F_illegal(snap) = Fail(ILLEGAL_CMD, v)` (R233). "The command reads nothing and commits no output." -/
def fIllegal (v : Word) : Except Stop Outputs := .error (.raised .illegalCmd v)

/-- The completion step of an illegal command word (R233): the same engine step as every command's. -/
def execIllegal (v : Word) (s : State) : Host.Outcome State Fault Refusal := s.complete (fIllegal v)

end Sys2Proof.Machine
end

