-- ==== Sys2Proof/Machine/Dispatch.lean ====
section
/-! DEFINITION. One arm per command: the completion step of each (spec/40_host_interface.md R118). -/

namespace Sys2Proof.Machine

def exec (i : Instr) (s : State) : Host.Outcome State Fault Refusal :=
  match i with
  | .build => Sys2Proof.Machine.execBuild s
  | .sfEncode => Sys2Proof.Machine.execSfEncode s
  | .sfDecode => Sys2Proof.Machine.execSfDecode s
  | .lzEncode => Sys2Proof.Machine.execLzEncode s
  | .lzDecode => Sys2Proof.Machine.execLzDecode s
  | .compress => Sys2Proof.Machine.execCompress s
  | .decompress => Sys2Proof.Machine.execDecompress s

end Sys2Proof.Machine
end

