-- ==== Sys2Proof/Machine/Engine.lean ====
section
/-! DEFINITION. The engine's step and the taking of turns (spec/40_host_interface.md R118, R121; spec/20_memory.md R68). -/

namespace Sys2Proof.Machine

/-- The engine's turn. While Busy it has exactly one step, the completion of the command word in flight (R118), decoded
by R83 or illegal (R233). While Idle it has none, and all state is retained (spec/60_exceptions.md R256). -/
def State.engineStep (s : State) : Host.Outcome State Fault Refusal :=
  match s.phase with
  | .idle => .next s
  | .busy v _ =>
    match decode v with
    | .ok i => exec i s
    | .error _ => execIllegal v s

/-- One turn (R68). -/
def State.take (s : State) : Turn → Host.Outcome State Fault Refusal
  | .engine => s.engineStep
  | .bus t => s.busStep t
  | .hardReset => .next s.hardReset

/-- The next step of the total order: the first turn, or the engine's when no turn is listed, so that a command in
flight completes after finitely many transactions in every run (R121, R282; log entry 1). -/
def State.nextTurn (s : State) : Host.Outcome State Fault Refusal :=
  match s.turns with
  | [] => s.engineStep
  | t :: rest => { s with turns := rest }.take t

/-- The state in which the very next step completes the command word `v`: `v` accepted (R113), and the engine's turn
first. -/
def State.load (s : State) (v : Word) : State := { s.accept v with turns := .engine :: s.turns }

end Sys2Proof.Machine
end

