-- ==== Sys2Proof/Machine/Step.lean ====
section
/-! DEFINITION. One step of the machine, and a command word placed so that the next step runs it. -/

namespace Sys2Proof.Machine

/-- One step: the next turn of the total order of spec/20_memory.md R68. -/
def step (s : State) : Host.Outcome State Fault Refusal := s.nextTurn

/-- `s` with the command word `w` accepted and the engine's turn next. The block fetches nothing (R71): a command comes
to run because the host writes it to CMD, and this stands for that write (log entry 1). -/
def State.withFetchWord (s : State) (nbits w : Nat) : State := s.load (BitVec.ofNat 32 (w % 2 ^ nbits))

end Sys2Proof.Machine
end

