-- ==== Sys2Proof/Machine/HostProgram.lean ====
section
/-! DEFINITION. The host-program syntax (spec/30_encoding.md R93, R94): each statement as the bus transaction it is, each
pseudo-instruction as the transactions it expands to. -/

namespace Sys2Proof.Machine

/-- A statement of R93's table. -/
inductive HostStmt where
  /-- `WR REG, v` -/
  | wr (r : Reg) (v : Word)
  /-- `RD REG -> name` -/
  | rd (r : Reg)
  /-- `WRM M[k], v` and `WRM CT[k].F, v` -/
  | wrm (c : Cell) (v : Word)
  /-- `RDM M[k] -> name` -/
  | rdm (c : Cell)
  /-- `CMD MNEMONIC` -/
  | cmd (i : Instr)
  deriving DecidableEq, Repr

/-- The one bus transaction of a statement (R93): its encoding is the pair (byte address, data word). -/
def HostStmt.txn : HostStmt → BusTxn
  | .wr r v => .write r.offset 0xF v
  | .rd r => .read r.offset 0xF
  | .wrm c v => .write c.addr 0xF v
  | .rdm c => .read c.addr 0xF
  | .cmd i => .write Reg.cmd.offset 0xF (encode i)

/-- The memories `LOADS` and `READS` name, with their length registers (R94). -/
inductive TextMem where
  | txt
  | bstr
  | tok
  deriving DecidableEq, Repr

/-- Entry k of a text memory. -/
def TextMem.cell : TextMem → Nat → Cell
  | .txt => .txt
  | .bstr => .bstr
  | .tok => .tok

/-- M_LEN of a text memory. -/
def TextMem.len : TextMem → Reg
  | .txt => .txtLen
  | .bstr => .bstrLen
  | .tok => .tokLen

/-- `WRM M[k], c0` and so on, from entry k. -/
def storesFrom (m : TextMem) (k : Nat) : List Word → List HostStmt
  | [] => []
  | c :: rest => .wrm (m.cell k) c :: storesFrom m (k + 1) rest

/-- `LOADS M, "c0c1...c(n-1)"` (R94). -/
def loads (m : TextMem) (text : List Word) : List HostStmt :=
  storesFrom m 0 text ++ [.wr m.len (BitVec.ofNat 32 text.length)]

/-- `LOADCT k, sym, "code"` (R94). -/
def loadCt (k : Nat) (sym : Word) (code : List Word) : List HostStmt :=
  [.wrm (.ctSym k) sym, .wrm (.ctLen k) (BitVec.ofNat 32 code.length), .wrm (.ctBits k) (codeBitsOf code)]

/-- `READS M -> str` (R94), where the length read is `n`. -/
def reads (m : TextMem) (n : Nat) : List HostStmt :=
  .rd m.len :: (List.range n).map fun k => .rdm (m.cell k)

/-- A statement's turn. -/
def HostStmt.turn (st : HostStmt) : Turn := .bus st.txn

/-- `WAIT -> s` (R94) when the first `polls` reads of STATUS come before the engine's step and the next one after it. -/
def waitTurns (polls : Nat) : List Turn :=
  List.replicate polls (HostStmt.rd .status).turn ++ [.engine, (HostStmt.rd .status).turn]

/-- `RUN MNEMONIC -> s` (R94), with the same number of polls. -/
def runTurns (i : Instr) (polls : Nat) : List Turn := (HostStmt.cmd i).turn :: waitTurns polls

end Sys2Proof.Machine
end

