-- ==== Sys2Proof/Safety.lean ====
section
/-! DEFINITION. What counts as a good state and a safe command, in the terms the statements use. -/

namespace Sys2Proof.Machine

/-! ### The invariant of the block -/

/-- Every entry that holds a value lies below its memory's depth and holds only stored bits (R60, R65). -/
def Memories.Fits (p : Params) (m : Memories) : Prop :=
  ∀ c v, m.read c = some v → c.index < c.depth p ∧ storedBits p c v = v

/-- The completion record agrees with itself (R25, R26, R32, R33, R240, R241, R242, R250). -/
structure Regs.RecordOk (r : Regs) : Prop where
  /-- W_TAIL = (TAIL_BITS > 0) -/
  tail : r.status.wTail = true ↔ r.tailBits ≠ 0
  /-- W_TRUNC = 1 exactly when a cause is recorded -/
  trunc : r.status.wTrunc = true ↔ r.status.truncCause ≠ .noTrunc
  /-- TRUNC_POS is 0 without a truncation -/
  pos : r.status.wTrunc = false → r.truncPos = 0
  /-- an error sets no warning -/
  noWarning : r.status.err ≠ .ok → r.status.wTail = false ∧ r.status.wTrunc = false
  /-- ERR_INFO is 0 without an error -/
  info : r.status.err = .ok → r.errInfo = 0

/-- While a command is in flight: CMD holds its word, the completion record is clear (R111, R113), and the snapshot
equals the live inputs (R122). -/
structure State.InFlightOk (s : State) (v : Word) (snap : Snapshot) : Prop where
  cmd : s.regs.cmd = v
  done : s.regs.status.done = false
  wTail : s.regs.status.wTail = false
  wTrunc : s.regs.status.wTrunc = false
  err : s.regs.status.err = .ok
  truncCause : s.regs.status.truncCause = .noTrunc
  errInfo : s.regs.errInfo = 0
  tailBits : s.regs.tailBits = 0
  truncPos : s.regs.truncPos = 0
  mems : snap.mems = s.mems
  window : snap.regs.window = s.regs.window
  txtLen : snap.regs.txtLen = s.regs.txtLen
  bstrLen : snap.regs.bstrLen = s.regs.bstrLen
  tokLen : snap.regs.tokLen = s.regs.tokLen
  alphaN : snap.regs.alphaN = s.regs.alphaN

/-- The invariant every step keeps. -/
structure State.Inv (s : State) : Prop where
  params : s.params.wf = true
  canonical : s.mems.wf
  fits : s.mems.Fits s.params
  record : s.regs.RecordOk
  inFlight : ∀ v snap, s.phase = .busy v snap → s.InFlightOk v snap

/-! ### Inputs -/

/-- The first entries of the memory `mk` names hold the text `t`. -/
def Snapshot.Holds (snap : Snapshot) (mk : Nat → Cell) (t : List Word) : Prop :=
  ∀ k, k < t.length → snap.mems.read (mk k) = t[k]?

/-- The fields of CT[0..ALPHA_N) that the commands with a table read; FREQ is not among them (R40). -/
def TableReads (r : Regs) (c : Cell) : Prop :=
  ∃ k < r.alphaN.toNat, c = .ctSym k ∨ c = .ctLen k ∨ c = .ctBits k

/-- The memory words a command may read, by R84's table. -/
def CommandReads (r : Regs) : Instr → Cell → Prop
  | .build, c => ∃ k < r.txtLen.toNat, c = .txt k
  | .sfEncode, c => (∃ k < r.txtLen.toNat, c = .txt k) ∨ TableReads r c
  | .sfDecode, c => (∃ k < r.bstrLen.toNat, c = .bstr k) ∨ TableReads r c
  | .lzEncode, c => ∃ k < r.bstrLen.toNat, c = .bstr k
  | .lzDecode, c => ∃ k < r.tokLen.toNat, c = .tok k
  | .compress, c => ∃ k < r.txtLen.toNat, c = .txt k
  | .decompress, c => (∃ k < r.tokLen.toNat, c = .tok k) ∨ TableReads r c

/-- Some field of CT[0..ALPHA_N). -/
def TableWrites (r : Regs) (c : Cell) : Prop :=
  ∃ k < r.alphaN.toNat, c = .ctSym k ∨ c = .ctFreq k ∨ c = .ctLen k ∨ c = .ctBits k

/-- The memory words a command may write, by R84's table, where the registers hold the output lengths it commits. -/
def CommandWrites (r : Regs) : Instr → Cell → Prop
  | .build, c => TableWrites r c
  | .sfEncode, c => ∃ k < r.bstrLen.toNat, c = .bstr k
  | .sfDecode, c => ∃ k < r.txtLen.toNat, c = .txt k
  | .lzEncode, c => ∃ k < r.tokLen.toNat, c = .tok k
  | .lzDecode, c => ∃ k < r.bstrLen.toNat, c = .bstr k
  | .compress, c => TableWrites r c ∨ (∃ k < r.bstrLen.toNat, c = .bstr k) ∨ ∃ k < r.tokLen.toNat, c = .tok k
  | .decompress, c => (∃ k < r.bstrLen.toNat, c = .bstr k) ∨ ∃ k < r.txtLen.toNat, c = .txt k

/-- The output registers a command leaves alone, by R84's table: two register files agree on them. -/
def OutputRegsKept (r r' : Regs) : Instr → Prop
  | .build => r.txtLen = r'.txtLen ∧ r.bstrLen = r'.bstrLen ∧ r.tokLen = r'.tokLen
  | .sfEncode => r.txtLen = r'.txtLen ∧ r.tokLen = r'.tokLen ∧ r.alphaN = r'.alphaN
  | .sfDecode => r.bstrLen = r'.bstrLen ∧ r.tokLen = r'.tokLen ∧ r.alphaN = r'.alphaN
  | .lzEncode => r.txtLen = r'.txtLen ∧ r.bstrLen = r'.bstrLen ∧ r.alphaN = r'.alphaN
  | .lzDecode => r.txtLen = r'.txtLen ∧ r.tokLen = r'.tokLen ∧ r.alphaN = r'.alphaN
  | .compress => r.txtLen = r'.txtLen
  | .decompress => r.tokLen = r'.tokLen ∧ r.alphaN = r'.alphaN

/-- The registers a command may read, by R84's table: two register files agree on them. -/
def CommandRegsAlike (r r' : Regs) : Instr → Prop
  | .build => r.txtLen = r'.txtLen
  | .sfEncode => r.txtLen = r'.txtLen ∧ r.alphaN = r'.alphaN
  | .sfDecode => r.bstrLen = r'.bstrLen ∧ r.alphaN = r'.alphaN
  | .lzEncode => r.bstrLen = r'.bstrLen ∧ r.window = r'.window
  | .lzDecode => r.tokLen = r'.tokLen
  | .compress => r.txtLen = r'.txtLen ∧ r.window = r'.window
  | .decompress => r.tokLen = r'.tokLen ∧ r.alphaN = r'.alphaN

/-- Every memory word a command may read, and that exists, has been written since the hard reset. -/
def InputsWritten (p : Params) (snap : Snapshot) (i : Instr) : Prop :=
  ∀ c, CommandReads snap.regs i c → c.index < c.depth p → (snap.mems.read c).isSome

/-- One entry of the code table as the commands read it: SYM, CODE_LEN, CODE_BITS (R40). -/
structure TableRow where
  sym : Word
  len : Word
  bits : Word
  deriving DecidableEq, Repr

/-- The code string a row holds (R85). -/
def TableRow.code (r : TableRow) : List Word := codeString r.len.toNat r.bits

/-- The rows stand in the first entries of CT. -/
def Snapshot.HoldsRows (snap : Snapshot) (rows : List TableRow) : Prop :=
  ∀ k r, rows[k]? = some r →
    snap.mems.read (.ctSym k) = some r.sym ∧ snap.mems.read (.ctLen k) = some r.len ∧
    snap.mems.read (.ctBits k) = some r.bits

/-- The rows are the code table in use, CT[0..ALPHA_N) (R40). -/
structure Snapshot.HoldsTable (snap : Snapshot) (rows : List TableRow) : Prop where
  size : snap.regs.alphaN.toNat = rows.length
  entries : snap.HoldsRows rows

/-- What R152 asks of the entries: code lengths 1 to 32, no symbol twice, no code a prefix of another. -/
def RowsValid (rows : List TableRow) : Prop :=
  (∀ r ∈ rows, 1 ≤ r.len.toNat ∧ r.len.toNat ≤ 32) ∧
  rows.Pairwise fun a b => a.sym ≠ b.sym ∧ ¬ a.code <+: b.code ∧ ¬ b.code <+: a.code

/-- A table that R152 accepts, with between 1 and CT_DEPTH entries. -/
structure TableValid (p : Params) (rows : List TableRow) : Prop where
  nonempty : rows ≠ []
  fits : rows.length ≤ p.ctDepth
  valid : RowsValid rows

/-- The code table fails TableOK with `info` (R152): its size is 0 or above CT_DEPTH; or `rows` is the longest valid
part and the entry after it, `last`, breaks it. -/
def Snapshot.BadTable (p : Params) (snap : Snapshot) (info : Word) : Prop :=
  ((snap.regs.alphaN.toNat = 0 ∨ p.ctDepth < snap.regs.alphaN.toNat) ∧ info = 0xFFFFFFFF) ∨
  (snap.regs.alphaN.toNat ≤ p.ctDepth ∧ ∃ rows last, rows.length < snap.regs.alphaN.toNat ∧
    snap.HoldsRows (rows ++ [last]) ∧ RowsValid rows ∧ ¬ RowsValid (rows ++ [last]) ∧
    info = BitVec.ofNat 32 rows.length)

/-- The code of a symbol by the rows; empty when no row has the symbol. -/
def rowCode (rows : List TableRow) (x : Word) : List Word :=
  ((rows.find? fun r => r.sym = x).map TableRow.code).getD []

/-- The bitstring `b` is the codes of `rs`, entries of the table, followed by `tl`, no start of which is a code (R166,
R168). -/
structure BitParse (rows : List TableRow) (b : List Word) (rs : List TableRow) (tl : List Word) : Prop where
  entries : ∀ r ∈ rs, r ∈ rows
  text : b = rs.flatMap TableRow.code ++ tl
  tail : ∀ r ∈ rows, ¬ r.code <+: tl

/-- The code of the symbol `x` in a ranked alphabet: R148's code of its rank. -/
def codeOf (ranked : List (Word × Nat)) (x : Word) : List Word :=
  closedCode ((ranked.map Prod.fst).idxOf x) ranked.length

/-- R143's invariant: every Internal node's frequency is the sum of its two children's. -/
def Node.Conserved : Node → Prop
  | .leaf _ _ => True
  | .internal f l r => f = l.freq + r.freq ∧ l.Conserved ∧ r.Conserved

/-! ### Token text, read from the rules as relations -/

/-- The text of one token (R187) with the given digit strings and next character. -/
def tokenText (a b c : List Word) : List Word :=
  chLess :: (a ++ chComma :: (b ++ chComma :: (c ++ [chGreater])))

/-- An occurrence at p of the j characters at the cursor i, inside the window (R182). -/
structure MatchAt (s : List Word) (w i p j : Nat) : Prop where
  window : i - w ≤ p
  before : p + j ≤ i
  inside : i + j ≤ s.length
  equal : slice s p j = slice s i j

/-- The match the block records at cursor i (R183, R184): the longest, and of that length the last. -/
structure RecordedMatch (s : List Word) (w i off len : Nat) : Prop where
  positive : 1 ≤ len
  back : off ≤ i
  found : MatchAt s w i (i - off) len
  longest : ∀ p j, MatchAt s w i p j → j ≤ len
  last : ∀ p, MatchAt s w i p len → p ≤ i - off

/-- The token text from cursor i on (R185 to R187). -/
inductive EncodesFrom (s : List Word) (w : Nat) : (i : Nat) → (out : List Word) → Prop where
  | done {i} : s.length ≤ i → EncodesFrom s w i []
  | literal {i c out} : s[i]? = some c → (∀ p j, MatchAt s w i p j → j = 0) → EncodesFrom s w (i + 1) out →
      EncodesFrom s w i (tokenText (dec 0) (dec 0) [c] ++ out)
  | backReference {i off len out} : RecordedMatch s w i off len → EncodesFrom s w (i + len + 1) out →
      EncodesFrom s w i (tokenText (dec off) (dec len) s[i + len]?.toList ++ out)

/-- A well-formed token body (R199, R200) with its fields A, B and C. -/
structure TokenBody (body a b c : List Word) : Prop where
  split : body = a ++ chComma :: (b ++ chComma :: c)
  first : chComma ∉ a
  second : chComma ∉ b
  digitsA : digits a = true
  digitsB : digits b = true
  boundA : val a < 2 ^ 32
  boundB : val b < 2 ^ 32
  oneChar : c.length ≤ 1

/-- The characters `body` stand between the '<' at TOK index q and the first '>' after it (R198). -/
structure TokenAt (t : List Word) (q : Nat) (body : List Word) : Prop where
  opened : t[q]? = some chLess
  closed : (body ++ [chGreater]) <+: t.drop (q + 1)
  first : chGreater ∉ body

/-- Decoding of the token text t from index q on with the output `out` so far ends with the output `fin` and the
truncation record `tr` (R196 to R204). -/
inductive DecodesFrom (t : List Word) : (q : Nat) → (out fin : List Word) → (tr : Option (TruncCause × Nat)) → Prop where
  | done {q out} : t.length ≤ q → DecodesFrom t q out out none
  | raw {q out fin tr c} : t[q]? = some c → c ≠ chLess → DecodesFrom t (q + 1) (out ++ [c]) fin tr →
      DecodesFrom t q out fin tr
  | unterminated {q out} : t[q]? = some chLess → chGreater ∉ t.drop (q + 1) →
      DecodesFrom t q out out (some (.unterminated, q))
  | badField {q out body} : TokenAt t q body → (∀ a b c, ¬ TokenBody body a b c) →
      DecodesFrom t q out out (some (.badField, q))
  | badOffset {q out body a b c} : TokenAt t q body → TokenBody body a b c → 1 ≤ val b →
      (val a = 0 ∨ out.length < val a) → DecodesFrom t q out out (some (.badOffset, q))
  | token {q out fin tr body a b c copy} : TokenAt t q body → TokenBody body a b c →
      (1 ≤ val b → 1 ≤ val a ∧ val a ≤ out.length) → copy.length = val b →
      (∀ k, k < val b → copy[k]? = (out ++ copy)[out.length - val a + k]?) →
      DecodesFrom t (q + body.length + 2) (out ++ copy ++ c) fin tr → DecodesFrom t q out fin tr

/-! ### What a commit leaves alone -/

/-- What no commit changes (R119, R120): parameters, CTRL, CMD, WINDOW, OVR, ACC, and the model's own fields. -/
structure State.CommitFrame (s t : State) : Prop where
  params : t.params = s.params
  irqEn : t.regs.irqEn = s.regs.irqEn
  cmd : t.regs.cmd = s.regs.cmd
  window : t.regs.window = s.regs.window
  ovr : t.regs.status.ovr = s.regs.status.ovr
  acc : t.regs.status.acc = s.regs.status.acc
  turns : t.turns = s.turns
  returned : t.returned = s.returned
  draws : t.draws = s.draws

/-- The completion record of a success (R119) with `tail` trailing characters and the truncation record `trunc`. -/
structure State.Succeeded (t : State) (tail : Nat) (trunc : Option (TruncCause × Nat)) : Prop where
  phase : t.phase = .idle
  done : t.regs.status.done = true
  err : t.regs.status.err = .ok
  errInfo : t.regs.errInfo = 0
  wTail : t.regs.status.wTail = decide (tail > 0)
  tailBits : t.regs.tailBits = BitVec.ofNat 32 tail
  wTrunc : t.regs.status.wTrunc = trunc.isSome
  truncCause : t.regs.status.truncCause = (trunc.map Prod.fst).getD .noTrunc
  truncPos : t.regs.truncPos = BitVec.ofNat 32 ((trunc.map Prod.snd).getD 0)

/-- The completion record of a failure (R120). -/
structure State.Failed (t : State) (code : ErrCode) (info : Word) : Prop where
  phase : t.phase = .idle
  done : t.regs.status.done = true
  err : t.regs.status.err = code
  errInfo : t.regs.errInfo = info
  wTail : t.regs.status.wTail = false
  tailBits : t.regs.tailBits = 0
  wTrunc : t.regs.status.wTrunc = false
  truncCause : t.regs.status.truncCause = .noTrunc
  truncPos : t.regs.truncPos = 0

/-- Nothing but the completion record and the phase changed (R120): no memory entry and no output register. -/
structure State.NothingCommitted (s t : State) : Prop where
  frame : s.CommitFrame t
  mems : t.mems = s.mems
  txtLen : t.regs.txtLen = s.regs.txtLen
  bstrLen : t.regs.bstrLen = s.regs.bstrLen
  tokLen : t.regs.tokLen = s.regs.tokLen
  alphaN : t.regs.alphaN = s.regs.alphaN

/-- The command ends with the error `code` and `info`, and commits nothing (R120). -/
def State.FailsWith (s : State) (i : Instr) (code : ErrCode) (info : Word) : Prop :=
  ∃ t, exec i s = .next t ∧ t.Failed code info ∧ s.NothingCommitted t

/-- The command ends with no error but those listed. -/
def State.RaisesOnly (s : State) (i : Instr) (codes : List ErrCode) : Prop :=
  ∀ t, exec i s = .next t → t.regs.status.err = .ok ∨ t.regs.status.err ∈ codes

/-- A sequence was committed to the first entries of the memory `mk` names (R119; stored bits, R65), and `len` is the
length register's new value. -/
def State.Wrote (t : State) (mk : Nat → Cell) (xs : List Word) (len : Word) : Prop :=
  len = BitVec.ofNat 32 xs.length ∧
  ∀ k x, xs[k]? = some x → t.mems.read (mk k) = some (storedBits t.params (mk k) x)

/-- The code table of a ranked alphabet was committed to CT[0..n) and ALPHA_N (R149): all four fields, with R148's
codes. -/
def State.WroteTable (t : State) (ranked : List (Word × Nat)) : Prop :=
  t.regs.alphaN = BitVec.ofNat 32 ranked.length ∧
  ∀ k e, ranked[k]? = some e →
    t.mems.read (.ctSym k) = some (storedBits t.params (.ctSym k) e.1) ∧
    t.mems.read (.ctFreq k) = some (BitVec.ofNat 32 e.2) ∧
    t.mems.read (.ctLen k) = some (BitVec.ofNat 32 (closedCode k ranked.length).length) ∧
    t.mems.read (.ctBits k) = some (codeBitsOf (closedCode k ranked.length))

/-- Every memory word but those of the first `n` entries, of the memories `mks` name, reads as before. -/
def State.MemoryFrame (s t : State) (mks : List ((Nat → Cell) × Nat)) : Prop :=
  ∀ c, (∀ m ∈ mks, ∀ k < m.2, c ≠ m.1 k) → t.mems.read c = s.mems.read c

end Sys2Proof.Machine
end

