-- ==== Sys2Proof/Certificates/Slice0/Obligations.lean ====
section
/-! DEFINITION. The statements about the block. Each docstring names the rules of spec/ the statement formalises. A
statement about a command reads its inputs through `State.inputs`: the snapshot in flight, or with no command in flight
what an acceptance would capture (log entry 8). -/

open Sys2Proof Sys2Proof.Machine

/-! ### Encoding -/

/-- R83, the whole decoder: the seven command words of R81's table, and no other word: with RSVD = 0, OP 0 and 8 to 15 are
no command; and no word with RSVD ≠ 0 is one. -/
def Obligations.CommandWordsDecode : Prop :=
  decode 0x00000001 = .ok .build ∧ decode 0x00000002 = .ok .sfEncode ∧ decode 0x00000003 = .ok .sfDecode ∧
  decode 0x00000004 = .ok .lzEncode ∧ decode 0x00000005 = .ok .lzDecode ∧ decode 0x00000006 = .ok .compress ∧
  decode 0x00000007 = .ok .decompress ∧
  (∀ k : Word, k ∈ [0x0, 0x8, 0x9, 0xA, 0xB, 0xC, 0xD, 0xE, 0xF] → decode k = .error .illegalOp) ∧
  ∀ v : Word, 16 ≤ v.toNat → decode v = .error .reservedBits

/-- R81 to R83: over every 32-bit word, decoding and encoding agree both ways, and a word decodes exactly when its fields
make it legal. -/
def Obligations.DecodeAndEncodeAgree : Prop :=
  (∀ (v : Word) (i : Instr), decode v = .ok i ↔ v = encode i) ∧
  (∀ v : Word, (∃ i, decode v = .ok i) ↔ v.toNat / 16 = 0 ∧ 1 ≤ v.toNat % 16 ∧ v.toNat % 16 ≤ 7) ∧
  (∀ i : Instr, decodeTableWord 32 (encode i).toNat = some i)

/-- R233: an illegal word written to CMD of an Idle block is accepted, is seen as BUSY = 1, and its engine step ends with
STATUS.ERR = 1, BUSY = 0, DONE = 1 and ERR_INFO the whole word; whatever the memories and registers hold, nothing else is
committed. -/
def Obligations.IllegalWordEndsWithIllegalCmd : Prop :=
  ∀ (s : State) (v : Word) (rest : List Turn), s.phase = .idle → commandWordWf v = false →
    ∃ s1 t, step { s with turns := .bus (.write 0x000008 0xF v) :: .engine :: rest } = .next s1 ∧
      (s1.readReg .status)[0] = true ∧ step s1 = .next t ∧ t.Failed .illegalCmd v ∧
      (t.readReg .status).extractLsb' 8 4 = 1 ∧ (t.readReg .status)[0] = false ∧ (t.readReg .status)[1] = true ∧
      State.NothingCommitted { s1 with turns := rest } t ∧ t.mems = s.mems ∧ t.regs.cmd = v

/-! ### The engine's step -/

/-- R118: while Busy with the word v, the engine's step is `exec` of the instruction v decodes to, on the snapshot; with
an illegal v it is the failure of R233. The step is also taken when no turn is left. While Idle the engine changes nothing
(R256; that the turn is spent is the model's choice, log entry 1). -/
def Obligations.EngineStepRunsTheDecodedCommand : Prop :=
  ∀ (s : State) (rest : List Turn),
    (∀ v snap i, s.phase = .busy v snap → decode v = .ok i →
      step { s with turns := .engine :: rest } = exec i { s with turns := rest } ∧
      step { s with turns := [] } = exec i { s with turns := [] } ∧
      s.inputs = snap) ∧
    (∀ v snap r, s.phase = .busy v snap → decode v = .error r →
      step { s with turns := .engine :: rest } = .next (State.commitFail { s with turns := rest } .illegalCmd v)) ∧
    (s.phase = .idle → step { s with turns := .engine :: rest } = .next { s with turns := rest } ∧
      step { s with turns := [] } = .next { s with turns := [] })

/-- R71, R113, R118: a word placed by `withFetchWord` is what the very next step runs, as the write of the word to CMD of
an Idle block followed by the engine's step would (how a program comes to run is log entry 1). -/
def Obligations.LoadedWordRunsNext : Prop :=
  ∀ (s : State) (nbits w : Nat) (i : Instr), decodeTableWord nbits w = some i →
    step (s.withFetchWord nbits w) = exec i (s.accept (encode i)) ∧
    (s.phase = .idle →
      step { s with turns := .bus (.write 0x000008 0xF (encode i)) :: .engine :: s.turns } =
        .next (s.withFetchWord nbits w))

/-! ### BUILD -/

/-- R149: on a non-empty text that fits, with no more distinct symbols than CT has entries, BUILD writes the code table of
the ranked alphabet and ALPHA_N, and nothing else but the completion record. -/
def Obligations.BuildWritesTheCodeTable : Prop :=
  ∀ (s : State) (text : List Word), s.inputs.regs.txtLen.toNat = text.length → s.inputs.Holds .txt text →
    text ≠ [] → text.length ≤ s.params.txtDepth → text.dedup.length ≤ s.params.ctDepth →
    ∃ t, exec .build s = .next t ∧ t.Succeeded 0 none ∧ t.WroteTable (rank (tally text)) ∧
      t.regs.alphaN = BitVec.ofNat 32 text.dedup.length ∧ s.CommitFrame t ∧
      s.MemoryFrame t [(.ctSym, text.dedup.length), (.ctFreq, text.dedup.length), (.ctLen, text.dedup.length),
        (.ctBits, text.dedup.length)] ∧
      t.regs.txtLen = s.regs.txtLen ∧ t.regs.bstrLen = s.regs.bstrLen ∧ t.regs.tokLen = s.regs.tokLen

/-- R150: BUILD's errors in their order, no other, and the flags of its success. -/
def Obligations.BuildErrors : Prop :=
  ∀ s : State,
    (s.params.txtDepth < s.inputs.regs.txtLen.toNat → s.FailsWith .build .badLength 1) ∧
    (s.inputs.regs.txtLen.toNat = 0 → s.FailsWith .build .emptyInput 0) ∧
    (∀ text, s.inputs.regs.txtLen.toNat = text.length → s.inputs.Holds .txt text →
      text.length ≤ s.params.txtDepth → s.params.ctDepth < text.dedup.length → s.FailsWith .build .capacity 4) ∧
    s.RaisesOnly .build [.badLength, .emptyInput, .capacity] ∧
    (s.Inv → 2 ^ s.params.charW ≤ s.params.ctDepth → s.RaisesOnly .build [.badLength, .emptyInput]) ∧
    (∀ t, exec .build s = .next t → t.regs.status.err = .ok → t.Succeeded 0 none)

/-- R141: the frequency model holds the distinct symbols in order of first occurrence, each with its count, at most the
length of the text, and the counts sum to that length. -/
def Obligations.FrequencyModelCountsTheText : Prop :=
  ∀ text : List Word,
    ((tally text).map Prod.fst).Pairwise (fun a b => text.idxOf a < text.idxOf b) ∧
    (∀ x, x ∈ (tally text).map Prod.fst ↔ x ∈ text) ∧
    (∀ e ∈ tally text, e.2 = text.count e.1 ∧ e.2 ≤ text.length) ∧
    ((tally text).map Prod.snd).sum = text.length

/-- R142: the ranking rearranges the model so that frequencies descend and, of two equal ones, the symbol that occurs
first in the text comes first. -/
def Obligations.RankingIsStableDescending : Prop :=
  ∀ text : List Word,
    (rank (tally text)).Perm (tally text) ∧
    (rank (tally text)).Pairwise fun a b => b.2 < a.2 ∨ (a.2 = b.2 ∧ text.idxOf a.1 < text.idxOf b.1)

/-- R143, R144, R145: the tree of one symbol is its Leaf; a longer slice splits at floor(|L| / 2), the first half to the
left; every Internal frequency is the sum of its children's, so the root's is the sum over the slice; and the leaves, left
to right, are the slice. -/
def Obligations.TreeSplitsAtTheMidpoint : Prop :=
  (∀ e, tree e [] = .leaf e.1 e.2) ∧
  (∀ a as b bs, (a :: as).length = ((a :: as) ++ (b :: bs)).length / 2 →
    tree a (as ++ b :: bs) = .internal ((tree a as).freq + (tree b bs).freq) (tree a as) (tree b bs)) ∧
  (∀ e rest, (tree e rest).Conserved ∧ (tree e rest).freq = ((e :: rest).map Prod.snd).sum ∧
    ((tree e rest).leaves []).map (fun l => (l.sym, l.freq)) = e :: rest)

/-- R146, R147, R148: the codes of the tree's leaves are the closed form of the rank and the number of symbols, and so are
at most ceil(log2 n) bits long for n ≥ 2, and 1 bit for n = 1. -/
def Obligations.TreeCodesAreTheClosedForm : Prop :=
  (∀ text : List Word,
    buildTable text =
      (rank (tally text)).mapIdx fun k e => ⟨e.1, e.2, closedCode k (rank (tally text)).length⟩) ∧
  (∀ n k, 2 ≤ n → k < n → (closedCode k n).length ≤ Nat.clog 2 n) ∧
  closedCode 0 1 = [chZero]

/-- R153: every table BUILD commits passes `TableOK`: between 1 and CT_DEPTH entries, distinct symbols, code lengths 1 to 16,
no code a prefix of another; and its FREQ values sum to TXT_LEN (R151). -/
def Obligations.BuiltTablePassesTableOk : Prop :=
  ∀ s t : State, s.Inv → exec .build s = .next t → t.regs.status.err = .ok →
    t.inputs.tableOk t.params = .ok () ∧
    ∃ rows : List TableRow, t.inputs.HoldsTable rows ∧ TableValid t.params rows ∧
      (∀ r ∈ rows, 1 ≤ r.len.toNat ∧ r.len.toNat ≤ 16) ∧
      ∃ freqs : List Word, freqs.length = rows.length ∧
        (∀ k f, freqs[k]? = some f → t.mems.read (.ctFreq k) = some f) ∧
        (freqs.map BitVec.toNat).sum = s.inputs.regs.txtLen.toNat

/-! ### Codes and code tables -/

/-- R85: a code of 1 to 32 characters '0' and '1' is read back from CODE_LEN and CODE_BITS; its first character is bit
|c| - 1; the bits above it are 0; and the engine ignores them. -/
def Obligations.CodesReadBack : Prop :=
  (∀ c : List Word, (∀ x ∈ c, x = chZero ∨ x = chOne) → c.length ≤ 32 →
    codeString c.length (codeBitsOf c) = c ∧
    (codeBitsOf c).toNat = ∑ k ∈ Finset.range c.length, charBit (c.getD k 0) * 2 ^ (c.length - 1 - k) ∧
    (codeBitsOf c).toNat < 2 ^ c.length) ∧
  (∀ (l : Nat) (v w : Word), v.toNat % 2 ^ l = w.toNat % 2 ^ l → codeString l v = codeString l w)

/-- R152: a table that fails TableOK ends each of the three commands that check it with BAD_TABLE and R152's `info`; a
valid table never does; and a table of written entries is one or the other. -/
def Obligations.BadTablesAreReported : Prop :=
  ∀ s : State,
    (∀ info, s.inputs.BadTable s.params info →
      (s.inputs.regs.txtLen.toNat ≤ s.params.txtDepth → s.FailsWith .sfEncode .badTable info) ∧
      (s.inputs.regs.bstrLen.toNat ≤ s.params.bstrDepth → s.FailsWith .sfDecode .badTable info) ∧
      (s.inputs.regs.tokLen.toNat ≤ s.params.tokDepth → s.FailsWith .decompress .badTable info)) ∧
    (∀ rows, s.inputs.HoldsTable rows → TableValid s.params rows →
      s.RaisesOnly .sfEncode [.badLength, .unknownSymbol, .capacity] ∧
      s.RaisesOnly .sfDecode [.badLength, .capacity] ∧ s.RaisesOnly .decompress [.badLength, .capacity]) ∧
    (∀ rows, s.inputs.HoldsTable rows → ¬ TableValid s.params rows → ∃ info, s.inputs.BadTable s.params info)

/-! ### SF_ENCODE and SF_DECODE -/

/-- R156, R157: with a valid table that knows every symbol, SF_ENCODE writes the codes of the symbols one after another to
BSTR and their total length to BSTR_LEN, and nothing else but the completion record. -/
def Obligations.SfEncodeConcatenatesTheCodes : Prop :=
  ∀ (s : State) (rows : List TableRow) (text : List Word), s.inputs.HoldsTable rows → TableValid s.params rows →
    s.inputs.regs.txtLen.toNat = text.length → s.inputs.Holds .txt text → text.length ≤ s.params.txtDepth →
    (∀ x ∈ text, ∃ r ∈ rows, r.sym = x) → (text.flatMap (rowCode rows)).length ≤ s.params.bstrDepth →
    ∃ t, exec .sfEncode s = .next t ∧ t.Succeeded 0 none ∧
      t.Wrote .bstr (text.flatMap (rowCode rows)) t.regs.bstrLen ∧ s.CommitFrame t ∧
      s.MemoryFrame t [(.bstr, (text.flatMap (rowCode rows)).length)] ∧
      t.regs.txtLen = s.regs.txtLen ∧ t.regs.tokLen = s.regs.tokLen ∧ t.regs.alphaN = s.regs.alphaN

/-- R158: SF_ENCODE's errors in their order, and no other. An unknown symbol wins over CAPACITY. -/
def Obligations.SfEncodeErrors : Prop :=
  ∀ s : State,
    (s.params.txtDepth < s.inputs.regs.txtLen.toNat → s.FailsWith .sfEncode .badLength 1) ∧
    (∀ info, s.inputs.regs.txtLen.toNat ≤ s.params.txtDepth → s.inputs.BadTable s.params info →
      s.FailsWith .sfEncode .badTable info) ∧
    (∀ rows text q, s.inputs.HoldsTable rows → TableValid s.params rows →
      s.inputs.regs.txtLen.toNat = text.length → s.inputs.Holds .txt text → text.length ≤ s.params.txtDepth →
      q < text.length → (∀ r ∈ rows, text[q]? ≠ some r.sym) → (∀ p < q, ∃ r ∈ rows, text[p]? = some r.sym) →
      s.FailsWith .sfEncode .unknownSymbol (BitVec.ofNat 32 q)) ∧
    (∀ rows text, s.inputs.HoldsTable rows → TableValid s.params rows →
      s.inputs.regs.txtLen.toNat = text.length → s.inputs.Holds .txt text → text.length ≤ s.params.txtDepth →
      (∀ x ∈ text, ∃ r ∈ rows, r.sym = x) → s.params.bstrDepth < (text.flatMap (rowCode rows)).length →
      s.FailsWith .sfEncode .capacity 2) ∧
    s.RaisesOnly .sfEncode [.badLength, .badTable, .unknownSymbol, .capacity]

/-- R167, R168, R169: under a valid table every text in BSTR, whatever its characters, is in exactly one way a row of
codes followed by a tail no start of which is a code. -/
def Obligations.EveryBitstringParsesOneWay : Prop :=
  ∀ rows : List TableRow, RowsValid rows → ∀ b : List Word,
    ∃ rs tl, BitParse rows b rs tl ∧ ∀ rs' tl', BitParse rows b rs' tl' → rs' = rs ∧ tl' = tl

/-- R166, R168, R170: SF_DECODE writes the symbols of the codes of BSTR to TXT, their number to TXT_LEN, and the length of
the tail to TAIL_BITS, with W_TAIL when it is not 0; nothing else but the completion record. -/
def Obligations.SfDecodeEmitsTheParsedSymbols : Prop :=
  ∀ (s : State) (rows : List TableRow) (b : List Word) (rs : List TableRow) (tl : List Word),
    s.inputs.HoldsTable rows → TableValid s.params rows → s.inputs.regs.bstrLen.toNat = b.length →
    s.inputs.Holds .bstr b → b.length ≤ s.params.bstrDepth → BitParse rows b rs tl →
    rs.length ≤ s.params.txtDepth →
    ∃ t, exec .sfDecode s = .next t ∧ t.Succeeded tl.length none ∧
      t.Wrote .txt (rs.map TableRow.sym) t.regs.txtLen ∧ s.CommitFrame t ∧ s.MemoryFrame t [(.txt, rs.length)] ∧
      t.regs.bstrLen = s.regs.bstrLen ∧ t.regs.tokLen = s.regs.tokLen ∧ t.regs.alphaN = s.regs.alphaN

/-- R171: SF_DECODE's errors in their order, and no other; trailing bits are never an error. -/
def Obligations.SfDecodeErrors : Prop :=
  ∀ s : State,
    (s.params.bstrDepth < s.inputs.regs.bstrLen.toNat → s.FailsWith .sfDecode .badLength 2) ∧
    (∀ info, s.inputs.regs.bstrLen.toNat ≤ s.params.bstrDepth → s.inputs.BadTable s.params info →
      s.FailsWith .sfDecode .badTable info) ∧
    (∀ rows b rs tl, s.inputs.HoldsTable rows → TableValid s.params rows →
      s.inputs.regs.bstrLen.toNat = b.length → s.inputs.Holds .bstr b → b.length ≤ s.params.bstrDepth →
      BitParse rows b rs tl → s.params.txtDepth < rs.length → s.FailsWith .sfDecode .capacity 1) ∧
    s.RaisesOnly .sfDecode [.badLength, .badTable, .capacity]

/-- R172: decoding what SF_ENCODE produced, with the same table, gives back TXT, with TAIL_BITS = 0. -/
def Obligations.ShannonFanoRoundTrip : Prop :=
  ∀ s t : State, s.Inv → exec .sfEncode s = .next t → t.regs.status.err = .ok →
    ∃ u, exec .sfDecode (t.accept (encode .sfDecode)) = .next u ∧ u.Succeeded 0 none ∧
      u.regs.txtLen = s.inputs.regs.txtLen ∧
      ∀ k < s.inputs.regs.txtLen.toNat, u.mems.read (.txt k) = s.inputs.mems.read (.txt k)

/-! ### LZ_ENCODE and LZ_DECODE -/

/-- R12: `dec` gives digits whose value is the number, with no leading zero; a longer digit string may have them. -/
def Obligations.DecimalTextReadsBack : Prop :=
  ∀ v : Nat, digits (dec v) = true ∧ val (dec v) = v ∧ ((dec v).head? = some chZero → dec v = [chZero]) ∧
    ∀ f, digits f = true → val f = v → (dec v).length ≤ f.length ∧ val (chZero :: f) = v

/-- R181 to R187: the token text the model writes is the one the rules give: at each cursor the longest match in the
window, of that length the last, a literal when there is none, and the cursor moved on by L + 1. -/
def Obligations.TokenTextFollowsTheSearchRules : Prop :=
  ∀ (x : List Word) (w : Nat) (out : List Word), EncodesFrom x w 0 out ↔ out = lzText x w

/-- R188: off and L have at most 3 digits, and the token text is at most 7n + 1 characters; with W = 0 it is exactly 7n
(R190). -/
def Obligations.TokenTextLength : Prop :=
  ∀ x : List Word,
    (∀ w : BitVec 8, (lzText x w.toNat).length ≤ 7 * x.length + 1) ∧
    lzText x 0 = x.flatMap (fun c => tokenText [chZero] [chZero] [c])

/-- R181, R188: LZ_ENCODE writes the token text to TOK and its length to TOK_LEN, and nothing else but the completion
record. -/
def Obligations.LzEncodeWritesTheTokenText : Prop :=
  ∀ (s : State) (x out : List Word), s.inputs.regs.bstrLen.toNat = x.length → s.inputs.Holds .bstr x →
    x.length ≤ s.params.bstrDepth → EncodesFrom x s.inputs.regs.window.toNat 0 out →
    out.length ≤ s.params.tokDepth →
    ∃ t, exec .lzEncode s = .next t ∧ t.Succeeded 0 none ∧ t.Wrote .tok out t.regs.tokLen ∧ s.CommitFrame t ∧
      s.MemoryFrame t [(.tok, out.length)] ∧
      t.regs.txtLen = s.regs.txtLen ∧ t.regs.bstrLen = s.regs.bstrLen ∧ t.regs.alphaN = s.regs.alphaN

/-- R189: LZ_ENCODE's errors in their order, and no other; CAPACITY cannot happen under the default parameters; empty input
is no error. -/
def Obligations.LzEncodeErrors : Prop :=
  ∀ s : State,
    (s.params.bstrDepth < s.inputs.regs.bstrLen.toNat → s.FailsWith .lzEncode .badLength 2) ∧
    (∀ x out, s.inputs.regs.bstrLen.toNat = x.length → s.inputs.Holds .bstr x → x.length ≤ s.params.bstrDepth →
      EncodesFrom x s.inputs.regs.window.toNat 0 out → s.params.tokDepth < out.length →
      s.FailsWith .lzEncode .capacity 3) ∧
    s.RaisesOnly .lzEncode [.badLength, .capacity] ∧
    (s.params = Params.default → s.RaisesOnly .lzEncode [.badLength]) ∧
    (s.inputs.regs.bstrLen = 0 → ∃ t, exec .lzEncode s = .next t ∧ t.Succeeded 0 none ∧ t.regs.tokLen = 0)

/-- R196 to R204: every token text decodes by the rules in exactly one way; the model's decoder gives that output and
truncation record when the output fits its limit, and an output above the limit otherwise (R206; the early stop is log
entry 10). -/
def Obligations.TokenTextDecodesByTheRules : Prop :=
  ∀ t : List Word, ∃ fin tr, DecodesFrom t 0 [] fin tr ∧
    (∀ fin' tr', DecodesFrom t 0 [] fin' tr' → fin' = fin ∧ tr' = tr) ∧
    ∀ limit : Nat, (fin.length ≤ limit → lzDecode limit t = (fin, tr)) ∧
      (limit < fin.length → limit < (lzDecode limit t).1.length)

/-- R196, R204, R206: LZ_DECODE writes the decoded characters to BSTR and their number to BSTR_LEN, with the truncation
record, and nothing else but the completion record. -/
def Obligations.LzDecodeWritesTheDecodedText : Prop :=
  ∀ (s : State) (tok fin : List Word) (tr : Option (TruncCause × Nat)),
    s.inputs.regs.tokLen.toNat = tok.length → s.inputs.Holds .tok tok → tok.length ≤ s.params.tokDepth →
    DecodesFrom tok 0 [] fin tr → fin.length ≤ s.params.bstrDepth →
    ∃ t, exec .lzDecode s = .next t ∧ t.Succeeded 0 tr ∧ t.Wrote .bstr fin t.regs.bstrLen ∧ s.CommitFrame t ∧
      s.MemoryFrame t [(.bstr, fin.length)] ∧
      t.regs.txtLen = s.regs.txtLen ∧ t.regs.tokLen = s.regs.tokLen ∧ t.regs.alphaN = s.regs.alphaN

/-- R206: LZ_DECODE's errors in their order, and no other; a malformed stream is never an error, and CAPACITY is reported
even when the text also truncates. -/
def Obligations.LzDecodeErrors : Prop :=
  ∀ s : State,
    (s.params.tokDepth < s.inputs.regs.tokLen.toNat → s.FailsWith .lzDecode .badLength 3) ∧
    (∀ tok fin tr, s.inputs.regs.tokLen.toNat = tok.length → s.inputs.Holds .tok tok →
      tok.length ≤ s.params.tokDepth → DecodesFrom tok 0 [] fin tr → s.params.bstrDepth < fin.length →
      s.FailsWith .lzDecode .capacity 2) ∧
    s.RaisesOnly .lzDecode [.badLength, .capacity]

/-- R207: for every text in BSTR and every W for which LZ_ENCODE succeeds, LZ_DECODE of its token text gives the text back
with no truncation. -/
def Obligations.Lz77RoundTrip : Prop :=
  ∀ s t : State, s.Inv → exec .lzEncode s = .next t → t.regs.status.err = .ok →
    ∃ u, exec .lzDecode (t.accept (encode .lzDecode)) = .next u ∧ u.Succeeded 0 none ∧
      u.regs.bstrLen = s.inputs.regs.bstrLen ∧
      ∀ k < s.inputs.regs.bstrLen.toNat, u.mems.read (.bstr k) = s.inputs.mems.read (.bstr k)

/-! ### COMPRESS and DECOMPRESS -/

/-- R221, R222: COMPRESS writes the code table of the text, the bitstring of the text by that table, and the token text of
the bitstring, each with its length, and nothing else but the completion record. -/
def Obligations.CompressWritesItsThreeOutputs : Prop :=
  ∀ (s : State) (text b tok : List Word), s.inputs.regs.txtLen.toNat = text.length → s.inputs.Holds .txt text →
    text ≠ [] → text.length ≤ s.params.txtDepth → text.dedup.length ≤ s.params.ctDepth →
    b = text.flatMap (codeOf (rank (tally text))) → b.length ≤ s.params.bstrDepth →
    EncodesFrom b s.inputs.regs.window.toNat 0 tok → tok.length ≤ s.params.tokDepth →
    ∃ t, exec .compress s = .next t ∧ t.Succeeded 0 none ∧ t.WroteTable (rank (tally text)) ∧
      t.regs.alphaN = BitVec.ofNat 32 text.dedup.length ∧ t.Wrote .bstr b t.regs.bstrLen ∧
      t.Wrote .tok tok t.regs.tokLen ∧ s.CommitFrame t ∧
      s.MemoryFrame t [(.ctSym, text.dedup.length), (.ctFreq, text.dedup.length), (.ctLen, text.dedup.length),
        (.ctBits, text.dedup.length), (.bstr, b.length), (.tok, tok.length)] ∧
      t.regs.txtLen = s.regs.txtLen

/-- R223: COMPRESS's errors in their order, and no other; nothing of an earlier stage is committed; under the default
parameters only the first two can occur. -/
def Obligations.CompressErrors : Prop :=
  ∀ s : State,
    (s.params.txtDepth < s.inputs.regs.txtLen.toNat → s.FailsWith .compress .badLength 1) ∧
    (s.inputs.regs.txtLen.toNat = 0 → s.FailsWith .compress .emptyInput 0) ∧
    (∀ text b tok, s.inputs.regs.txtLen.toNat = text.length → s.inputs.Holds .txt text →
      text.length ≤ s.params.txtDepth → b = text.flatMap (codeOf (rank (tally text))) →
      EncodesFrom b s.inputs.regs.window.toNat 0 tok →
      (s.params.ctDepth < text.dedup.length → s.FailsWith .compress .capacity 4) ∧
      (text ≠ [] → text.dedup.length ≤ s.params.ctDepth → s.params.bstrDepth < b.length →
        s.FailsWith .compress .capacity 2) ∧
      (text ≠ [] → text.dedup.length ≤ s.params.ctDepth → b.length ≤ s.params.bstrDepth →
        s.params.tokDepth < tok.length → s.FailsWith .compress .capacity 3)) ∧
    s.RaisesOnly .compress [.badLength, .emptyInput, .capacity] ∧
    (s.Inv → s.params = Params.default → s.RaisesOnly .compress [.badLength, .emptyInput])

/-- R225: where COMPRESS succeeds, BUILD, then SF_ENCODE, then LZ_ENCODE, each a command of its own on the state the one
before left, succeed and leave the same memories and the same length registers. -/
def Obligations.CompressEqualsItsStages : Prop :=
  ∀ s t : State, s.Inv → exec .compress s = .next t → t.regs.status.err = .ok →
    ∃ t1 t2 t3, exec .build s = .next t1 ∧ t1.Succeeded 0 none ∧
      exec .sfEncode (t1.accept (encode .sfEncode)) = .next t2 ∧ t2.Succeeded 0 none ∧
      exec .lzEncode (t2.accept (encode .lzEncode)) = .next t3 ∧ t3.Succeeded 0 none ∧
      t3.mems = t.mems ∧ t3.regs.txtLen = t.regs.txtLen ∧ t3.regs.bstrLen = t.regs.bstrLen ∧
      t3.regs.tokLen = t.regs.tokLen ∧ t3.regs.alphaN = t.regs.alphaN ∧ t3.regs.window = t.regs.window

/-- R228, R229: DECOMPRESS writes the decoded token text to BSTR and the symbols of its codes to TXT, each with its length,
and reports both warnings; nothing else but the completion record. A truncated stream is decoded as far as it goes. -/
def Obligations.DecompressWritesBitstringAndText : Prop :=
  ∀ (s : State) (rows : List TableRow) (tok b : List Word) (tr : Option (TruncCause × Nat)) (rs : List TableRow)
    (tl : List Word),
    s.inputs.HoldsTable rows → TableValid s.params rows → s.inputs.regs.tokLen.toNat = tok.length →
    s.inputs.Holds .tok tok → tok.length ≤ s.params.tokDepth → DecodesFrom tok 0 [] b tr →
    b.length ≤ s.params.bstrDepth → BitParse rows b rs tl → rs.length ≤ s.params.txtDepth →
    ∃ t, exec .decompress s = .next t ∧ t.Succeeded tl.length tr ∧ t.Wrote .bstr b t.regs.bstrLen ∧
      t.Wrote .txt (rs.map TableRow.sym) t.regs.txtLen ∧ s.CommitFrame t ∧
      s.MemoryFrame t [(.bstr, b.length), (.txt, rs.length)] ∧
      t.regs.tokLen = s.regs.tokLen ∧ t.regs.alphaN = s.regs.alphaN

/-- R230: DECOMPRESS's errors in their order, and no other; nothing is committed on an error; a malformed token stream and
trailing bits are never one. -/
def Obligations.DecompressErrors : Prop :=
  ∀ s : State,
    (s.params.tokDepth < s.inputs.regs.tokLen.toNat → s.FailsWith .decompress .badLength 3) ∧
    (∀ info, s.inputs.regs.tokLen.toNat ≤ s.params.tokDepth → s.inputs.BadTable s.params info →
      s.FailsWith .decompress .badTable info) ∧
    (∀ rows tok b tr rs tl, s.inputs.HoldsTable rows → TableValid s.params rows →
      s.inputs.regs.tokLen.toNat = tok.length → s.inputs.Holds .tok tok → tok.length ≤ s.params.tokDepth →
      DecodesFrom tok 0 [] b tr → BitParse rows b rs tl →
      (s.params.bstrDepth < b.length → s.FailsWith .decompress .capacity 2) ∧
      (b.length ≤ s.params.bstrDepth → s.params.txtDepth < rs.length → s.FailsWith .decompress .capacity 1)) ∧
    s.RaisesOnly .decompress [.badLength, .badTable, .capacity]

/-- R234: after a COMPRESS that succeeds, a DECOMPRESS accepted with the same token text and code table, whatever else has
changed, succeeds with the text COMPRESS read, TAIL_BITS = 0 and W_TRUNC = 0. -/
def Obligations.CompressDecompressRoundTrip : Prop :=
  ∀ s t u : State, s.Inv → exec .compress s = .next t → t.regs.status.err = .ok →
    u.params = t.params → u.inputs.regs.tokLen = t.regs.tokLen → u.inputs.regs.alphaN = t.regs.alphaN →
    (∀ c, CommandReads t.regs .decompress c → u.inputs.mems.read c = t.mems.read c) →
    ∃ v, exec .decompress u = .next v ∧ v.Succeeded 0 none ∧ v.regs.txtLen = s.inputs.regs.txtLen ∧
      ∀ k < s.inputs.regs.txtLen.toNat, v.mems.read (.txt k) = s.inputs.mems.read (.txt k)

/-! ### Every command -/

/-- R123, R271: a command whose inputs have all been written completes, with one of the two commits. -/
def Obligations.CommandsCompleteOnWrittenInputs : Prop :=
  ∀ (i : Instr) (s : State), InputsWritten s.params s.inputs i →
    ∃ t, exec i s = .next t ∧
      ((∃ tail trunc, t.Succeeded tail trunc) ∨ ∃ code info, code ≠ .ok ∧ s.FailsWith i code info)

/-- R271: a command that reads an entry nothing has written stops with a fault that names such an entry of its input
range. -/
def Obligations.UnwrittenInputsFault : Prop :=
  ∀ s : State,
    (∀ k, s.inputs.regs.txtLen.toNat ≤ s.params.txtDepth → k < s.inputs.regs.txtLen.toNat →
      s.inputs.mems.read (.txt k) = none →
      ∃ j < s.inputs.regs.txtLen.toNat, s.inputs.mems.read (.txt j) = none ∧
        exec .build s = .fault (.unwrittenRead (.txt j)) ∧ exec .compress s = .fault (.unwrittenRead (.txt j)) ∧
        ∀ rows, s.inputs.HoldsTable rows → TableValid s.params rows →
          exec .sfEncode s = .fault (.unwrittenRead (.txt j))) ∧
    (∀ k, s.inputs.regs.bstrLen.toNat ≤ s.params.bstrDepth → k < s.inputs.regs.bstrLen.toNat →
      s.inputs.mems.read (.bstr k) = none →
      ∃ j < s.inputs.regs.bstrLen.toNat, s.inputs.mems.read (.bstr j) = none ∧
        exec .lzEncode s = .fault (.unwrittenRead (.bstr j)) ∧
        ∀ rows, s.inputs.HoldsTable rows → TableValid s.params rows →
          exec .sfDecode s = .fault (.unwrittenRead (.bstr j))) ∧
    (∀ k, s.inputs.regs.tokLen.toNat ≤ s.params.tokDepth → k < s.inputs.regs.tokLen.toNat →
      s.inputs.mems.read (.tok k) = none →
      ∃ j < s.inputs.regs.tokLen.toNat, s.inputs.mems.read (.tok j) = none ∧
        exec .lzDecode s = .fault (.unwrittenRead (.tok j)) ∧
        ∀ rows, s.inputs.HoldsTable rows → TableValid s.params rows →
          exec .decompress s = .fault (.unwrittenRead (.tok j))) ∧
    ∀ i c, exec i s = .fault (.unwrittenRead c) → CommandReads s.inputs.regs i c ∧ s.inputs.mems.read c = none

/-- R84, R123: what a command does depends on nothing but the registers and memory entries R84 lists as read: two snapshots
that agree on them give the same outcome. FREQ is not among them. -/
def Obligations.CommandsReadOnlyTheirOperands : Prop :=
  ∀ (i : Instr) (s : State) (v v' : Word) (snap snap' : Snapshot),
    CommandRegsAlike snap.regs snap'.regs i →
    (∀ c, CommandReads snap.regs i c → snap.mems.read c = snap'.mems.read c) →
    exec i { s with phase := .busy v snap } = exec i { s with phase := .busy v' snap' }

/-- R84, R119, R283: a command writes nothing but the memory entries and registers R84 lists, and no entry at or beyond the
output length it commits; it changes no input memory. -/
def Obligations.CommandsWriteOnlyTheirOutputs : Prop :=
  ∀ (i : Instr) (s t : State), s.params.wf = true → exec i s = .next t →
    s.CommitFrame t ∧ OutputRegsKept s.regs t.regs i ∧
    (∀ c, ¬ CommandWrites t.regs i c → t.mems.read c = s.mems.read c) ∧
    ∀ c, CommandReads s.inputs.regs i c → t.mems.read c = s.mems.read c

/-- R120, R250: every commit sets DONE and makes the block Idle; a commit with an error changes no memory entry and no
output register, sets no warning, and leaves CMD; a commit without one has ERR_INFO 0. -/
def Obligations.FailingCommandCommitsNothing : Prop :=
  ∀ (i : Instr) (s t : State), exec i s = .next t →
    t.phase = .idle ∧ t.regs.status.done = true ∧
    (t.regs.status.err ≠ .ok → t.Failed t.regs.status.err t.regs.errInfo ∧ s.NothingCommitted t) ∧
    (t.regs.status.err = .ok → t.regs.errInfo = 0)

/-- R122, R277, R278: host transactions that fall between acceptance and completion, other than a soft reset, change no
memory entry, no input, no output register and not the phase, never stop the block, and leave the command's result what it
is without them: only IRQ_EN, OVR and ACC can differ. -/
def Obligations.HostTrafficDoesNotDisturbACommand : Prop :=
  ∀ (s t0 : State) (v : Word) (snap : Snapshot) (i : Instr) (txns : List BusTxn) (rest : List Turn),
    s.phase = .busy v snap → decode v = .ok i → s.turns = txns.map Turn.bus ++ .engine :: rest →
    (∀ w : Word, w[1] = true → BusTxn.write 0x000004 0xF w ∉ txns) →
    exec i { s with turns := rest } = .next t0 →
    (∀ n ≤ txns.length, ∃ u, Sys2Proof.core.run n s = .next u ∧ u.phase = s.phase ∧ u.mems = s.mems ∧
      u.regs.cmd = s.regs.cmd ∧ u.regs.window = s.regs.window ∧ u.regs.txtLen = s.regs.txtLen ∧
      u.regs.bstrLen = s.regs.bstrLen ∧ u.regs.tokLen = s.regs.tokLen ∧ u.regs.alphaN = s.regs.alphaN) ∧
    ∃ t, Sys2Proof.core.run (txns.length + 1) s = .next t ∧ t.mems = t0.mems ∧ t.phase = .idle ∧
      t.turns = rest ∧ t.params = t0.params ∧
      t.regs = { t0.regs with
        irqEn := t.regs.irqEn
        status := { t0.regs.status with ovr := t.regs.status.ovr, acc := t.regs.status.acc } }

/-! ### Host transactions: commands and registers -/

/-- R113: a write of any word to CMD of an Idle block accepts it. -/
def Obligations.CmdWriteWhileIdleIsAccepted : Prop :=
  ∀ (s : State) (v : Word), s.phase = .idle →
    ∃ t, s.busStep (.write 0x000008 0xF v) = .next t ∧
      t.phase = .busy v ⟨t.regs, t.mems⟩ ∧ (t.readReg .status)[0] = true ∧ t.regs.cmd = v ∧
      t.regs.status = { s.regs.status with
        done := false, wTail := false, wTrunc := false, err := .ok, truncCause := .noTrunc } ∧
      t.regs.errInfo = 0 ∧ t.regs.tailBits = 0 ∧ t.regs.truncPos = 0 ∧
      t.regs.irqEn = s.regs.irqEn ∧ t.regs.window = s.regs.window ∧ t.regs.txtLen = s.regs.txtLen ∧
      t.regs.bstrLen = s.regs.bstrLen ∧ t.regs.tokLen = s.regs.tokLen ∧ t.regs.alphaN = s.regs.alphaN ∧
      t.mems = s.mems ∧ t.params = s.params

/-- R114, R115: while Busy, a write of CMD only sets OVR, and a write of WINDOW, a length register or ALPHA_N only sets
ACC. In either phase a write of a read-only or reserved register does nothing. -/
def Obligations.RegisterWritesWhileBusyAreDropped : Prop :=
  ∀ (s : State) (v : Word),
    (s.busy = true → s.busStep (.write 0x000008 0xF v) =
      .next { s with regs := { s.regs with status := { s.regs.status with ovr := true } } }) ∧
    (s.busy = true → ∀ a ∈ [0x000014, 0x000018, 0x00001C, 0x000020, 0x000024], s.busStep (.write a 0xF v) =
      .next { s with regs := { s.regs with status := { s.regs.status with acc := true } } }) ∧
    (∀ a ∈ [0x000000, 0x000010, 0x000028, 0x00002C, 0x000030, 0x000034, 0x000038, 0x00003C, 0x000040],
      s.busStep (.write a 0xF v) = .next s) ∧
    (∀ a : Addr, 0x44 ≤ a.toNat → a.toNat < 0x10000 → s.busStep (.write a 0xF v) = .next s)

/-- R112: while Idle, a write of WINDOW stores its low 8 bits, and a write of a length register or ALPHA_N stores all 32;
nothing else changes, and the register reads back what it stored. -/
def Obligations.RegisterWritesWhileIdleAreStored : Prop :=
  ∀ (s : State) (v : Word), s.phase = .idle →
    s.busStep (.write 0x000014 0xF v) = .next { s with regs := { s.regs with window := v.extractLsb' 0 8 } } ∧
    s.busStep (.write 0x000018 0xF v) = .next { s with regs := { s.regs with txtLen := v } } ∧
    s.busStep (.write 0x00001C 0xF v) = .next { s with regs := { s.regs with bstrLen := v } } ∧
    s.busStep (.write 0x000020 0xF v) = .next { s with regs := { s.regs with tokLen := v } } ∧
    s.busStep (.write 0x000024 0xF v) = .next { s with regs := { s.regs with alphaN := v } } ∧
    (∀ t, s.busStep (.write 0x000014 0xF v) = .next t → t.busStep (.read 0x000014 0xF) = .next (t.answer (v &&& 0xFF))) ∧
    (∀ t, s.busStep (.write 0x000018 0xF v) = .next t → t.busStep (.read 0x000018 0xF) = .next (t.answer v))

/-- R116: a write of STATUS, in either phase, clears DONE, OVR and ACC where the word has a 1 in bit 1, 4 or 5, and changes
no other field; clearing DONE lowers IRQ; and while Busy DONE is already 0, in every state that meets the invariant. -/
def Obligations.StatusWriteClearsOnlyW1cBits : Prop :=
  ∀ (s : State) (v : Word), ∃ t, s.busStep (.write 0x00000C 0xF v) = .next t ∧
    t = { s with regs := { s.regs with status := { s.regs.status with
      done := s.regs.status.done && !v[1]
      ovr := s.regs.status.ovr && !v[4]
      acc := s.regs.status.acc && !v[5] } } } ∧
    t.readReg .status = s.readReg .status &&& ~~~(v &&& 0x32) ∧ (v[1] = true → t.irq = false) ∧
    (s.Inv → s.busy = true → (s.readReg .status)[1] = false)

/-- R111, R22, R34: a read of a register, in either phase, returns its value and changes nothing else; ID reads the
constant and the capability registers read the parameters, which no step changes; while Busy the completion record reads
0 and BUSY reads 1, in every state that meets the invariant. -/
def Obligations.RegisterReadsReturnTheRegister : Prop :=
  ∀ s : State,
    (∀ r : Reg, s.busStep (.read r.offset 0xF) = .next { s with returned := s.readReg r :: s.returned }) ∧
    (s.readReg .id = 0x53464C5A ∧ (s.readReg .ctrl = if s.regs.irqEn then 1 else 0) ∧
      s.readReg .window = BitVec.ofNat 32 s.regs.window.toNat ∧ s.readReg .cmd = s.regs.cmd ∧
      s.readReg .errInfo = s.regs.errInfo ∧ s.readReg .txtLen = s.regs.txtLen ∧ s.readReg .bstrLen = s.regs.bstrLen ∧
      s.readReg .tokLen = s.regs.tokLen ∧ s.readReg .alphaN = s.regs.alphaN ∧ s.readReg .tailBits = s.regs.tailBits ∧
      s.readReg .truncPos = s.regs.truncPos) ∧
    (s.readReg .capTxtDepth = BitVec.ofNat 32 s.params.txtDepth ∧
      s.readReg .capBstrDepth = BitVec.ofNat 32 s.params.bstrDepth ∧
      s.readReg .capTokDepth = BitVec.ofNat 32 s.params.tokDepth ∧
      s.readReg .capCtDepth = BitVec.ofNat 32 s.params.ctDepth ∧
      s.readReg .capCharW = BitVec.ofNat 32 s.params.charW ∧ ∀ t, step s = .next t → t.params = s.params) ∧
    (∀ v snap, s.Inv → s.phase = .busy v snap →
      s.readReg .status &&& 0xFFFFFFCF = 1 ∧ s.readReg .errInfo = 0 ∧ s.readReg .tailBits = 0 ∧
      s.readReg .truncPos = 0 ∧ s.readReg .txtLen = snap.regs.txtLen ∧ s.readReg .bstrLen = snap.regs.bstrLen ∧
      s.readReg .tokLen = snap.regs.tokLen ∧ s.readReg .alphaN = snap.regs.alphaN)

/-- R25, R41, R240, R242: the places of the fields in the STATUS word, with the numbers of the error codes and truncation
causes; the reserved bits read 0. -/
def Obligations.StatusWordLayout : Prop :=
  (∀ s : State,
    (s.readReg .status)[0] = s.busy ∧ (s.readReg .status)[1] = s.regs.status.done ∧
    (s.readReg .status)[2] = s.regs.status.wTail ∧ (s.readReg .status)[3] = s.regs.status.wTrunc ∧
    (s.readReg .status)[4] = s.regs.status.ovr ∧ (s.readReg .status)[5] = s.regs.status.acc ∧
    (s.readReg .status).extractLsb' 6 2 = 0 ∧ (s.readReg .status).extractLsb' 8 4 = s.regs.status.err.code ∧
    (s.readReg .status).extractLsb' 12 4 = s.regs.status.truncCause.code ∧
    (s.readReg .status).extractLsb' 16 16 = 0) ∧
  [ErrCode.ok, .illegalCmd, .emptyInput, .unknownSymbol, .badTable, .capacity, .badLength].map ErrCode.code =
    [0, 1, 2, 3, 4, 5, 6] ∧
  [TruncCause.noTrunc, .unterminated, .badField, .badOffset].map TruncCause.code = [0, 1, 2, 3]

/-! ### Host transactions: memory -/

/-- R21, R60, R64: each register and each memory word has its address, and no aligned address of a memory word names
another. -/
def Obligations.AddressMap : Prop :=
  ∀ p : Params, p.wf = true →
    (∀ k < p.txtDepth, targetOf p (BitVec.ofNat 24 (0x100000 + 4 * k)) = .cell (.txt k)) ∧
    (∀ k < p.bstrDepth, targetOf p (BitVec.ofNat 24 (0x200000 + 4 * k)) = .cell (.bstr k)) ∧
    (∀ k < p.tokDepth, targetOf p (BitVec.ofNat 24 (0x300000 + 4 * k)) = .cell (.tok k)) ∧
    (∀ k < p.ctDepth, targetOf p (BitVec.ofNat 24 (0x400000 + 16 * k)) = .cell (.ctSym k) ∧
      targetOf p (BitVec.ofNat 24 (0x400000 + 16 * k + 4)) = .cell (.ctFreq k) ∧
      targetOf p (BitVec.ofNat 24 (0x400000 + 16 * k + 8)) = .cell (.ctLen k) ∧
      targetOf p (BitVec.ofNat 24 (0x400000 + 16 * k + 12)) = .cell (.ctBits k)) ∧
    (∀ (a b : Addr) (c : Cell), a.toNat % 4 = 0 → b.toNat % 4 = 0 → targetOf p a = .cell c → targetOf p b = .cell c →
      a = b) ∧
    (∀ (a : Addr) (r : Reg), targetOf p a = .reg r ↔ a = r.offset)

/-- R61, R63: an access that is misaligned or does not enable all lanes, and one to an address that no region holds, reads
0, writes nothing and sets no flag, in either phase (while Busy too: log entry 9). -/
def Obligations.StrayAccessesHaveNoEffect : Prop :=
  ∀ (s : State) (a : Addr) (lanes : BitVec 4) (v : Word), s.params.wf = true →
    (a.toNat % 4 ≠ 0 ∨ lanes ≠ 0xF ∨
      (0x44 ≤ a.toNat ∧ a.toNat < 0x100000) ∨
      (0x100000 + 4 * s.params.txtDepth ≤ a.toNat ∧ a.toNat < 0x200000) ∨
      (0x200000 + 4 * s.params.bstrDepth ≤ a.toNat ∧ a.toNat < 0x300000) ∨
      (0x300000 + 4 * s.params.tokDepth ≤ a.toNat ∧ a.toNat < 0x400000) ∨
      0x400000 + 16 * s.params.ctDepth ≤ a.toNat) →
    s.busStep (.read a lanes) = .next { s with returned := 0 :: s.returned } ∧
    s.busStep (.write a lanes v) = .next s

/-- R65, R125: while Idle, a write of a memory word keeps its stored bits and changes nothing else; a read of a written
word returns it with no side effect; and a read of a word nothing has written faults (R271). In every state that meets the
invariant a word a command reads is within its stored bits. -/
def Obligations.MemoryAccessWhileIdle : Prop :=
  (∀ (s : State) (c : Cell) (v : Word), s.params.wf = true → s.phase = .idle → c.index < c.depth s.params →
    ∃ t, s.busStep (.write c.addr 0xF v) = .next t ∧ t = { s with mems := t.mems } ∧
      t.mems.read c = some (storedBits s.params c v) ∧ (∀ d, d ≠ c → t.mems.read d = s.mems.read d) ∧
      t.busStep (.read c.addr 0xF) = .next { t with returned := storedBits s.params c v :: t.returned } ∧
      (∀ w, s.mems.read c = some w → s.busStep (.read c.addr 0xF) = .next { s with returned := w :: s.returned }) ∧
      (s.mems.read c = none → s.busStep (.read c.addr 0xF) = .fault (.unwrittenRead c))) ∧
  (∀ (p : Params) (k : Nat) (v : Word),
    (∀ c ∈ [Cell.txt k, .bstr k, .tok k, .ctSym k], (storedBits p c v).toNat = v.toNat % 2 ^ p.charW) ∧
    (storedBits p (.ctLen k) v).toNat = v.toNat % 64 ∧ storedBits p (.ctFreq k) v = v ∧ storedBits p (.ctBits k) v = v) ∧
  ∀ (s : State) (c : Cell) (w : Word), s.Inv → s.inputs.mems.read c = some w →
    c.index < c.depth s.params ∧ w.toNat < 2 ^ c.width s.params

/-- R74: while Busy, a write of a memory word only sets ACC; a read sets ACC, returns one word to the host and changes
nothing else the block has. That the word, and the count of draws after it, are the same whatever the memories hold is
the model's choice, not R74's ("a free draw under no law"): the free value is a function of `draws` alone (log entry 4,
DEDUCED). -/
def Obligations.MemoryAccessWhileBusy : Prop :=
  ∀ (s : State) (c : Cell) (v : Word), s.params.wf = true → s.busy = true → c.index < c.depth s.params →
    s.busStep (.write c.addr 0xF v) =
      .next { s with regs := { s.regs with status := { s.regs.status with acc := true } } } ∧
    ∃ w n, ∀ m : Memories, State.busStep { s with mems := m } (.read c.addr 0xF) =
      .next { s with
        mems := m
        regs := { s.regs with status := { s.regs.status with acc := true } }
        returned := w :: s.returned
        draws := n }

/-- R46, R66, R67, R74: memory changes in no other way than a host write of a memory word while Idle, the engine's commit of
the command in flight, or a hard reset. -/
def Obligations.OnlyThreeThingsChangeMemory : Prop :=
  ∀ s t : State, step s = .next t → t.mems ≠ s.mems →
    (s.phase = .idle ∧ ∃ a v c, s.turns.head? = some (.bus (.write a 0xF v)) ∧ targetOf s.params a = .cell c ∧
      ∀ d, d ≠ c → t.mems.read d = s.mems.read d) ∨
    (s.busy = true ∧ t.phase = .idle ∧ t.regs.status.done = true ∧
      (s.turns = [] ∨ s.turns.head? = some .engine)) ∨
    s.turns.head? = some .hardReset

/-! ### Flags, IRQ and reset -/

/-- R45, R247, R248: IRQ is DONE and IRQ_EN; every commit raises it when enabled; and it rises in no other way than a
commit, or a write of CTRL that sets IRQ_EN while DONE = 1. -/
def Obligations.IrqIsDoneAndEnabled : Prop :=
  (∀ s : State, s.irq = ((s.readReg .status)[1] && (s.readReg .ctrl)[0])) ∧
  (∀ (i : Instr) (s t : State), exec i s = .next t → t.irq = s.regs.irqEn) ∧
  (∀ s t : State, step s = .next t → s.irq = false → t.irq = true →
    (s.busy = true ∧ t.phase = .idle ∧ (s.turns = [] ∨ s.turns.head? = some .engine)) ∨
    (s.regs.status.done = true ∧ ∃ v : Word, v[0] = true ∧ s.turns.head? = some (.bus (.write 0x000004 0xF v))))

/-- R245: OVR is set only by a CMD write while Busy; ACC only by a write of WINDOW, a length register or ALPHA_N, or an
access to a memory word, while Busy; each is cleared only by a STATUS write with its bit, or a reset. -/
def Obligations.ProtocolFlagsAreSticky : Prop :=
  ∀ s t : State, step s = .next t →
    (s.regs.status.ovr = false → t.regs.status.ovr = true →
      s.busy = true ∧ ∃ v, s.turns.head? = some (.bus (.write 0x000008 0xF v))) ∧
    (s.regs.status.acc = false → t.regs.status.acc = true →
      s.busy = true ∧ ∃ a, ((∃ v, s.turns.head? = some (.bus (.write a 0xF v))) ∧
          a ∈ [0x000014, 0x000018, 0x00001C, 0x000020, 0x000024] ∨
        ((∃ v, s.turns.head? = some (.bus (.write a 0xF v))) ∨ s.turns.head? = some (.bus (.read a 0xF))) ∧
          ∃ c, targetOf s.params a = .cell c)) ∧
    (s.regs.status.ovr = true → t.regs.status.ovr = false →
      s.turns.head? = some .hardReset ∨
      (∃ v : Word, s.turns.head? = some (.bus (.write 0x00000C 0xF v)) ∧ v[4] = true) ∨
      ∃ v : Word, s.turns.head? = some (.bus (.write 0x000004 0xF v)) ∧ v[1] = true) ∧
    (s.regs.status.acc = true → t.regs.status.acc = false →
      s.turns.head? = some .hardReset ∨
      (∃ v : Word, s.turns.head? = some (.bus (.write 0x00000C 0xF v)) ∧ v[5] = true) ∨
      ∃ v : Word, s.turns.head? = some (.bus (.write 0x000004 0xF v)) ∧ v[1] = true)

/-- R117, R272: a write of CTRL, in either phase, sets IRQ_EN to bit 0; with bit 1 it is a soft reset: every register at its
hard-reset value, IRQ_EN too, the phase Idle with the command in flight aborted, the memories kept. -/
def Obligations.CtrlWriteAndSoftReset : Prop :=
  ∀ (s : State) (v : Word),
    (v[1] = false → s.busStep (.write 0x000004 0xF v) = .next { s with regs := { s.regs with irqEn := v[0] } }) ∧
    (v[1] = true → ∃ t, s.busStep (.write 0x000004 0xF v) = .next t ∧ t.phase = .idle ∧ t.mems = s.mems ∧
      t.params = s.params ∧ t.regs = State.reset.regs ∧ t.irq = false ∧ t.readReg .ctrl = 0 ∧ t.readReg .cmd = 0 ∧
      t.readReg .status = 0 ∧ t.readReg .errInfo = 0 ∧ t.readReg .window = 7 ∧ t.readReg .txtLen = 0 ∧
      t.readReg .bstrLen = 0 ∧ t.readReg .tokLen = 0 ∧ t.readReg .alphaN = 0 ∧ t.readReg .tailBits = 0 ∧
      t.readReg .truncPos = 0)

/-- R270, R271, R273: a hard reset, from any state, and the state after reset: every register at its reset value, the phase
Idle, IRQ low, and no memory entry holding a value. The defaults of `State.reset` are R6's. -/
def Obligations.HardResetState : Prop :=
  (∀ (s : State) (rest : List Turn), ∃ t, step { s with turns := .hardReset :: rest } = .next t ∧
    t.params = s.params ∧ t.turns = rest ∧ t.regs = State.reset.regs ∧ t.phase = .idle ∧ t.irq = false ∧
    ∀ c, t.mems.read c = none) ∧
  State.reset.readReg .id = 0x53464C5A ∧ State.reset.readReg .ctrl = 0 ∧ State.reset.readReg .cmd = 0 ∧
  State.reset.readReg .status = 0 ∧ State.reset.readReg .errInfo = 0 ∧ State.reset.readReg .window = 7 ∧
  State.reset.readReg .txtLen = 0 ∧ State.reset.readReg .bstrLen = 0 ∧ State.reset.readReg .tokLen = 0 ∧
  State.reset.readReg .alphaN = 0 ∧ State.reset.readReg .tailBits = 0 ∧ State.reset.readReg .truncPos = 0 ∧
  State.reset.readReg .capTxtDepth = 4096 ∧ State.reset.readReg .capBstrDepth = 32768 ∧
  State.reset.readReg .capTokDepth = 262144 ∧ State.reset.readReg .capCtDepth = 256 ∧
  State.reset.readReg .capCharW = 8 ∧ State.reset.phase = .idle ∧ State.reset.irq = false ∧
  ∀ c, State.reset.mems.read c = none

/-! ### Host programs -/

/-- R93, R94: on an Idle block, LOADS puts a text that fits into its memory and its length into its register, and LOADCT
puts a symbol and a code into an entry of CT, from which the code reads back; nothing else changes. -/
def Obligations.LoadsPlacesTheText : Prop :=
  ∀ (s : State) (rest : List Turn), s.params.wf = true → s.phase = .idle →
    (∀ (m : TextMem) (text : List Word), text.length ≤ (m.cell 0).depth s.params →
      s.turns = (loads m text).map HostStmt.turn ++ rest →
      ∃ t, Sys2Proof.core.run (text.length + 1) s = .next t ∧ t.turns = rest ∧ t.phase = .idle ∧
        t.Wrote m.cell text (t.readReg m.len) ∧ s.MemoryFrame t [(m.cell, text.length)] ∧
        t.regs = match m with
          | .txt => { s.regs with txtLen := BitVec.ofNat 32 text.length }
          | .bstr => { s.regs with bstrLen := BitVec.ofNat 32 text.length }
          | .tok => { s.regs with tokLen := BitVec.ofNat 32 text.length }) ∧
    (∀ (k : Nat) (sym : Word) (code : List Word), k < s.params.ctDepth → 1 ≤ code.length → code.length ≤ 32 →
      (∀ x ∈ code, x = chZero ∨ x = chOne) → s.turns = (loadCt k sym code).map HostStmt.turn ++ rest →
      ∃ t r, Sys2Proof.core.run 3 s = .next t ∧ t.turns = rest ∧ t.phase = .idle ∧ t.regs = s.regs ∧
        t.mems.read (.ctSym k) = some (storedBits s.params (.ctSym k) sym) ∧
        t.mems.read (.ctLen k) = some r.len ∧ t.mems.read (.ctBits k) = some r.bits ∧ TableRow.code r = code ∧
        ∀ c, c ≠ .ctSym k → c ≠ .ctLen k → c ≠ .ctBits k → t.mems.read c = s.mems.read c)

/-- R69, R94, R279: RUN on an Idle block whose command's inputs are written: every poll before the engine's step reads
BUSY = 1 and DONE = 0, the first after it reads BUSY = 0 and DONE = 1, and the outputs are then those of the command. -/
def Obligations.RunAndWaitSeesCompletion : Prop :=
  ∀ (s : State) (i : Instr) (polls : Nat) (rest : List Turn), s.phase = .idle →
    InputsWritten s.params s.inputs i → s.turns = runTurns i polls ++ rest →
    ∃ t t0 busyWord doneWord, Sys2Proof.core.run (polls + 3) s = .next t ∧ t.turns = rest ∧
      exec i (s.accept (encode i)) = .next t0 ∧ t.mems = t0.mems ∧ t.regs = t0.regs ∧ t.phase = .idle ∧
      t.returned = doneWord :: (List.replicate polls busyWord ++ s.returned) ∧
      busyWord[0] = true ∧ busyWord[1] = false ∧ doneWord[0] = false ∧ doneWord[1] = true ∧
      doneWord = t.readReg .status

/-! ### The invariant -/

/-- The invariant holds after reset. -/
def Obligations.InvariantHoldsAtReset : Prop := State.reset.Inv

/-- Every step keeps the invariant: the parameters within R6's bounds, the memories canonical, every entry below its depth
and holding only stored bits (R60, R65), the completion record consistent (R25, R240 to R242, R250), and, while a command
is in flight, the record clear and the snapshot equal to the live inputs (R111, R113, R122). -/
def Obligations.InvariantIsKeptByEveryStep : Prop :=
  ∀ s t : State, s.Inv → step s = .next t → t.Inv
end

