-- ==== Sys2Proof/Laws/State.lean ====
section
/-! SUPPORT. What each update of the state does to each of its fields. -/

namespace Sys2Proof.Machine

variable (s : State)

/-! ### `State.answer` -/

@[simp] theorem State.answer_params (v : Word) : (s.answer v).params = s.params := rfl
@[simp] theorem State.answer_regs (v : Word) : (s.answer v).regs = s.regs := rfl
@[simp] theorem State.answer_mems (v : Word) : (s.answer v).mems = s.mems := rfl
@[simp] theorem State.answer_phase (v : Word) : (s.answer v).phase = s.phase := rfl
@[simp] theorem State.answer_turns (v : Word) : (s.answer v).turns = s.turns := rfl
@[simp] theorem State.answer_returned (v : Word) : (s.answer v).returned = v :: s.returned := rfl
@[simp] theorem State.answer_draws (v : Word) : (s.answer v).draws = s.draws := rfl

/-! ### `State.setAcc` -/

@[simp] theorem State.setAcc_params : (s.setAcc).params = s.params := rfl
@[simp] theorem State.setAcc_regs : (s.setAcc).regs = { s.regs with status := s.regs.status.setAcc } := rfl
@[simp] theorem State.setAcc_mems : (s.setAcc).mems = s.mems := rfl
@[simp] theorem State.setAcc_phase : (s.setAcc).phase = s.phase := rfl
@[simp] theorem State.setAcc_turns : (s.setAcc).turns = s.turns := rfl
@[simp] theorem State.setAcc_returned : (s.setAcc).returned = s.returned := rfl
@[simp] theorem State.setAcc_draws : (s.setAcc).draws = s.draws := rfl

/-! ### `State.softReset` -/

@[simp] theorem State.softReset_params : (s.softReset).params = s.params := rfl
@[simp] theorem State.softReset_regs : (s.softReset).regs = Regs.reset := rfl
@[simp] theorem State.softReset_mems : (s.softReset).mems = s.mems := rfl
@[simp] theorem State.softReset_phase : (s.softReset).phase = .idle := rfl
@[simp] theorem State.softReset_turns : (s.softReset).turns = s.turns := rfl
@[simp] theorem State.softReset_returned : (s.softReset).returned = s.returned := rfl
@[simp] theorem State.softReset_draws : (s.softReset).draws = s.draws := rfl

/-! ### `State.hardReset` -/

@[simp] theorem State.hardReset_params : (s.hardReset).params = s.params := rfl
@[simp] theorem State.hardReset_regs : (s.hardReset).regs = Regs.reset := rfl
@[simp] theorem State.hardReset_mems : (s.hardReset).mems = Memories.unwritten := rfl
@[simp] theorem State.hardReset_phase : (s.hardReset).phase = .idle := rfl
@[simp] theorem State.hardReset_turns : (s.hardReset).turns = s.turns := rfl
@[simp] theorem State.hardReset_returned : (s.hardReset).returned = s.returned := rfl
@[simp] theorem State.hardReset_draws : (s.hardReset).draws = s.draws := rfl

/-! ### `State.accept` -/

@[simp] theorem State.accept_params (v : Word) : (s.accept v).params = s.params := rfl
@[simp] theorem State.accept_regs (v : Word) :
    (s.accept v).regs = { s.regs with
      cmd := v
      status := s.regs.status.accepted
      errInfo := 0
      tailBits := 0
      truncPos := 0 } := rfl
@[simp] theorem State.accept_mems (v : Word) : (s.accept v).mems = s.mems := rfl
@[simp] theorem State.accept_phase (v : Word) : (s.accept v).phase = .busy v (s.accept v).capture := rfl
@[simp] theorem State.accept_turns (v : Word) : (s.accept v).turns = s.turns := rfl
@[simp] theorem State.accept_returned (v : Word) : (s.accept v).returned = s.returned := rfl
@[simp] theorem State.accept_draws (v : Word) : (s.accept v).draws = s.draws := rfl

/-! ### `State.commitFail` -/

@[simp] theorem State.commitFail_params (code : ErrCode) (info : Word) :
    (s.commitFail code info).params = s.params := rfl
@[simp] theorem State.commitFail_regs (code : ErrCode) (info : Word) :
    (s.commitFail code info).regs = { s.regs with
      tailBits := 0
      truncPos := 0
      errInfo := info
      status := s.regs.status.committedFail code } := rfl
@[simp] theorem State.commitFail_mems (code : ErrCode) (info : Word) :
    (s.commitFail code info).mems = s.mems := rfl
@[simp] theorem State.commitFail_phase (code : ErrCode) (info : Word) :
    (s.commitFail code info).phase = .idle := rfl
@[simp] theorem State.commitFail_turns (code : ErrCode) (info : Word) :
    (s.commitFail code info).turns = s.turns := rfl
@[simp] theorem State.commitFail_returned (code : ErrCode) (info : Word) :
    (s.commitFail code info).returned = s.returned := rfl
@[simp] theorem State.commitFail_draws (code : ErrCode) (info : Word) :
    (s.commitFail code info).draws = s.draws := rfl

/-! ### `State.capture` and `State.inputs` -/

@[simp] theorem State.capture_regs : s.capture.regs = s.regs := rfl
@[simp] theorem State.capture_mems : s.capture.mems = s.mems := rfl

theorem State.inputs_of_idle (h : s.phase = .idle) : s.inputs = s.capture := by
  simp [State.inputs, h]

theorem State.inputs_of_busy (v : Word) (snap : Snapshot) (h : s.phase = .busy v snap) : s.inputs = snap := by
  simp [State.inputs, h]

@[simp] theorem State.accept_inputs (v : Word) : (s.accept v).inputs = (s.accept v).capture := rfl

/-! ### `State.busy` -/

theorem State.busy_eq_false_iff : s.busy = false ↔ s.phase = .idle := by
  cases h : s.phase <;> simp [State.busy, h]

theorem State.busy_eq_true_iff : s.busy = true ↔ ∃ v snap, s.phase = .busy v snap := by
  cases h : s.phase <;> simp [State.busy, h]

/-! ### `Status` -/

variable (st : Status)

@[simp] theorem Status.w1c_done (v : Word) : (st.w1c v).done = (st.done && !v[1]) := rfl
@[simp] theorem Status.w1c_wTail (v : Word) : (st.w1c v).wTail = st.wTail := rfl
@[simp] theorem Status.w1c_wTrunc (v : Word) : (st.w1c v).wTrunc = st.wTrunc := rfl
@[simp] theorem Status.w1c_ovr (v : Word) : (st.w1c v).ovr = (st.ovr && !v[4]) := rfl
@[simp] theorem Status.w1c_acc (v : Word) : (st.w1c v).acc = (st.acc && !v[5]) := rfl
@[simp] theorem Status.w1c_err (v : Word) : (st.w1c v).err = st.err := rfl
@[simp] theorem Status.w1c_truncCause (v : Word) : (st.w1c v).truncCause = st.truncCause := rfl

@[simp] theorem Status.accepted_done : (st.accepted).done = false := rfl
@[simp] theorem Status.accepted_wTail : (st.accepted).wTail = false := rfl
@[simp] theorem Status.accepted_wTrunc : (st.accepted).wTrunc = false := rfl
@[simp] theorem Status.accepted_ovr : (st.accepted).ovr = st.ovr := rfl
@[simp] theorem Status.accepted_acc : (st.accepted).acc = st.acc := rfl
@[simp] theorem Status.accepted_err : (st.accepted).err = .ok := rfl
@[simp] theorem Status.accepted_truncCause : (st.accepted).truncCause = .noTrunc := rfl

@[simp] theorem Status.committedFail_done (code : ErrCode) : (st.committedFail code).done = true := rfl
@[simp] theorem Status.committedFail_wTail (code : ErrCode) : (st.committedFail code).wTail = false := rfl
@[simp] theorem Status.committedFail_wTrunc (code : ErrCode) : (st.committedFail code).wTrunc = false := rfl
@[simp] theorem Status.committedFail_ovr (code : ErrCode) : (st.committedFail code).ovr = st.ovr := rfl
@[simp] theorem Status.committedFail_acc (code : ErrCode) : (st.committedFail code).acc = st.acc := rfl
@[simp] theorem Status.committedFail_err (code : ErrCode) : (st.committedFail code).err = code := rfl
@[simp] theorem Status.committedFail_truncCause (code : ErrCode) : (st.committedFail code).truncCause = .noTrunc := rfl

@[simp] theorem Status.setOvr_done : (st.setOvr).done = st.done := rfl
@[simp] theorem Status.setOvr_wTail : (st.setOvr).wTail = st.wTail := rfl
@[simp] theorem Status.setOvr_wTrunc : (st.setOvr).wTrunc = st.wTrunc := rfl
@[simp] theorem Status.setOvr_ovr : (st.setOvr).ovr = true := rfl
@[simp] theorem Status.setOvr_acc : (st.setOvr).acc = st.acc := rfl
@[simp] theorem Status.setOvr_err : (st.setOvr).err = st.err := rfl
@[simp] theorem Status.setOvr_truncCause : (st.setOvr).truncCause = st.truncCause := rfl

@[simp] theorem Status.setAcc_done : (st.setAcc).done = st.done := rfl
@[simp] theorem Status.setAcc_wTail : (st.setAcc).wTail = st.wTail := rfl
@[simp] theorem Status.setAcc_wTrunc : (st.setAcc).wTrunc = st.wTrunc := rfl
@[simp] theorem Status.setAcc_ovr : (st.setAcc).ovr = st.ovr := rfl
@[simp] theorem Status.setAcc_acc : (st.setAcc).acc = true := rfl
@[simp] theorem Status.setAcc_err : (st.setAcc).err = st.err := rfl
@[simp] theorem Status.setAcc_truncCause : (st.setAcc).truncCause = st.truncCause := rfl

variable (tail : Nat) (trunc : Option (TruncCause × Nat))

@[simp] theorem Status.committedOk_done : (st.committedOk tail trunc).done = true := rfl
@[simp] theorem Status.committedOk_wTail : (st.committedOk tail trunc).wTail = decide (tail > 0) := rfl
@[simp] theorem Status.committedOk_wTrunc : (st.committedOk tail trunc).wTrunc = trunc.isSome := rfl
@[simp] theorem Status.committedOk_ovr : (st.committedOk tail trunc).ovr = st.ovr := rfl
@[simp] theorem Status.committedOk_acc : (st.committedOk tail trunc).acc = st.acc := rfl
@[simp] theorem Status.committedOk_err : (st.committedOk tail trunc).err = .ok := rfl
@[simp] theorem Status.committedOk_truncCause :
    (st.committedOk tail trunc).truncCause = (trunc.map Prod.fst).getD .noTrunc := by
  cases trunc <;> rfl

end Sys2Proof.Machine
end

