-- ==== Sys2Proof/Laws/Memory.lean ====
section
/-! SUPPORT. The laws of memory: a read after a write, and that every operation keeps the canonical form. -/

namespace Sys2Proof.Machine

/-! ### One memory -/

theorem lookup_insertCell_same (k : Nat) (v : Word) (cells : List (Nat × Word)) :
    (insertCell k v cells).lookup k = some v := by
  induction cells with
  | nil => simp [insertCell]
  | cons c rest ih =>
    obtain ⟨j, w⟩ := c
    simp only [insertCell]
    split
    · simp
    · split
      · simp
      · next h => simp [List.lookup_cons, beq_eq_false_iff_ne.2 h, ih]

theorem lookup_insertCell_other (k j : Nat) (v : Word) (cells : List (Nat × Word)) (h : j ≠ k) :
    (insertCell k v cells).lookup j = cells.lookup j := by
  induction cells with
  | nil => simp [insertCell, h]
  | cons c rest ih =>
    obtain ⟨i, w⟩ := c
    simp only [insertCell]
    split
    · simp [List.lookup_cons, beq_eq_false_iff_ne.2 h]
    · split
      · next h' => subst h'; simp [List.lookup_cons, beq_eq_false_iff_ne.2 h]
      · simp [List.lookup_cons, ih]

@[simp] theorem Memory.read_write_same (m : Memory) (k : Nat) (v : Word) : (m.write k v).read k = some v :=
  lookup_insertCell_same k v m.cells

theorem Memory.read_write_other (m : Memory) (k j : Nat) (v : Word) (h : j ≠ k) :
    (m.write k v).read j = m.read j :=
  lookup_insertCell_other k j v m.cells h

theorem Memory.read_write (m : Memory) (k j : Nat) (v : Word) :
    (m.write k v).read j = if j = k then some v else m.read j := by
  split
  · next h => subst h; simp
  · next h => exact m.read_write_other k j v h

theorem mem_insertCell (k : Nat) (v : Word) (cells : List (Nat × Word)) (x : Nat × Word)
    (h : x ∈ insertCell k v cells) : x = (k, v) ∨ x ∈ cells := by
  induction cells with
  | nil => simpa [insertCell] using h
  | cons c rest ih =>
    obtain ⟨j, w⟩ := c
    simp only [insertCell] at h
    split at h
    · simpa using h
    · split at h
      · rcases List.mem_cons.1 h with h | h
        · exact .inl h
        · exact .inr (List.mem_cons_of_mem _ h)
      · rcases List.mem_cons.1 h with h | h
        · exact .inr (h ▸ List.mem_cons_self)
        · exact (ih h).imp id (List.mem_cons_of_mem _)

/-- A write keeps the canonical form. -/
theorem Memory.write_keeps_wf (m : Memory) (k : Nat) (v : Word) (h : m.wf) : (m.write k v).wf := by
  obtain ⟨cells⟩ := m
  simp only [Memory.wf, Memory.write] at h ⊢
  induction cells with
  | nil => simp [insertCell]
  | cons c rest ih =>
    obtain ⟨j, w⟩ := c
    rw [List.pairwise_cons] at h
    simp only [insertCell]
    split
    · next hk =>
      refine List.pairwise_cons.2 ⟨fun x hx => ?_, List.pairwise_cons.2 h⟩
      rcases List.mem_cons.1 hx with rfl | hx
      · exact hk
      · exact hk.trans (h.1 x hx)
    · split
      · next hk => subst hk; exact List.pairwise_cons.2 ⟨h.1, h.2⟩
      · next hlt hne =>
        refine List.pairwise_cons.2 ⟨fun x hx => ?_, ih h.2⟩
        rcases mem_insertCell k v rest x hx with rfl | hx
        · show j < k; omega
        · exact h.1 x hx

/-! ### The four memories -/

@[simp] theorem Memories.read_write_same (m : Memories) (c : Cell) (v : Word) : (m.write c v).read c = some v := by
  cases c <;> simp [Memories.read, Memories.write]

theorem Memories.read_write_other (m : Memories) (c d : Cell) (v : Word) (h : d ≠ c) :
    (m.write c v).read d = m.read d := by
  cases c <;> cases d <;> simp_all [Memories.read, Memories.write, Memory.read_write]

theorem Memories.read_write (m : Memories) (c d : Cell) (v : Word) :
    (m.write c v).read d = if d = c then some v else m.read d := by
  split
  · next h => subst h; simp
  · next h => exact m.read_write_other c d v h

@[simp] theorem Memories.read_unwritten (c : Cell) : Memories.unwritten.read c = none := by
  cases c <;> rfl

/-- A write keeps the canonical form of all four memories. -/
theorem Memories.write_keeps_wf (m : Memories) (c : Cell) (v : Word) (h : m.wf) : (m.write c v).wf := by
  obtain ⟨h1, h2, h3, h4, h5, h6, h7⟩ := h
  cases c <;> simp only [Memories.write] <;> refine ⟨?_, ?_, ?_, ?_, ?_, ?_, ?_⟩ <;>
    first | assumption | (apply Memory.write_keeps_wf; assumption)

theorem Memories.unwritten_wf : Memories.unwritten.wf := by decide

/-! ### Stored bits -/

theorem Cell.width_le (p : Params) (c : Cell) (h : p.wf = true) : c.width p ≤ 32 := by
  simp [Params.wf] at h
  cases c <;> simp [Cell.width] <;> omega

theorem storedBits_toNat (p : Params) (c : Cell) (v : Word) : (storedBits p c v).toNat = v.toNat % 2 ^ c.width p := by
  simp only [storedBits, BitVec.toNat_ofNat]
  exact Nat.mod_eq_of_lt ((Nat.mod_le _ _).trans_lt v.isLt)

/-- Storing twice keeps the same bits as storing once. -/
@[simp] theorem storedBits_storedBits (p : Params) (c : Cell) (v : Word) :
    storedBits p c (storedBits p c v) = storedBits p c v := by
  apply BitVec.eq_of_toNat_eq
  simp [storedBits_toNat]

theorem storedBits_of_lt (p : Params) (c : Cell) (v : Word) (h : v.toNat < 2 ^ c.width p) : storedBits p c v = v := by
  apply BitVec.eq_of_toNat_eq
  rw [storedBits_toNat, Nat.mod_eq_of_lt h]

end Sys2Proof.Machine
end

