-- ==== Sys2Proof/Laws/Commit.lean ====
section
/-! SUPPORT. What a commit does: the locations it writes hold the written values' stored bits, and every other location is
unchanged (spec/40_host_interface.md R119, R120). -/

namespace Sys2Proof.Machine

/-! ### One write -/

theorem State.readLoc_writeLoc (s : State) (l d : Loc) (v : Word) :
    (s.writeLoc l v).readLoc d = if d = l then some (storedAt s.params l v) else s.readLoc d := by
  cases l <;> cases d <;> simp [State.readLoc, State.writeLoc, storedAt, Memories.read_write]

section
variable (s : State) (l : Loc) (v : Word)

@[simp] theorem State.writeLoc_params : (s.writeLoc l v).params = s.params := by cases l <;> rfl
@[simp] theorem State.writeLoc_phase : (s.writeLoc l v).phase = s.phase := by cases l <;> rfl
@[simp] theorem State.writeLoc_turns : (s.writeLoc l v).turns = s.turns := by cases l <;> rfl
@[simp] theorem State.writeLoc_returned : (s.writeLoc l v).returned = s.returned := by cases l <;> rfl
@[simp] theorem State.writeLoc_draws : (s.writeLoc l v).draws = s.draws := by cases l <;> rfl
@[simp] theorem State.writeLoc_irqEn : (s.writeLoc l v).regs.irqEn = s.regs.irqEn := by cases l <;> rfl
@[simp] theorem State.writeLoc_cmd : (s.writeLoc l v).regs.cmd = s.regs.cmd := by cases l <;> rfl
@[simp] theorem State.writeLoc_status : (s.writeLoc l v).regs.status = s.regs.status := by cases l <;> rfl
@[simp] theorem State.writeLoc_errInfo : (s.writeLoc l v).regs.errInfo = s.regs.errInfo := by cases l <;> rfl
@[simp] theorem State.writeLoc_window : (s.writeLoc l v).regs.window = s.regs.window := by cases l <;> rfl
@[simp] theorem State.writeLoc_tailBits : (s.writeLoc l v).regs.tailBits = s.regs.tailBits := by cases l <;> rfl
@[simp] theorem State.writeLoc_truncPos : (s.writeLoc l v).regs.truncPos = s.regs.truncPos := by cases l <;> rfl

theorem State.writeLoc_keeps_wf (h : s.mems.wf) : (s.writeLoc l v).mems.wf := by
  cases l with
  | cell c => exact Memories.write_keeps_wf _ _ _ h
  | _ => exact h

end

/-! ### A list of writes -/

section
variable (s : State) (ws : List (Loc × Word))

@[simp] theorem State.applyWrites_nil : s.applyWrites [] = s := rfl

@[simp] theorem State.applyWrites_cons (w : Loc × Word) :
    s.applyWrites (w :: ws) = (s.writeLoc w.1 w.2).applyWrites ws := rfl

theorem State.applyWrites_append (us : List (Loc × Word)) :
    s.applyWrites (us ++ ws) = (s.applyWrites us).applyWrites ws := by
  induction us generalizing s with
  | nil => rfl
  | cons u us ih => simp [ih]

@[simp] theorem State.applyWrites_params : (s.applyWrites ws).params = s.params := by
  induction ws generalizing s with
  | nil => rfl
  | cons w ws ih => simp [ih]

@[simp] theorem State.applyWrites_turns : (s.applyWrites ws).turns = s.turns := by
  induction ws generalizing s with
  | nil => rfl
  | cons w ws ih => simp [ih]

@[simp] theorem State.applyWrites_returned : (s.applyWrites ws).returned = s.returned := by
  induction ws generalizing s with
  | nil => rfl
  | cons w ws ih => simp [ih]

@[simp] theorem State.applyWrites_draws : (s.applyWrites ws).draws = s.draws := by
  induction ws generalizing s with
  | nil => rfl
  | cons w ws ih => simp [ih]

@[simp] theorem State.applyWrites_irqEn : (s.applyWrites ws).regs.irqEn = s.regs.irqEn := by
  induction ws generalizing s with
  | nil => rfl
  | cons w ws ih => simp [ih]

@[simp] theorem State.applyWrites_cmd : (s.applyWrites ws).regs.cmd = s.regs.cmd := by
  induction ws generalizing s with
  | nil => rfl
  | cons w ws ih => simp [ih]

@[simp] theorem State.applyWrites_status : (s.applyWrites ws).regs.status = s.regs.status := by
  induction ws generalizing s with
  | nil => rfl
  | cons w ws ih => simp [ih]

@[simp] theorem State.applyWrites_window : (s.applyWrites ws).regs.window = s.regs.window := by
  induction ws generalizing s with
  | nil => rfl
  | cons w ws ih => simp [ih]

theorem State.applyWrites_keeps_wf (h : s.mems.wf) : (s.applyWrites ws).mems.wf := by
  induction ws generalizing s with
  | nil => exact h
  | cons w ws ih => exact ih _ (s.writeLoc_keeps_wf w.1 w.2 h)

/-- A location no write names is unchanged. -/
theorem State.readLoc_applyWrites_other (d : Loc) (h : ∀ v, (d, v) ∉ ws) :
    (s.applyWrites ws).readLoc d = s.readLoc d := by
  induction ws generalizing s with
  | nil => rfl
  | cons w ws ih =>
    obtain ⟨l, v⟩ := w
    have hd : d ≠ l := fun e => h v (by simp [e])
    rw [State.applyWrites_cons, ih _ fun u hu => h u (List.mem_cons_of_mem _ hu), State.readLoc_writeLoc, if_neg hd]

/-- When no location is written twice, each written location holds the stored bits of its value. -/
theorem State.readLoc_applyWrites_written (l : Loc) (v : Word) (hd : (ws.map Prod.fst).Nodup) (h : (l, v) ∈ ws) :
    (s.applyWrites ws).readLoc l = some (storedAt s.params l v) := by
  induction ws generalizing s with
  | nil => simp at h
  | cons w ws ih =>
    rw [List.map_cons, List.nodup_cons] at hd
    rcases List.mem_cons.1 h with rfl | h
    · rw [State.applyWrites_cons, State.readLoc_applyWrites_other _ _ _ fun u hu => hd.1 (List.mem_map.2 ⟨_, hu, rfl⟩),
        State.readLoc_writeLoc, if_pos rfl]
    · rw [State.applyWrites_cons, ih _ hd.2 h, State.writeLoc_params]

/-- Every location holds, after the writes, its old value or the stored bits of a value written to it. -/
theorem State.readLoc_applyWrites_cases (d : Loc) :
    (s.applyWrites ws).readLoc d = s.readLoc d ∨
      ∃ v, (d, v) ∈ ws ∧ (s.applyWrites ws).readLoc d = some (storedAt s.params d v) := by
  induction ws generalizing s with
  | nil => exact .inl rfl
  | cons w ws ih =>
    obtain ⟨l, v⟩ := w
    rw [State.applyWrites_cons]
    rcases ih (s.writeLoc l v) with h | ⟨u, hu, h⟩
    · rw [h, State.readLoc_writeLoc]
      split
      · next e => subst e; exact .inr ⟨v, List.mem_cons_self, rfl⟩
      · exact .inl rfl
    · exact .inr ⟨u, List.mem_cons_of_mem _ hu, by simpa using h⟩

end

/-! ### Which locations the writes of a sequence and of a table name -/

theorem mem_seqWrites (mk : Nat → Cell) (k : Nat) (xs : List Word) (w : Loc × Word) :
    w ∈ seqWrites mk k xs ↔ ∃ j, ∃ h : j < xs.length, w = (.cell (mk (k + j)), xs[j]) := by
  induction xs generalizing k with
  | nil => simp [seqWrites]
  | cons x xs ih =>
    simp only [seqWrites, List.mem_cons, ih]
    constructor
    · rintro (rfl | ⟨j, hj, rfl⟩)
      · exact ⟨0, by simp, rfl⟩
      · exact ⟨j + 1, by simpa using hj, by simp [Nat.add_assoc, Nat.add_comm 1 j]⟩
    · rintro ⟨j, hj, rfl⟩
      cases j with
      | zero => exact .inl rfl
      | succ j => exact .inr ⟨j, by simpa using hj, by simp [Nat.add_assoc, Nat.add_comm 1 j]⟩

theorem mem_tableWrites (k : Nat) (tbl : List TableEntry) (w : Loc × Word) :
    w ∈ tableWrites k tbl ↔ ∃ j, ∃ h : j < tbl.length,
      w = (.cell (.ctSym (k + j)), tbl[j].sym) ∨ w = (.cell (.ctFreq (k + j)), BitVec.ofNat 32 tbl[j].freq) ∨
      w = (.cell (.ctLen (k + j)), BitVec.ofNat 32 tbl[j].code.length) ∨
      w = (.cell (.ctBits (k + j)), codeBitsOf tbl[j].code) := by
  induction tbl generalizing k with
  | nil => simp [tableWrites]
  | cons e tbl ih =>
    simp only [tableWrites, List.mem_cons, ih]
    constructor
    · rintro (h | h | h | h | ⟨j, hj, h⟩)
      · exact ⟨0, by simp, .inl h⟩
      · exact ⟨0, by simp, .inr (.inl h)⟩
      · exact ⟨0, by simp, .inr (.inr (.inl h))⟩
      · exact ⟨0, by simp, .inr (.inr (.inr h))⟩
      · exact ⟨j + 1, by simpa using hj, by simpa [Nat.add_assoc, Nat.add_comm 1 j] using h⟩
    · rintro ⟨j, hj, h⟩
      cases j with
      | zero => simp at h; tauto
      | succ j =>
        exact .inr (.inr (.inr (.inr ⟨j, by simpa using hj, by simpa [Nat.add_assoc, Nat.add_comm 1 j] using h⟩)))

theorem seqWrites_nodup (mk : Nat → Cell) (hmk : Function.Injective mk) (k : Nat) (xs : List Word) :
    ((seqWrites mk k xs).map Prod.fst).Nodup := by
  induction xs generalizing k with
  | nil => simp [seqWrites]
  | cons x xs ih =>
    simp only [seqWrites, List.map_cons, List.nodup_cons]
    refine ⟨fun h => ?_, ih (k + 1)⟩
    obtain ⟨w, hw, e⟩ := List.mem_map.1 h
    obtain ⟨j, hj, rfl⟩ := (mem_seqWrites mk (k + 1) xs w).1 hw
    have : k + 1 + j = k := hmk (Loc.cell.inj e)
    omega

theorem tableWrites_nodup (k : Nat) (tbl : List TableEntry) : ((tableWrites k tbl).map Prod.fst).Nodup := by
  induction tbl generalizing k with
  | nil => simp [tableWrites]
  | cons e tbl ih =>
    simp only [tableWrites, List.map_cons, List.nodup_cons, List.mem_cons, List.mem_map, mem_tableWrites]
    refine ⟨?_, ?_, ?_, ?_, ih (k + 1)⟩ <;>
      · simp
        try omega

/-! ### The commit of a success -/

section
variable (s : State) (out : Outputs)

@[simp] theorem State.commitOk_params : (s.commitOk out).params = s.params := by simp [State.commitOk]
@[simp] theorem State.commitOk_mems : (s.commitOk out).mems = (s.applyWrites out.writes).mems := rfl
@[simp] theorem State.commitOk_phase : (s.commitOk out).phase = .idle := rfl
@[simp] theorem State.commitOk_turns : (s.commitOk out).turns = s.turns := by simp [State.commitOk]
@[simp] theorem State.commitOk_returned : (s.commitOk out).returned = s.returned := by simp [State.commitOk]
@[simp] theorem State.commitOk_draws : (s.commitOk out).draws = s.draws := by simp [State.commitOk]
@[simp] theorem State.commitOk_irqEn : (s.commitOk out).regs.irqEn = s.regs.irqEn := by simp [State.commitOk]
@[simp] theorem State.commitOk_cmd : (s.commitOk out).regs.cmd = s.regs.cmd := by simp [State.commitOk]
@[simp] theorem State.commitOk_window : (s.commitOk out).regs.window = s.regs.window := by simp [State.commitOk]
@[simp] theorem State.commitOk_status :
    (s.commitOk out).regs.status = s.regs.status.committedOk out.tail out.trunc := by simp [State.commitOk]
@[simp] theorem State.commitOk_errInfo : (s.commitOk out).regs.errInfo = 0 := rfl
@[simp] theorem State.commitOk_tailBits : (s.commitOk out).regs.tailBits = BitVec.ofNat 32 out.tail := rfl
@[simp] theorem State.commitOk_truncPos :
    (s.commitOk out).regs.truncPos = BitVec.ofNat 32 ((out.trunc.map Prod.snd).getD 0) := by
  cases h : out.trunc <;> simp [State.commitOk, h]

/-- A commit writes the output locations exactly as the list of writes does. -/
theorem State.readLoc_commitOk (d : Loc) : (s.commitOk out).readLoc d = (s.applyWrites out.writes).readLoc d := by
  cases d <;> rfl

/-- What no successful commit changes. -/
theorem State.commitOk_frame : s.CommitFrame (s.commitOk out) := by
  constructor <;> simp

/-- The completion record of a successful commit. -/
theorem State.commitOk_succeeded : (s.commitOk out).Succeeded out.tail out.trunc := by
  constructor <;> simp

end

/-! ### The commit of a failure -/

/-- The completion record of a failing commit. -/
theorem State.commitFail_failed (s : State) (code : ErrCode) (info : Word) :
    (s.commitFail code info).Failed code info := by
  constructor <;> simp

/-! ### Commits of a sequence and of a code table -/

/-- Writing a sequence changes no register. -/
@[simp] theorem State.applyWrites_seq_regs (s : State) (mk : Nat → Cell) (k : Nat) (xs : List Word) :
    (s.applyWrites (seqWrites mk k xs)).regs = s.regs := by
  induction xs generalizing s k with
  | nil => rfl
  | cons x xs ih => simp [seqWrites, ih, State.writeLoc]

/-- Writing a table changes no register. -/
@[simp] theorem State.applyWrites_table_regs (s : State) (k : Nat) (tbl : List TableEntry) :
    (s.applyWrites (tableWrites k tbl)).regs = s.regs := by
  induction tbl generalizing s k with
  | nil => rfl
  | cons e tbl ih => simp [tableWrites, ih, State.writeLoc]

/-- Writing a sequence: its entries hold the stored bits of its elements. -/
theorem State.read_applyWrites_seq (s : State) (mk : Nat → Cell) (hmk : Function.Injective mk) (xs : List Word) (k : Nat)
    (x : Word) (h : xs[k]? = some x) :
    (s.applyWrites (seqWrites mk 0 xs)).mems.read (mk k) = some (storedBits s.params (mk k) x) := by
  obtain ⟨hk, rfl⟩ := List.getElem?_eq_some_iff.1 h
  have := s.readLoc_applyWrites_written (seqWrites mk 0 xs) (.cell (mk k)) xs[k] (seqWrites_nodup mk hmk 0 xs)
    ((mem_seqWrites mk 0 xs _).2 ⟨k, hk, by simp⟩)
  simpa [State.readLoc, storedAt] using this

/-- Writing a sequence: every other memory word is unchanged. -/
theorem State.read_applyWrites_seq_other (s : State) (mk : Nat → Cell) (xs : List Word) (c : Cell)
    (h : ∀ k < xs.length, c ≠ mk k) : (s.applyWrites (seqWrites mk 0 xs)).mems.read c = s.mems.read c := by
  have := s.readLoc_applyWrites_other (seqWrites mk 0 xs) (.cell c) (by
    intro v hv
    obtain ⟨j, hj, hw⟩ := (mem_seqWrites mk 0 xs _).1 hv
    simp at hw
    exact h j hj hw.1)
  simpa [State.readLoc] using this

/-- Writing a table: its entries hold the four fields. -/
theorem State.read_applyWrites_table (s : State) (tbl : List TableEntry) (k : Nat) (e : TableEntry)
    (h : tbl[k]? = some e) :
    (s.applyWrites (tableWrites 0 tbl)).mems.read (.ctSym k) = some (storedBits s.params (.ctSym k) e.sym) ∧
    (s.applyWrites (tableWrites 0 tbl)).mems.read (.ctFreq k) =
      some (storedBits s.params (.ctFreq k) (BitVec.ofNat 32 e.freq)) ∧
    (s.applyWrites (tableWrites 0 tbl)).mems.read (.ctLen k) =
      some (storedBits s.params (.ctLen k) (BitVec.ofNat 32 e.code.length)) ∧
    (s.applyWrites (tableWrites 0 tbl)).mems.read (.ctBits k) =
      some (storedBits s.params (.ctBits k) (codeBitsOf e.code)) := by
  obtain ⟨hk, rfl⟩ := List.getElem?_eq_some_iff.1 h
  have key : ∀ c v, (Loc.cell c, v) ∈ tableWrites 0 tbl →
      (s.applyWrites (tableWrites 0 tbl)).mems.read c = some (storedBits s.params c v) := by
    intro c v hm
    have := s.readLoc_applyWrites_written (tableWrites 0 tbl) (.cell c) v (tableWrites_nodup 0 tbl) hm
    simpa [State.readLoc, storedAt] using this
  refine ⟨key _ _ ?_, key _ _ ?_, key _ _ ?_, key _ _ ?_⟩ <;>
    exact (mem_tableWrites 0 tbl _).2 ⟨k, hk, by simp⟩

/-- Writing a table: every memory word that is no field of its entries is unchanged. -/
theorem State.read_applyWrites_table_other (s : State) (tbl : List TableEntry) (c : Cell)
    (h : ∀ k < tbl.length, c ≠ .ctSym k ∧ c ≠ .ctFreq k ∧ c ≠ .ctLen k ∧ c ≠ .ctBits k) :
    (s.applyWrites (tableWrites 0 tbl)).mems.read c = s.mems.read c := by
  have := s.readLoc_applyWrites_other (tableWrites 0 tbl) (.cell c) (by
    intro v hv
    obtain ⟨j, hj, hw⟩ := (mem_tableWrites 0 tbl _).1 hv
    obtain ⟨h1, h2, h3, h4⟩ := h j hj
    simp at hw
    rcases hw with hw | hw | hw | hw
    · exact h1 hw.1
    · exact h2 hw.1
    · exact h3 hw.1
    · exact h4 hw.1)
  simpa [State.readLoc] using this

/-- The memories a list of writes leaves depend on nothing but the memories and the parameters. -/
theorem State.applyWrites_mems_congr (s s' : State) (ws : List (Loc × Word))
    (h : s.mems = s'.mems) (hp : s.params = s'.params) :
    (s.applyWrites ws).mems = (s'.applyWrites ws).mems := by
  induction ws generalizing s s' with
  | nil => exact h
  | cons w ws ih =>
    simp only [State.applyWrites_cons]
    apply ih
    · cases w.1 <;> simp [State.writeLoc, h, hp]
    · simp [hp]

end Sys2Proof.Machine
end

