-- ==== Sys2Proof/Laws/Bus.lean ====
section
/-! SUPPORT. Everything a bus transaction can do (spec/40_host_interface.md R110 to R117, R125). -/

namespace Sys2Proof.Machine

/-- The address map names only entries below their memory's depth (spec/20_memory.md R60). -/
theorem targetOf_cell_lt (p : Params) (a : Addr) (c : Cell) (h : targetOf p a = .cell c) : c.index < c.depth p := by
  unfold targetOf at h
  simp only at h
  split at h
  · split at h <;> simp at h
  · split at h
    · next hr => cases h; exact hr
    · simp at h
  · split at h
    · next hr => cases h; exact hr
    · simp at h
  · split at h
    · next hr => cases h; exact hr
    · simp at h
  · split at h
    · next hr =>
      cases h
      unfold ctField
      split <;> exact hr
    · simp at h
  · simp at h

/-- STATUS.OVR ← 1 in a state. -/
def State.setOvr (s : State) : State := { s with regs := { s.regs with status := s.regs.status.setOvr } }

/-- Everything a register write can do. -/
theorem State.writeReg_cases (s : State) (r : Reg) (v : Word) :
    s.writeReg r v = s ∨
    s.writeReg r v = s.writeCtrl v ∨
    (s.phase = .idle ∧ s.writeReg r v = s.accept v) ∨
    (s.busy = true ∧ s.writeReg r v = s.setOvr) ∨
    s.writeReg r v = { s with regs := { s.regs with status := s.regs.status.w1c v } } ∨
    (s.busy = true ∧ s.writeReg r v = s.setAcc) ∨
    (s.phase = .idle ∧ s.writeReg r v = { s with regs := { s.regs with window := v.setWidth 8 } }) ∨
    (s.phase = .idle ∧ ∃ l, (∀ c, l ≠ .cell c) ∧ s.writeReg r v = s.writeLoc l v) := by
  have config : ∀ r : Regs, s.configWrite r = s.setAcc ∧ s.busy = true ∨
      s.configWrite r = { s with regs := r } ∧ s.phase = .idle := by
    intro r
    unfold State.configWrite
    split
    · next hb => exact .inl ⟨rfl, hb⟩
    · next hb => exact .inr ⟨rfl, s.busy_eq_false_iff.1 (by simpa using hb)⟩
  cases r with
  | ctrl => exact .inr (.inl rfl)
  | cmd =>
    show s.writeCmd v = s ∨ s.writeCmd v = _ ∨ (_ ∧ s.writeCmd v = _) ∨ (_ ∧ s.writeCmd v = _) ∨ _
    by_cases hb : s.busy = true
    · exact .inr (.inr (.inr (.inl ⟨hb, if_pos hb⟩)))
    · exact .inr (.inr (.inl ⟨s.busy_eq_false_iff.1 (by simpa using hb), if_neg hb⟩))
  | status => exact .inr (.inr (.inr (.inr (.inl rfl))))
  | window =>
    rcases config { s.regs with window := v.setWidth 8 } with ⟨h, hb⟩ | ⟨h, hi⟩
    · exact .inr (.inr (.inr (.inr (.inr (.inl ⟨hb, h⟩)))))
    · exact .inr (.inr (.inr (.inr (.inr (.inr (.inl ⟨hi, h⟩))))))
  | txtLen =>
    rcases config { s.regs with txtLen := v } with ⟨h, hb⟩ | ⟨h, hi⟩
    · exact .inr (.inr (.inr (.inr (.inr (.inl ⟨hb, h⟩)))))
    · exact .inr (.inr (.inr (.inr (.inr (.inr (.inr ⟨hi, .txtLen, by simp, h⟩))))))
  | bstrLen =>
    rcases config { s.regs with bstrLen := v } with ⟨h, hb⟩ | ⟨h, hi⟩
    · exact .inr (.inr (.inr (.inr (.inr (.inl ⟨hb, h⟩)))))
    · exact .inr (.inr (.inr (.inr (.inr (.inr (.inr ⟨hi, .bstrLen, by simp, h⟩))))))
  | tokLen =>
    rcases config { s.regs with tokLen := v } with ⟨h, hb⟩ | ⟨h, hi⟩
    · exact .inr (.inr (.inr (.inr (.inr (.inl ⟨hb, h⟩)))))
    · exact .inr (.inr (.inr (.inr (.inr (.inr (.inr ⟨hi, .tokLen, by simp, h⟩))))))
  | alphaN =>
    rcases config { s.regs with alphaN := v } with ⟨h, hb⟩ | ⟨h, hi⟩
    · exact .inr (.inr (.inr (.inr (.inr (.inl ⟨hb, h⟩)))))
    · exact .inr (.inr (.inr (.inr (.inr (.inr (.inr ⟨hi, .alphaN, by simp, h⟩))))))
  | _ => exact .inl rfl

/-- Everything a bus write can do: nothing, a register write, a memory write while Idle, or ACC ← 1 while Busy. -/
theorem State.busWrite_cases (s : State) (a : Addr) (lanes : BitVec 4) (v : Word) :
    s.busWrite a lanes v = s ∨
    (∃ r, s.busWrite a lanes v = s.writeReg r v) ∨
    (s.busy = true ∧ s.busWrite a lanes v = s.setAcc) ∨
    (s.phase = .idle ∧ ∃ c, c.index < c.depth s.params ∧ s.busWrite a lanes v = s.writeLoc (.cell c) v) := by
  unfold State.busWrite
  split
  · split
    · next r _ => exact .inr (.inl ⟨r, rfl⟩)
    · exact .inl rfl
    · next c hc =>
      split
      · next hb => exact .inr (.inr (.inl ⟨hb, rfl⟩))
      · next hb =>
        exact .inr (.inr (.inr ⟨s.busy_eq_false_iff.1 (by simpa using hb), c, targetOf_cell_lt _ _ _ hc, rfl⟩))
  · exact .inl rfl

/-- Everything a bus read can do to the state: return a word, with ACC ← 1 and a draw for a memory word while Busy. -/
theorem State.busRead_cases (s t : State) (a : Addr) (lanes : BitVec 4) (h : s.busRead a lanes = .next t) :
    (∃ v, t = s.answer v) ∨
    (s.busy = true ∧ t = { (s.setAcc).answer (Config.busyRead s.draws) with draws := s.draws + 1 }) := by
  unfold State.busRead at h
  split at h
  · split at h
    · cases h; exact .inl ⟨_, rfl⟩
    · cases h; exact .inl ⟨_, rfl⟩
    · split at h
      · next hb => cases h; exact .inr ⟨hb, rfl⟩
      · split at h
        · cases h; exact .inl ⟨_, rfl⟩
        · cases h
  · cases h; exact .inl ⟨_, rfl⟩

/-! ### The address map (R21, R60, R64) -/

/-- R6's bounds. -/
theorem Params.wf_bounds {p : Params} (h : p.wf = true) :
    8 ≤ p.charW ∧ p.charW ≤ 32 ∧ 1 ≤ p.txtDepth ∧ p.txtDepth ≤ 262144 ∧ 1 ≤ p.bstrDepth ∧ p.bstrDepth ≤ 262144 ∧ 1 ≤ p.tokDepth ∧ p.tokDepth ≤ 262144 ∧ 1 ≤ p.ctDepth ∧ p.ctDepth ≤ 65536 := by
  simp [Params.wf] at h; omega

/-- Region and offset of an address, as numbers. -/
theorem region_offset_eq (a : Addr) : regionOf a = a.toNat / 1048576 ∧ offsetOf a = a.toNat % 1048576 := by
  have := a.isLt
  constructor
  · simp [regionOf, BitVec.extractLsb'_toNat, Nat.shiftRight_eq_div_pow]; omega
  · simp [offsetOf, BitVec.extractLsb'_toNat]

/-- A memory word's address is well-formed and names it. -/
theorem targetOf_addr (p : Params) (h : p.wf = true) (c : Cell) (hc : c.index < c.depth p) :
    targetOf p c.addr = .cell c ∧ accessWf c.addr 15#4 = true := by
  have hb := Params.wf_bounds h
  cases c <;> simp only [Cell.index, Cell.depth] at hc <;> simp only [Cell.addr, targetOf, accessWf, (region_offset_eq _).1, (region_offset_eq _).2, BitVec.toNat_ofNat]
  all_goals (rename_i k)
  · rw [show (0x100000 + 4 * k) % 2^24 / 1048576 = 1 by omega, show (0x100000 + 4 * k) % 2^24 % 1048576 = 4*k by omega]; simp [hc]
  · rw [show (0x200000 + 4 * k) % 2^24 / 1048576 = 2 by omega, show (0x200000 + 4 * k) % 2^24 % 1048576 = 4*k by omega]; simp [hc]
  · rw [show (0x300000 + 4 * k) % 2^24 / 1048576 = 3 by omega, show (0x300000 + 4 * k) % 2^24 % 1048576 = 4*k by omega]; simp [hc]
  · rw [show (0x400000 + 16 * k) % 2^24 / 1048576 = 4 by omega, show (0x400000 + 16 * k) % 2^24 % 1048576 = 16*k by omega]
    simp [hc, ctField]; omega
  · rw [show (0x400000 + 16 * k + 4) % 2^24 / 1048576 = 4 by omega, show (0x400000 + 16 * k + 4) % 2^24 % 1048576 = 16*k+4 by omega, show (16*k+4)/16 = k by omega, show (16*k+4)%16/4 = 1 by omega]
    simp [hc, ctField]; omega
  · rw [show (0x400000 + 16 * k + 8) % 2^24 / 1048576 = 4 by omega, show (0x400000 + 16 * k + 8) % 2^24 % 1048576 = 16*k+8 by omega, show (16*k+8)/16 = k by omega, show (16*k+8)%16/4 = 2 by omega]
    simp [hc, ctField]; omega
  · rw [show (0x400000 + 16 * k + 12) % 2^24 / 1048576 = 4 by omega, show (0x400000 + 16 * k + 12) % 2^24 % 1048576 = 16*k+12 by omega, show (16*k+12)/16 = k by omega, show (16*k+12)%16/4 = 3 by omega]
    simp [hc, ctField]; omega

/-- The register at an offset has that offset. -/
theorem regAt_some (n : Nat) (r : Reg) (h : regAt n = some r) : n = r.offset.toNat := by
  unfold regAt at h; split at h <;> simp at h <;> subst h <;> rfl

/-- An address names a register exactly when it is the register's. -/
theorem targetOf_reg_iff (p : Params) (a : Addr) (r : Reg) : targetOf p a = .reg r ↔ a = r.offset := by
  constructor
  · intro h
    unfold targetOf at h
    simp only [(region_offset_eq _).1, (region_offset_eq _).2] at h
    split at h
    · next hr =>
      split at h
      · next r' hra =>
        cases h
        have := regAt_some _ _ hra
        apply BitVec.eq_of_toNat_eq; omega
      · cases h
    all_goals (try (split at h <;> cases h))
    all_goals (try cases h)
  · rintro rfl; cases r <;> rfl

/-- An aligned address that names a memory word is that word's. -/
theorem eq_addr_of_targetOf (p : Params) (hp : p.wf = true) (a : Addr) (c : Cell) (ha : a.toNat % 4 = 0)
    (h : targetOf p a = .cell c) :
    a = c.addr := by
  have hb := Params.wf_bounds hp
  have hl := targetOf_cell_lt p a c h
  have hal := a.isLt
  unfold targetOf at h
  simp only [(region_offset_eq _).1, (region_offset_eq _).2] at h
  split at h
  · split at h <;> cases h
  · next hr => split at h <;> cases h; apply BitVec.eq_of_toNat_eq; simp only [Cell.addr, BitVec.toNat_ofNat]; omega
  · next hr => split at h <;> cases h; apply BitVec.eq_of_toNat_eq; simp only [Cell.addr, BitVec.toNat_ofNat]; omega
  · next hr => split at h <;> cases h; apply BitVec.eq_of_toNat_eq; simp only [Cell.addr, BitVec.toNat_ofNat]; omega
  · next hr =>
    split at h <;> cases h
    have : a.toNat % 1048576 % 16 / 4 = 0 ∨ a.toNat % 1048576 % 16 / 4 = 1 ∨ a.toNat % 1048576 % 16 / 4 = 2 ∨ a.toNat % 1048576 % 16 / 4 = 3 := by omega
    rcases this with h | h | h | h <;> rw [h] <;> apply BitVec.eq_of_toNat_eq <;> simp only [ctField, Cell.addr, BitVec.toNat_ofNat] <;> omega
  · cases h

end Sys2Proof.Machine
end

