-- ==== Sys2Proof/Laws/Command.lean ====
section
/-! SUPPORT. How a command's computation runs: its checks, its reads, and what a completion step can answer
(spec/40_host_interface.md R118 to R124). -/

namespace Sys2Proof.Machine

/-! ### Sequencing -/

/-- A computation in sequence answers `r` exactly when its first part answers some `a` and its second part, on `a`,
answers `r`. -/
theorem bind_eq_ok {α β : Type} (x : Except Stop α) (f : α → Except Stop β) (r : β) :
    (x >>= f) = .ok r ↔ ∃ a, x = .ok a ∧ f a = .ok r := by
  cases x <;> simp [bind, Except.bind]

/-- A computation in sequence stops in its first part, or in its second. -/
theorem bind_eq_error {α β : Type} (x : Except Stop α) (f : α → Except Stop β) (e : Stop) :
    (x >>= f) = .error e ↔ x = .error e ∨ ∃ a, x = .ok a ∧ f a = .error e := by
  cases x <;> simp [bind, Except.bind]

@[simp] theorem ok_bind {α β : Type} (a : α) (f : α → Except Stop β) : ((.ok a : Except Stop α) >>= f) = f a := rfl

@[simp] theorem error_bind {α β : Type} (e : Stop) (f : α → Except Stop β) :
    ((.error e : Except Stop α) >>= f) = .error e := rfl

/-! ### Checks -/

@[simp] theorem raiseIf_true (code : ErrCode) (info : Word) : raiseIf true code info = .error (.raised code info) := rfl

@[simp] theorem raiseIf_false (code : ErrCode) (info : Word) : raiseIf false code info = .ok () := rfl

theorem raiseIf_eq_ok (b : Bool) (code : ErrCode) (info : Word) (u : Unit) :
    raiseIf b code info = .ok u ↔ b = false := by
  cases b <;> simp [raiseIf]

theorem raiseIf_eq_error (b : Bool) (code : ErrCode) (info : Word) (e : Stop) :
    raiseIf b code info = .error e ↔ b = true ∧ e = .raised code info := by
  cases b <;> simp [raiseIf, eq_comm]

theorem checkLength_eq_ok (len depth : Nat) (id : Word) (u : Unit) :
    checkLength len depth id = .ok u ↔ len ≤ depth := by
  simp [checkLength, raiseIf_eq_ok]

theorem checkLength_eq_error (len depth : Nat) (id : Word) (e : Stop) :
    checkLength len depth id = .error e ↔ depth < len ∧ e = .raised .badLength id := by
  simp [checkLength, raiseIf_eq_error]

theorem checkCapacity_eq_ok (size depth : Nat) (id : Word) (u : Unit) :
    checkCapacity size depth id = .ok u ↔ size ≤ depth := by
  simp [checkCapacity, raiseIf_eq_ok]

theorem checkCapacity_eq_error (size depth : Nat) (id : Word) (e : Stop) :
    checkCapacity size depth id = .error e ↔ depth < size ∧ e = .raised .capacity id := by
  simp [checkCapacity, raiseIf_eq_error]

/-! ### Reads of the snapshot -/

theorem Snapshot.cell_eq_ok (snap : Snapshot) (c : Cell) (v : Word) :
    snap.cell c = .ok v ↔ snap.mems.read c = some v := by
  unfold Snapshot.cell
  split <;> simp_all

theorem Snapshot.cell_eq_error (snap : Snapshot) (c : Cell) (e : Stop) :
    snap.cell c = .error e ↔ snap.mems.read c = none ∧ e = .unwritten c := by
  unfold Snapshot.cell
  cases snap.mems.read c <;> simp [eq_comm]

/-- `Seq` answers a text exactly when it has the asked length and the entries hold it. -/
theorem Snapshot.seqFrom_eq_ok (snap : Snapshot) (mk : Nat → Cell) (k n : Nat) (t : List Word) :
    snap.seqFrom mk k n = .ok t ↔ t.length = n ∧ ∀ j, j < n → snap.mems.read (mk (k + j)) = t[j]? := by
  induction n generalizing k t with
  | zero => simp [Snapshot.seqFrom]
  | succ n ih =>
    simp only [Snapshot.seqFrom, bind_eq_ok, Snapshot.cell_eq_ok, ih, Except.ok.injEq]
    constructor
    · rintro ⟨v, hv, rest, ⟨hlen, hrest⟩, rfl⟩
      refine ⟨by simp [hlen], fun j hj => ?_⟩
      cases j with
      | zero => simpa using hv
      | succ j => simpa [Nat.add_assoc, Nat.add_comm 1 j] using hrest j (by omega)
    · rintro ⟨hlen, h⟩
      cases t with
      | nil => simp at hlen
      | cons v rest =>
        refine ⟨v, by simpa using h 0 (by omega), rest, ⟨by simpa using hlen, fun j hj => ?_⟩, rfl⟩
        simpa [Nat.add_assoc, Nat.add_comm 1 j] using h (j + 1) (by omega)

theorem Snapshot.seq_eq_ok (snap : Snapshot) (mk : Nat → Cell) (n : Nat) (t : List Word) :
    snap.seq mk n = .ok t ↔ t.length = n ∧ snap.Holds mk t := by
  rw [Snapshot.seq, Snapshot.seqFrom_eq_ok, Snapshot.Holds]
  constructor <;> rintro ⟨rfl, h⟩ <;> exact ⟨rfl, by simpa using h⟩

/-- `Seq` stops only on an entry of its range that holds no value. -/
theorem Snapshot.seqFrom_eq_error (snap : Snapshot) (mk : Nat → Cell) (k n : Nat) (e : Stop)
    (h : snap.seqFrom mk k n = .error e) : ∃ j, j < n ∧ snap.mems.read (mk (k + j)) = none ∧ e = .unwritten (mk (k + j)) := by
  induction n generalizing k with
  | zero => simp [Snapshot.seqFrom] at h
  | succ n ih =>
    simp only [Snapshot.seqFrom, bind_eq_error, Snapshot.cell_eq_error] at h
    rcases h with ⟨h, rfl⟩ | ⟨v, hv, h | ⟨_, _, h⟩⟩
    · exact ⟨0, by omega, by simpa using h, rfl⟩
    · obtain ⟨j, hj, hr, rfl⟩ := ih (k + 1) h
      exact ⟨j + 1, by omega, by simpa [Nat.add_assoc, Nat.add_comm 1 j] using hr,
        by simp [Nat.add_assoc, Nat.add_comm 1 j]⟩
    · simp at h

theorem Snapshot.seq_eq_error (snap : Snapshot) (mk : Nat → Cell) (n : Nat) (e : Stop) (h : snap.seq mk n = .error e) :
    ∃ j, j < n ∧ snap.mems.read (mk j) = none ∧ e = .unwritten (mk j) := by
  simpa using snap.seqFrom_eq_error mk 0 n e h

/-! ### Completion -/

/-- Everything a completion step can answer (R118). -/
theorem State.complete_eq_next (s t : State) (r : Except Stop Outputs) :
    s.complete r = .next t ↔
      (∃ out, r = .ok out ∧ t = s.commitOk out) ∨
      (∃ code info, r = .error (.raised code info) ∧ t = s.commitFail code info) := by
  unfold State.complete
  split <;> simp [eq_comm]

theorem State.complete_eq_fault (s : State) (r : Except Stop Outputs) (f : Fault) :
    s.complete r = .fault f ↔ ∃ c, r = .error (.unwritten c) ∧ f = .unwrittenRead c := by
  unfold State.complete
  split <;> simp [eq_comm]

theorem State.complete_ne_refused (s : State) (r : Except Stop Outputs) (x : Refusal) : s.complete r ≠ .refused x := by
  unfold State.complete
  split <;> simp

/-- The result function of a command (R123). -/
def resultOf (i : Instr) (p : Params) (snap : Snapshot) : Except Stop Outputs :=
  match i with
  | .build => fBuild p snap
  | .sfEncode => fSfEncode p snap
  | .sfDecode => fSfDecode p snap
  | .lzEncode => fLzEncode p snap
  | .lzDecode => fLzDecode p snap
  | .compress => fCompress p snap
  | .decompress => fDecompress p snap

/-- Every command is the completion of its result. -/
theorem exec_eq (i : Instr) (s : State) : exec i s = s.complete (resultOf i s.params s.inputs) := by
  cases i <;> rfl

end Sys2Proof.Machine
end

