-- ==== Sys2Proof/Laws/Lz77.lean ====
section
/-! SUPPORT. The laws of the LZ77 stage: how a token body splits, what a copy appends, what one pass of the decoder's loop
does, and what the search at one cursor finds (spec/42_lz77.md). -/

namespace Sys2Proof.Machine

/-! ### Splitting at a character -/

theorem breakAt_eq_none (sep : Word) (l : List Word) : breakAt sep l = none ↔ sep ∉ l := by
  induction l with
  | nil => simp [breakAt]
  | cons c rest ih =>
    simp only [breakAt]
    split
    · next h => simp [h]
    · next h =>
      cases hb : breakAt sep rest with
      | none => simp [Ne.symm h, ih.1 hb]
      | some r =>
        have : sep ∈ rest := by by_contra hn; rw [ih.2 hn] at hb; cases hb
        simp [this]

theorem breakAt_eq_some (sep : Word) (l a r : List Word) :
    breakAt sep l = some (a, r) ↔ l = a ++ sep :: r ∧ sep ∉ a := by
  induction l generalizing a with
  | nil => simp [breakAt]
  | cons c rest ih =>
    simp only [breakAt]
    split
    · next h =>
      subst h
      constructor
      · intro h; simp at h; obtain ⟨rfl, rfl⟩ := h; simp
      · rintro ⟨h, hn⟩
        cases a with
        | nil => simp at h; simp [h]
        | cons x a => simp at h hn; exact absurd h.1 hn.1
    · next h =>
      constructor
      · intro hb
        cases hr : breakAt sep rest with
        | none => simp [hr] at hb
        | some p =>
          obtain ⟨before, after⟩ := p
          simp [hr] at hb
          obtain ⟨rfl, rfl⟩ := hb
          obtain ⟨rfl, hn⟩ := (ih before).1 hr
          simp [Ne.symm h, hn]
      · rintro ⟨hl, hn⟩
        cases a with
        | nil => simp at hl; exact absurd hl.1 h
        | cons x a =>
          simp at hl hn
          obtain ⟨rfl, rfl⟩ := hl
          rw [(ih a).2 ⟨rfl, hn.2⟩]

/-- A body parses exactly when it has the form of R199 and R200. -/
theorem parseBody_eq_some (body : List Word) (k : Token) :
    parseBody body = some k ↔ ∃ a b, TokenBody body a b k.next ∧ k.off = val a ∧ k.len = val b := by
  unfold parseBody
  constructor
  · intro h
    split at h
    · cases h
    · next a rest ha =>
      split at h
      · cases h
      · next b c hb =>
        split at h
        · next hc =>
          simp only [Bool.and_eq_true, decide_eq_true_eq] at hc
          obtain ⟨⟨⟨⟨h1, h2⟩, h3⟩, h4⟩, h5⟩ := hc
          obtain ⟨rfl, hna⟩ := (breakAt_eq_some _ _ _ _).1 ha
          obtain ⟨rfl, hnb⟩ := (breakAt_eq_some _ _ _ _).1 hb
          cases h
          exact ⟨a, b, ⟨rfl, hna, hnb, h1, h2, h3, h4, h5⟩, rfl, rfl⟩
        · cases h
  · rintro ⟨a, b, h, ho, hl⟩
    rw [(breakAt_eq_some _ _ _ _).2 ⟨h.split, h.first⟩]
    simp only
    rw [(breakAt_eq_some _ _ _ _).2 ⟨rfl, h.second⟩]
    have hA := h.boundA
    have hB := h.boundB
    rw [← ho] at hA
    rw [← hl] at hB
    simp only [h.digitsA, h.digitsB, h.oneChar, ← ho, ← hl, hA, hB, decide_true, Bool.and_self, if_true]

theorem parseBody_eq_none (body : List Word) : parseBody body = none ↔ ∀ a b c, ¬ TokenBody body a b c := by
  constructor
  · intro h a b c hb
    rw [(parseBody_eq_some body ⟨val a, val b, c⟩).2 ⟨a, b, hb, rfl, rfl⟩] at h
    cases h
  · intro h
    cases hp : parseBody body with
    | none => rfl
    | some k =>
      obtain ⟨a, b, hb, _⟩ := (parseBody_eq_some body k).1 hp
      exact absurd hb (h _ _ _)

/-! ### Copies -/

theorem copyBack_length (off len : Nat) (rev : List Word) : (copyBack off len rev).length = rev.length + len := by
  induction len generalizing rev with
  | zero => rfl
  | succ len ih => simp [copyBack, ih]; omega

/-- A copy from a legal distance appends characters `copy`, each the one `off` places before it (R202). -/
theorem copyBack_eq (off len : Nat) (out : List Word) (h1 : 1 ≤ off) (h2 : off ≤ out.length) :
    ∃ copy : List Word, copy.length = len ∧ copyBack off len out.reverse = (out ++ copy).reverse ∧
      ∀ k, k < len → copy[k]? = (out ++ copy)[out.length - off + k]? := by
  induction len generalizing out with
  | zero => exact ⟨[], rfl, by simp [copyBack], by simp⟩
  | succ len ih =>
    have hlt : out.length - off < out.length := by omega
    obtain ⟨copy, hlen, heq, hcopy⟩ := ih (out ++ [out[out.length - off]]) (by simp; omega)
    refine ⟨out[out.length - off] :: copy, by simp [hlen], ?_, fun k hk => ?_⟩
    · have : out.reverse.getD (off - 1) 0 = out[out.length - off] := by
        rw [List.getD_eq_getElem?_getD, List.getElem?_reverse (by omega)]
        rw [show out.length - 1 - (off - 1) = out.length - off by omega, List.getElem?_eq_getElem hlt]
        rfl
      simp only [copyBack, this]
      simpa using heq
    · cases k with
      | zero =>
        rw [Nat.add_zero, List.getElem?_append_left hlt, List.getElem?_eq_getElem hlt]
        rfl
      | succ k =>
        have := hcopy k (by omega)
        simp only [List.length_append, List.length_cons, List.length_nil, List.append_assoc, List.cons_append,
          List.nil_append] at this
        rw [List.getElem?_cons_succ, this]
        congr 1
        omega

/-- A list is fixed by its length and by the rule that each entry equals the one `d` places before it. -/
theorem copy_unique (out : List Word) (d n : Nat) (h1 : 1 ≤ d) (h2 : d ≤ out.length) (u v : List Word)
    (hu : u.length = n) (hv : v.length = n)
    (eu : ∀ k, k < n → u[k]? = (out ++ u)[out.length - d + k]?)
    (ev : ∀ k, k < n → v[k]? = (out ++ v)[out.length - d + k]?) : u = v := by
  have key : ∀ k, k < n → u[k]? = v[k]? := by
    intro k
    induction k using Nat.strong_induction_on with
    | _ k ih =>
      intro hk
      rw [eu k hk, ev k hk]
      by_cases hd : out.length - d + k < out.length
      · rw [List.getElem?_append_left hd, List.getElem?_append_left hd]
      · rw [List.getElem?_append_right (by omega), List.getElem?_append_right (by omega)]
        exact ih _ (by omega) (by omega)
  apply List.ext_getElem?
  intro k
  by_cases hk : k < n
  · exact key k hk
  · rw [List.getElem?_eq_none (by omega), List.getElem?_eq_none (by omega)]

/-- What a copy appends, when it is described by R202's rule. -/
theorem copyBack_of_copy (off len : Nat) (out copy : List Word) (h : 1 ≤ len → 1 ≤ off ∧ off ≤ out.length)
    (hlen : copy.length = len) (hcopy : ∀ k, k < len → copy[k]? = (out ++ copy)[out.length - off + k]?) :
    copyBack off len out.reverse = (out ++ copy).reverse := by
  cases len with
  | zero => rw [List.length_eq_zero_iff.1 hlen]; simp [copyBack]
  | succ len =>
    obtain ⟨h1, h2⟩ := h (by omega)
    obtain ⟨c, hl, he, hc⟩ := copyBack_eq off (len + 1) out h1 h2
    rw [he, copy_unique out off (len + 1) h1 h2 c copy hl hlen hc hcopy]

/-! ### One pass of the decoder's loop -/

theorem scanFrom_nil (limit fuel q : Nat) (rev : List Word) : scanFrom limit fuel q [] rev = (rev, none) := by
  cases fuel <;> rfl

theorem scanFrom_raw (limit fuel q : Nat) (c : Word) (rest rev : List Word) (h : c ≠ chLess) :
    scanFrom limit (fuel + 1) q (c :: rest) rev = scanFrom limit fuel (q + 1) rest (c :: rev) := by
  simp [scanFrom, h]

theorem scanFrom_unterminated (limit fuel q : Nat) (rest rev : List Word) (h : chGreater ∉ rest) :
    scanFrom limit (fuel + 1) q (chLess :: rest) rev = (rev, some (.unterminated, q)) := by
  simp [scanFrom, (breakAt_eq_none _ _).2 h]

theorem scanFrom_badField (limit fuel q : Nat) (body after rev : List Word) (h : chGreater ∉ body)
    (hb : ∀ a b c, ¬ TokenBody body a b c) :
    scanFrom limit (fuel + 1) q (chLess :: (body ++ chGreater :: after)) rev = (rev, some (.badField, q)) := by
  simp [scanFrom, (breakAt_eq_some _ _ body after).2 ⟨rfl, h⟩, (parseBody_eq_none _).2 hb]

theorem scanFrom_badOffset (limit fuel q : Nat) (body after rev a b c : List Word) (h : chGreater ∉ body)
    (hb : TokenBody body a b c) (h1 : 1 ≤ val b) (h2 : val a = 0 ∨ rev.length < val a) :
    scanFrom limit (fuel + 1) q (chLess :: (body ++ chGreater :: after)) rev = (rev, some (.badOffset, q)) := by
  have hp := (parseBody_eq_some body ⟨val a, val b, c⟩).2 ⟨a, b, hb, rfl, rfl⟩
  simp only [scanFrom, (breakAt_eq_some _ _ body after).2 ⟨rfl, h⟩, hp]
  simp [h1, h2]

theorem scanFrom_token (limit fuel q : Nat) (body after rev a b c : List Word) (h : chGreater ∉ body)
    (hb : TokenBody body a b c) (h1 : 1 ≤ val b → 1 ≤ val a ∧ val a ≤ rev.length) :
    scanFrom limit (fuel + 1) q (chLess :: (body ++ chGreater :: after)) rev =
      scanFrom limit fuel (q + body.length + 2) after (c ++ copyBack (val a) (min (val b) (limit + 1)) rev) := by
  have hp := (parseBody_eq_some body ⟨val a, val b, c⟩).2 ⟨a, b, hb, rfl, rfl⟩
  simp only [scanFrom, (breakAt_eq_some _ _ body after).2 ⟨rfl, h⟩, hp]
  have hn : ¬ (val b ≥ 1 ∧ (val a = 0 ∨ val a > rev.length)) := by
    rintro ⟨h2, h3⟩
    have := h1 h2
    omega
  simp [hn]

/-- The output only grows (R206). -/
theorem scanFrom_length (limit fuel q : Nat) (rest rev : List Word) :
    rev.length ≤ (scanFrom limit fuel q rest rev).1.length := by
  induction fuel generalizing q rest rev with
  | zero => simp [scanFrom]
  | succ fuel ih =>
    cases rest with
    | nil => simp [scanFrom]
    | cons c rest =>
      simp only [scanFrom]
      split
      · exact (by simp : rev.length ≤ (c :: rev).length).trans (ih _ _ _)
      · split
        · exact Nat.le_refl _
        · split
          · exact Nat.le_refl _
          · split
            · exact Nat.le_refl _
            · exact (by simp [copyBack_length]; omega : rev.length ≤ (_ ++ copyBack _ _ rev).length).trans (ih _ _ _)

/-- A truncation record always names one of the three causes (R242). -/
theorem scanFrom_cause (limit fuel q : Nat) (rest rev : List Word) (c : TruncCause) (pos : Nat)
    (h : (scanFrom limit fuel q rest rev).2 = some (c, pos)) : c ≠ .noTrunc := by
  induction fuel generalizing q rest rev with
  | zero => simp [scanFrom] at h
  | succ fuel ih =>
    cases rest with
    | nil => simp [scanFrom] at h
    | cons x rest =>
      simp only [scanFrom] at h
      split at h
      · exact ih _ _ _ h
      · split at h
        · simp at h; simp [← h.1]
        · split at h
          · simp at h; simp [← h.1]
          · split at h
            · simp at h; simp [← h.1]
            · exact ih _ _ _ h

/-! ### The search at one cursor -/

theorem mem_occurrences (s : List Word) (ws i j p : Nat) :
    p ∈ occurrences s ws i j ↔ ws ≤ p ∧ p + j ≤ i ∧ slice s p j = slice s i j := by
  simp only [occurrences, List.mem_filter, List.mem_range'_1, decide_eq_true_eq]
  constructor
  · rintro ⟨⟨h1, h2⟩, h3⟩; exact ⟨h1, by omega, h3⟩
  · rintro ⟨h1, h2, h3⟩; exact ⟨⟨h1, by omega⟩, h3⟩

/-- An occurrence of a length is one of every smaller length (R183). -/
theorem slice_eq_of_le (s : List Word) (p i j k : Nat) (hk : k ≤ j) (h : slice s p j = slice s i j) :
    slice s p k = slice s i k := by
  have := congrArg (List.take k) h
  simpa [slice, List.take_take, Nat.min_eq_left hk] using this

/-! ### Decimal digits (R12) -/

theorem digitChar_toNat (d : Nat) (h : d < 10) : (digitChar d).toNat = 48 + d := by
  simp [digitChar]; omega

theorem isDigit_digitChar (d : Nat) (h : d < 10) : isDigit (digitChar d) = true := by
  simp [isDigit, digitChar_toNat d h, chZero, chNine]; omega

theorem val_app (acc : Nat) (f : List Word) :
    f.foldl (fun acc c => 10 * acc + (c.toNat - chZero.toNat)) acc = acc * 10 ^ f.length + val f := by
  induction f generalizing acc with
  | nil => simp [val]
  | cons c f ih => simp only [val, List.foldl_cons, List.length_cons]; rw [ih, ih (10*0+_)]; ring

theorem val_cons (c : Word) (f : List Word) : val (c :: f) = (c.toNat - 48) * 10 ^ f.length + val f := by
  rw [val, List.foldl_cons, val_app]; simp [chZero]

end Sys2Proof.Machine
end

