-- ==== Sys2Proof/Laws/PerInstr.lean ====
section
/-! SUPPORT. Facts about every instruction as syntax, one lemma a constructor. -/

namespace Sys2Proof.Laws

namespace WordLegal

/-- The word of every command is a legal command word (R82): RSVD is 0 and OP holds its whole value. -/
def Statement (i : Instr) : Prop :=
  i.wf = true ∧ commandWordWf (encode i) = true ∧ rsvdField (encode i) = 0 ∧ (opField (encode i)).toNat = (encode i).toNat

theorem build : Statement .build := by unfold Statement; decide
theorem sfEncode : Statement .sfEncode := by unfold Statement; decide
theorem sfDecode : Statement .sfDecode := by unfold Statement; decide
theorem lzEncode : Statement .lzEncode := by unfold Statement; decide
theorem lzDecode : Statement .lzDecode := by unfold Statement; decide
theorem compress : Statement .compress := by unfold Statement; decide
theorem decompress : Statement .decompress := by unfold Statement; decide

end WordLegal

end Sys2Proof.Laws
end

