-- ==== Sys2Proof/Laws/Results.lean ====
section
/-! SUPPORT. One lemma per command: everything it computes when it succeeds, and everything that stops it, in the order
of its checks (spec/60_exceptions.md R244). -/

namespace Sys2Proof.Machine

theorem exists_unit (q : Unit → Prop) : (∃ u, q u) ↔ q () := ⟨fun ⟨_, h⟩ => h, fun h => ⟨(), h⟩⟩

variable (p : Params) (snap : Snapshot) (out : Outputs)

theorem fBuild_eq_ok : fBuild p snap = .ok out ↔
    snap.regs.txtLen.toNat ≤ p.txtDepth ∧ snap.regs.txtLen.toNat ≠ 0 ∧
    ∃ t, snap.seq .txt snap.regs.txtLen.toNat = .ok t ∧ (tally t).length ≤ p.ctDepth ∧
      out = { writes := tableWrites 0 (buildTable t) ++ [(.alphaN, BitVec.ofNat 32 (tally t).length)], tail := 0,
              trunc := none } := by
  simp only [fBuild, bind_eq_ok, exists_unit, checkLength_eq_ok, raiseIf_eq_ok, checkCapacity_eq_ok, Except.ok.injEq,
    decide_eq_false_iff_not]
  simp [eq_comm]

theorem fSfEncode_eq_ok : fSfEncode p snap = .ok out ↔
    snap.regs.txtLen.toNat ≤ p.txtDepth ∧ snap.tableOk p = .ok () ∧
    ∃ t, snap.seq .txt snap.regs.txtLen.toNat = .ok t ∧
      ∃ b, snap.encodeFrom snap.regs.alphaN.toNat 0 t = .ok b ∧ b.length ≤ p.bstrDepth ∧
        out = { writes := seqWrites .bstr 0 b ++ [(.bstrLen, BitVec.ofNat 32 b.length)], tail := 0, trunc := none } := by
  simp only [fSfEncode, bind_eq_ok, exists_unit, checkLength_eq_ok, checkCapacity_eq_ok, Except.ok.injEq]
  simp [eq_comm]

theorem fSfDecode_eq_ok : fSfDecode p snap = .ok out ↔
    snap.regs.bstrLen.toNat ≤ p.bstrDepth ∧ snap.tableOk p = .ok () ∧
    ∃ b, snap.seq .bstr snap.regs.bstrLen.toNat = .ok b ∧
      ∃ r, snap.scanBits snap.regs.alphaN.toNat [] b = .ok r ∧ r.1.length ≤ p.txtDepth ∧
        out = { writes := seqWrites .txt 0 r.1 ++ [(.txtLen, BitVec.ofNat 32 r.1.length)], tail := r.2,
                trunc := none } := by
  simp only [fSfDecode, bind_eq_ok, exists_unit, checkLength_eq_ok, checkCapacity_eq_ok, Except.ok.injEq]
  simp [eq_comm]

theorem fLzEncode_eq_ok : fLzEncode p snap = .ok out ↔
    snap.regs.bstrLen.toNat ≤ p.bstrDepth ∧
    ∃ s, snap.seq .bstr snap.regs.bstrLen.toNat = .ok s ∧ (lzText s snap.regs.window.toNat).length ≤ p.tokDepth ∧
      out = { writes := seqWrites .tok 0 (lzText s snap.regs.window.toNat) ++
                [(.tokLen, BitVec.ofNat 32 (lzText s snap.regs.window.toNat).length)], tail := 0, trunc := none } := by
  simp only [fLzEncode, bind_eq_ok, exists_unit, checkLength_eq_ok, checkCapacity_eq_ok, Except.ok.injEq]
  simp [eq_comm]

theorem fLzDecode_eq_ok : fLzDecode p snap = .ok out ↔
    snap.regs.tokLen.toNat ≤ p.tokDepth ∧
    ∃ t, snap.seq .tok snap.regs.tokLen.toNat = .ok t ∧ (lzDecode p.bstrDepth t).1.length ≤ p.bstrDepth ∧
      out = { writes := seqWrites .bstr 0 (lzDecode p.bstrDepth t).1 ++
                [(.bstrLen, BitVec.ofNat 32 (lzDecode p.bstrDepth t).1.length)], tail := 0,
              trunc := (lzDecode p.bstrDepth t).2 } := by
  simp only [fLzDecode, bind_eq_ok, exists_unit, checkLength_eq_ok, checkCapacity_eq_ok, Except.ok.injEq]
  simp [eq_comm]

/-- The writes of COMPRESS for a text with window `w` (R221). -/
def compressWrites (t : List Word) (w : Nat) : List (Loc × Word) :=
  tableWrites 0 (buildTable t) ++ [(.alphaN, BitVec.ofNat 32 (tally t).length)] ++
  (seqWrites .bstr 0 (encodeWith (buildTable t) t) ++
    [(.bstrLen, BitVec.ofNat 32 (encodeWith (buildTable t) t).length)]) ++
  (seqWrites .tok 0 (lzText (encodeWith (buildTable t) t) w) ++
    [(.tokLen, BitVec.ofNat 32 (lzText (encodeWith (buildTable t) t) w).length)])

theorem fCompress_eq_ok : fCompress p snap = .ok out ↔
    snap.regs.txtLen.toNat ≤ p.txtDepth ∧ snap.regs.txtLen.toNat ≠ 0 ∧
    ∃ t, snap.seq .txt snap.regs.txtLen.toNat = .ok t ∧ (tally t).length ≤ p.ctDepth ∧
      (encodeWith (buildTable t) t).length ≤ p.bstrDepth ∧
      (lzText (encodeWith (buildTable t) t) snap.regs.window.toNat).length ≤ p.tokDepth ∧
      out = { writes := compressWrites t snap.regs.window.toNat, tail := 0, trunc := none } := by
  simp only [fCompress, bind_eq_ok, exists_unit, checkLength_eq_ok, raiseIf_eq_ok, checkCapacity_eq_ok, Except.ok.injEq,
    decide_eq_false_iff_not]
  simp [compressWrites, eq_comm]

theorem fDecompress_eq_ok : fDecompress p snap = .ok out ↔
    snap.regs.tokLen.toNat ≤ p.tokDepth ∧ snap.tableOk p = .ok () ∧
    ∃ t, snap.seq .tok snap.regs.tokLen.toNat = .ok t ∧ (lzDecode p.bstrDepth t).1.length ≤ p.bstrDepth ∧
      ∃ r, snap.scanBits snap.regs.alphaN.toNat [] (lzDecode p.bstrDepth t).1 = .ok r ∧ r.1.length ≤ p.txtDepth ∧
        out = { writes := (seqWrites .bstr 0 (lzDecode p.bstrDepth t).1 ++
                    [(.bstrLen, BitVec.ofNat 32 (lzDecode p.bstrDepth t).1.length)]) ++
                  (seqWrites .txt 0 r.1 ++ [(.txtLen, BitVec.ofNat 32 r.1.length)]), tail := r.2,
                trunc := (lzDecode p.bstrDepth t).2 } := by
  simp only [fDecompress, bind_eq_ok, exists_unit, checkLength_eq_ok, checkCapacity_eq_ok, Except.ok.injEq]
  simp [eq_comm]

/-! ### Stops -/

variable (e : Stop)

theorem fBuild_eq_error : fBuild p snap = .error e ↔
    (p.txtDepth < snap.regs.txtLen.toNat ∧ e = .raised .badLength memIdTxt) ∨
    (snap.regs.txtLen.toNat ≤ p.txtDepth ∧ ((snap.regs.txtLen.toNat = 0 ∧ e = .raised .emptyInput 0) ∨
    (snap.regs.txtLen.toNat ≠ 0 ∧
      (snap.seq .txt snap.regs.txtLen.toNat = .error e ∨
        ∃ t, snap.seq .txt snap.regs.txtLen.toNat = .ok t ∧ p.ctDepth < (tally t).length ∧
          e = .raised .capacity memIdCt)))) := by
  simp only [fBuild, bind_eq_error, exists_unit, checkLength_eq_ok, checkLength_eq_error, raiseIf_eq_ok, raiseIf_eq_error,
    checkCapacity_eq_error, decide_eq_false_iff_not, decide_eq_true_eq]
  simp

theorem fSfEncode_eq_error : fSfEncode p snap = .error e ↔
    (p.txtDepth < snap.regs.txtLen.toNat ∧ e = .raised .badLength memIdTxt) ∨
    (snap.regs.txtLen.toNat ≤ p.txtDepth ∧ (snap.tableOk p = .error e ∨
      (snap.tableOk p = .ok () ∧ (snap.seq .txt snap.regs.txtLen.toNat = .error e ∨
        ∃ t, snap.seq .txt snap.regs.txtLen.toNat = .ok t ∧
          (snap.encodeFrom snap.regs.alphaN.toNat 0 t = .error e ∨
            ∃ b, snap.encodeFrom snap.regs.alphaN.toNat 0 t = .ok b ∧ p.bstrDepth < b.length ∧
              e = .raised .capacity memIdBstr))))) := by
  simp only [fSfEncode, bind_eq_error, exists_unit, checkLength_eq_ok, checkLength_eq_error, checkCapacity_eq_error]
  simp

theorem fSfDecode_eq_error : fSfDecode p snap = .error e ↔
    (p.bstrDepth < snap.regs.bstrLen.toNat ∧ e = .raised .badLength memIdBstr) ∨
    (snap.regs.bstrLen.toNat ≤ p.bstrDepth ∧ (snap.tableOk p = .error e ∨
      (snap.tableOk p = .ok () ∧ (snap.seq .bstr snap.regs.bstrLen.toNat = .error e ∨
        ∃ b, snap.seq .bstr snap.regs.bstrLen.toNat = .ok b ∧
          (snap.scanBits snap.regs.alphaN.toNat [] b = .error e ∨
            ∃ r, snap.scanBits snap.regs.alphaN.toNat [] b = .ok r ∧ p.txtDepth < r.1.length ∧
              e = .raised .capacity memIdTxt))))) := by
  simp only [fSfDecode, bind_eq_error, exists_unit, checkLength_eq_ok, checkLength_eq_error, checkCapacity_eq_error]
  simp

theorem fLzEncode_eq_error : fLzEncode p snap = .error e ↔
    (p.bstrDepth < snap.regs.bstrLen.toNat ∧ e = .raised .badLength memIdBstr) ∨
    (snap.regs.bstrLen.toNat ≤ p.bstrDepth ∧ (snap.seq .bstr snap.regs.bstrLen.toNat = .error e ∨
      ∃ s, snap.seq .bstr snap.regs.bstrLen.toNat = .ok s ∧ p.tokDepth < (lzText s snap.regs.window.toNat).length ∧
        e = .raised .capacity memIdTok)) := by
  simp only [fLzEncode, bind_eq_error, exists_unit, checkLength_eq_ok, checkLength_eq_error, checkCapacity_eq_error]
  simp

theorem fLzDecode_eq_error : fLzDecode p snap = .error e ↔
    (p.tokDepth < snap.regs.tokLen.toNat ∧ e = .raised .badLength memIdTok) ∨
    (snap.regs.tokLen.toNat ≤ p.tokDepth ∧ (snap.seq .tok snap.regs.tokLen.toNat = .error e ∨
      ∃ t, snap.seq .tok snap.regs.tokLen.toNat = .ok t ∧ p.bstrDepth < (lzDecode p.bstrDepth t).1.length ∧
        e = .raised .capacity memIdBstr)) := by
  simp only [fLzDecode, bind_eq_error, exists_unit, checkLength_eq_ok, checkLength_eq_error, checkCapacity_eq_error]
  simp

theorem fCompress_eq_error : fCompress p snap = .error e ↔
    (p.txtDepth < snap.regs.txtLen.toNat ∧ e = .raised .badLength memIdTxt) ∨
    (snap.regs.txtLen.toNat ≤ p.txtDepth ∧ ((snap.regs.txtLen.toNat = 0 ∧ e = .raised .emptyInput 0) ∨
    (snap.regs.txtLen.toNat ≠ 0 ∧
      (snap.seq .txt snap.regs.txtLen.toNat = .error e ∨
        ∃ t, snap.seq .txt snap.regs.txtLen.toNat = .ok t ∧
          ((p.ctDepth < (tally t).length ∧ e = .raised .capacity memIdCt) ∨
           ((tally t).length ≤ p.ctDepth ∧
            ((p.bstrDepth < (encodeWith (buildTable t) t).length ∧ e = .raised .capacity memIdBstr) ∨
             ((encodeWith (buildTable t) t).length ≤ p.bstrDepth ∧
              p.tokDepth < (lzText (encodeWith (buildTable t) t) snap.regs.window.toNat).length ∧
              e = .raised .capacity memIdTok)))))))) := by
  simp only [fCompress, bind_eq_error, exists_unit, checkLength_eq_ok, checkLength_eq_error, raiseIf_eq_ok, raiseIf_eq_error,
    checkCapacity_eq_ok, checkCapacity_eq_error, decide_eq_false_iff_not, decide_eq_true_eq]
  simp

theorem fDecompress_eq_error : fDecompress p snap = .error e ↔
    (p.tokDepth < snap.regs.tokLen.toNat ∧ e = .raised .badLength memIdTok) ∨
    (snap.regs.tokLen.toNat ≤ p.tokDepth ∧ (snap.tableOk p = .error e ∨
      (snap.tableOk p = .ok () ∧ (snap.seq .tok snap.regs.tokLen.toNat = .error e ∨
        ∃ t, snap.seq .tok snap.regs.tokLen.toNat = .ok t ∧
          ((p.bstrDepth < (lzDecode p.bstrDepth t).1.length ∧ e = .raised .capacity memIdBstr) ∨
           ((lzDecode p.bstrDepth t).1.length ≤ p.bstrDepth ∧
            (snap.scanBits snap.regs.alphaN.toNat [] (lzDecode p.bstrDepth t).1 = .error e ∨
              ∃ r, snap.scanBits snap.regs.alphaN.toNat [] (lzDecode p.bstrDepth t).1 = .ok r ∧
                p.txtDepth < r.1.length ∧ e = .raised .capacity memIdTxt))))))) := by
  simp only [fDecompress, bind_eq_error, exists_unit, checkLength_eq_ok, checkLength_eq_error, checkCapacity_eq_ok,
    checkCapacity_eq_error]
  simp

end Sys2Proof.Machine
end

