-- ==== Sys2Proof/Laws/Tables.lean ====
section
/-! SUPPORT. What the operations over a code table compute when its rows are known: TableOK, the lookup of a symbol, the
lookup of a code, and the loops of SF_ENCODE and SF_DECODE (spec/41_shannon_fano.md R152, R156, R166). -/

namespace Sys2Proof.Machine

/-! ### Rows -/

/-- Two rows that may not stand in one table (R152): equal symbols, or one code a prefix of the other. -/
def RowsClash (a b : TableRow) : Prop := a.sym = b.sym ∨ a.code <+: b.code ∨ b.code <+: a.code

theorem rowsValid_nil : RowsValid [] := ⟨by simp, List.Pairwise.nil⟩

theorem rowsValid_append (rows : List TableRow) (b : TableRow) :
    RowsValid (rows ++ [b]) ↔
      RowsValid rows ∧ (1 ≤ b.len.toNat ∧ b.len.toNat ≤ 32) ∧ ∀ a ∈ rows, ¬ RowsClash a b := by
  simp only [RowsValid, List.pairwise_append, List.mem_append, List.mem_singleton, List.pairwise_singleton, RowsClash]
  constructor
  · rintro ⟨h1, h2, _, h3⟩
    refine ⟨⟨fun r hr => h1 r (.inl hr), h2⟩, h1 b (.inr rfl), fun a ha hc => ?_⟩
    obtain ⟨x, y, z⟩ := h3 a ha b rfl
    tauto
  · rintro ⟨⟨h1, h2⟩, h3, h4⟩
    refine ⟨fun r hr => hr.elim (h1 r) fun e => e ▸ h3, h2, trivial, fun a ha c hc => ?_⟩
    have := h4 a ha
    subst hc
    tauto

theorem TableRow.code_length (r : TableRow) : r.code.length = r.len.toNat := by simp [TableRow.code, codeString]

theorem RowsValid.code_ne_nil {rows : List TableRow} (h : RowsValid rows) {r : TableRow} (hr : r ∈ rows) : r.code ≠ [] := by
  intro he
  have := (h.1 r hr).1
  rw [← r.code_length, he] at this
  simp at this

/-- In a valid table no two rows clash but a row with itself. -/
theorem RowsValid.eq_of_clash {rows : List TableRow} (h : RowsValid rows) {a b : TableRow} (ha : a ∈ rows) (hb : b ∈ rows)
    (hc : RowsClash a b) : a = b := by
  obtain ⟨i, hi, rfl⟩ := List.getElem_of_mem ha
  obtain ⟨j, hj, rfl⟩ := List.getElem_of_mem hb
  have key := List.pairwise_iff_getElem.1 h.2
  rcases Nat.lt_trichotomy i j with hij | rfl | hij
  · obtain ⟨h1, h2, h3⟩ := key i j hi hj hij
    rcases hc with hc | hc | hc
    · exact absurd hc h1
    · exact absurd hc h2
    · exact absurd hc h3
  · rfl
  · obtain ⟨h1, h2, h3⟩ := key j i hj hi hij
    rcases hc with hc | hc | hc
    · exact absurd hc.symm h1
    · exact absurd hc h3
    · exact absurd hc h2

/-! ### Reads of a row -/

variable {snap : Snapshot} {rows : List TableRow}

theorem Snapshot.HoldsRows.sym_eq (h : snap.HoldsRows rows) {k : Nat} {r : TableRow} (hk : rows[k]? = some r) :
    snap.sym k = .ok r.sym := (Snapshot.cell_eq_ok _ _ _).2 (h k r hk).1

theorem Snapshot.HoldsRows.codeLen_eq (h : snap.HoldsRows rows) {k : Nat} {r : TableRow} (hk : rows[k]? = some r) :
    snap.codeLen k = .ok r.len.toNat := by
  simp [Snapshot.codeLen, (Snapshot.cell_eq_ok snap _ _).2 (h k r hk).2.1]

theorem Snapshot.HoldsRows.codeStr_eq (h : snap.HoldsRows rows) {k : Nat} {r : TableRow} (hk : rows[k]? = some r) :
    snap.codeStr k = .ok r.code := by
  simp [Snapshot.codeStr, h.codeLen_eq hk, (Snapshot.cell_eq_ok snap _ _).2 (h k r hk).2.2, TableRow.code]

theorem Snapshot.HoldsRows.clash_eq (h : snap.HoldsRows rows) {j k : Nat} {a b : TableRow} (hj : rows[j]? = some a)
    (hk : rows[k]? = some b) : ∃ x, snap.clash j k = .ok x ∧ (x = true ↔ RowsClash a b) := by
  simp only [Snapshot.clash, h.sym_eq hj, h.sym_eq hk, ok_bind]
  split
  · next e => exact ⟨true, rfl, by simp [RowsClash, e]⟩
  · next e =>
    refine ⟨_, by simp only [h.codeStr_eq hj, h.codeStr_eq hk, ok_bind]; rfl, ?_⟩
    simp [RowsClash, e, List.isPrefixOf_iff_prefix]

/-! ### TableOK (R152) -/

theorem Snapshot.HoldsRows.checkPairs_ok (h : snap.HoldsRows rows) {k : Nat} {b : TableRow} (hk : rows[k]? = some b)
    (l : List Nat) (hl : ∀ j ∈ l, ∃ a, rows[j]? = some a ∧ ¬ RowsClash a b) : snap.checkPairs k l = .ok () := by
  induction l with
  | nil => rfl
  | cons j l ih =>
    obtain ⟨a, ha, hc⟩ := hl j List.mem_cons_self
    obtain ⟨x, hx, hxc⟩ := h.clash_eq ha hk
    have : x = false := by rw [← hxc] at hc; simpa using hc
    simp [Snapshot.checkPairs, hx, this, ih fun j hj => hl j (List.mem_cons_of_mem _ hj)]

theorem Snapshot.HoldsRows.checkPairs_bad (h : snap.HoldsRows rows) {k : Nat} {b : TableRow} (hk : rows[k]? = some b)
    (l : List Nat) (hl : ∀ j ∈ l, ∃ a, rows[j]? = some a)
    (hb : ∃ j ∈ l, ∃ a, rows[j]? = some a ∧ RowsClash a b) :
    snap.checkPairs k l = .error (.raised .badTable (BitVec.ofNat 32 k)) := by
  induction l with
  | nil => obtain ⟨j, hj, _⟩ := hb; simp at hj
  | cons j l ih =>
    obtain ⟨a, ha⟩ := hl j List.mem_cons_self
    obtain ⟨x, hx, hxc⟩ := h.clash_eq ha hk
    by_cases hc : RowsClash a b
    · simp [Snapshot.checkPairs, hx, hxc.2 hc]
    · have hxf : x = false := by rw [← hxc] at hc; simpa using hc
      simp only [Snapshot.checkPairs, hx, hxf, ok_bind, raiseIf_false]
      refine ih (fun j hj => hl j (List.mem_cons_of_mem _ hj)) ?_
      obtain ⟨i, hi, c, hci, hcl⟩ := hb
      rcases List.mem_cons.1 hi with rfl | hi
      · rw [ha] at hci; cases hci; exact absurd hcl hc
      · exact ⟨i, hi, c, hci, hcl⟩

/-- A row after valid rows: the check passes exactly when the rows with it are still valid. -/
theorem Snapshot.HoldsRows.checkEntry_eq {pre : List TableRow} {b : TableRow} (h : snap.HoldsRows (pre ++ [b]))
    (hv : RowsValid pre) :
    (RowsValid (pre ++ [b]) → snap.checkEntry pre.length = .ok ()) ∧
    (¬ RowsValid (pre ++ [b]) →
      snap.checkEntry pre.length = .error (.raised .badTable (BitVec.ofNat 32 pre.length))) := by
  have hk : (pre ++ [b])[pre.length]? = some b := by simp
  have hj : ∀ j ∈ List.range pre.length, ∃ a, (pre ++ [b])[j]? = some a ∧ a ∈ pre := by
    intro j hj
    have hj : j < pre.length := by simpa using hj
    exact ⟨pre[j], by rw [List.getElem?_append_left hj, List.getElem?_eq_getElem hj], List.getElem_mem hj⟩
  rw [rowsValid_append]
  constructor
  · rintro ⟨_, hlen, hc⟩
    have : (decide (b.len.toNat < 1) || decide (b.len.toNat > Config.maxCodeLen)) = false := by
      simp [Config.maxCodeLen]; omega
    simp only [Snapshot.checkEntry, h.codeLen_eq hk, ok_bind, this, raiseIf_false]
    exact h.checkPairs_ok hk _ fun j hj' => let ⟨a, ha, hm⟩ := hj j hj'; ⟨a, ha, hc a hm⟩
  · intro hn
    simp only [Snapshot.checkEntry, h.codeLen_eq hk, ok_bind]
    by_cases hlen : 1 ≤ b.len.toNat ∧ b.len.toNat ≤ 32
    · have : (decide (b.len.toNat < 1) || decide (b.len.toNat > Config.maxCodeLen)) = false := by
        simp [Config.maxCodeLen]; omega
      simp only [this, raiseIf_false, ok_bind]
      refine h.checkPairs_bad hk _ (fun j hj' => let ⟨a, ha, _⟩ := hj j hj'; ⟨a, ha⟩) ?_
      by_contra hno
      refine hn ⟨hv, hlen, fun a ha hc => hno ?_⟩
      obtain ⟨j, hjl, rfl⟩ := List.getElem_of_mem ha
      exact ⟨j, by simpa using hjl, pre[j], by rw [List.getElem?_append_left hjl, List.getElem?_eq_getElem hjl], hc⟩
    · have : (decide (b.len.toNat < 1) || decide (b.len.toNat > Config.maxCodeLen)) = true := by
        simp [Config.maxCodeLen]; omega
      simp only [this, raiseIf_true, error_bind]

theorem Snapshot.checkEntries_append (snap : Snapshot) (l m : List Nat) :
    snap.checkEntries (l ++ m) = snap.checkEntries l >>= fun _ => snap.checkEntries m := by
  induction l with
  | nil => rfl
  | cons k l ih =>
    simp only [List.cons_append, Snapshot.checkEntries, ih]
    cases snap.checkEntry k <;> simp

theorem Snapshot.HoldsRows.take (h : snap.HoldsRows rows) (n : Nat) : snap.HoldsRows (rows.take n) := by
  intro k r hk
  refine h k r ?_
  rw [List.getElem?_take] at hk
  split at hk
  · exact hk
  · cases hk

theorem Snapshot.HoldsRows.of_append {pre post : List TableRow} (h : snap.HoldsRows (pre ++ post)) :
    snap.HoldsRows pre := by
  have := h.take pre.length
  simpa using this

theorem RowsValid.of_append {pre post : List TableRow} (h : RowsValid (pre ++ post)) : RowsValid pre :=
  ⟨fun r hr => h.1 r (List.mem_append_left _ hr), (List.pairwise_append.1 h.2).1⟩

/-- Valid rows pass. -/
theorem Snapshot.HoldsRows.checkEntries_ok (h : snap.HoldsRows rows) (hv : RowsValid rows) :
    snap.checkEntries (List.range rows.length) = .ok () := by
  induction rows using List.reverseRecOn with
  | nil => rfl
  | append_singleton pre b ih =>
    rw [List.length_append, List.length_singleton, List.range_succ, Snapshot.checkEntries_append,
      ih h.of_append hv.of_append]
    simp [Snapshot.checkEntries, (h.checkEntry_eq hv.of_append).1 hv]

/-- The first row that breaks the table is the one reported. -/
theorem Snapshot.HoldsRows.checkEntries_bad {pre : List TableRow} {b : TableRow} (h : snap.HoldsRows (pre ++ [b]))
    (hv : RowsValid pre) (hn : ¬ RowsValid (pre ++ [b])) (n : Nat) (hlt : pre.length < n) :
    snap.checkEntries (List.range n) = .error (.raised .badTable (BitVec.ofNat 32 pre.length)) := by
  obtain ⟨d, rfl⟩ : ∃ d, n = pre.length + 1 + d := ⟨n - (pre.length + 1), by omega⟩
  rw [List.range_add, Snapshot.checkEntries_append, List.range_succ, Snapshot.checkEntries_append,
    h.of_append.checkEntries_ok hv]
  simp [Snapshot.checkEntries, (h.checkEntry_eq hv).2 hn]

/-- TableOK passes on a valid table. -/
theorem Snapshot.HoldsTable.tableOk_ok {p : Params} (h : snap.HoldsTable rows) (hv : TableValid p rows) :
    snap.tableOk p = .ok () := by
  have hne : rows.length ≠ 0 := by simpa using hv.nonempty
  have hle := hv.fits
  have : (decide (rows.length = 0) || decide (rows.length > p.ctDepth)) = false := by
    simp only [Bool.or_eq_false_iff, decide_eq_false_iff_not]
    exact ⟨hne, by omega⟩
  simp only [Snapshot.tableOk, h.size, this, raiseIf_false, ok_bind]
  exact h.entries.checkEntries_ok hv.valid

/-- TableOK reports the `info` of R152 on a bad table. -/
theorem Snapshot.BadTable.tableOk_eq {p : Params} {info : Word} (h : snap.BadTable p info) :
    snap.tableOk p = .error (.raised .badTable info) := by
  rcases h with ⟨hn, rfl⟩ | ⟨hle, pre, last, hlt, hr, hv, hb, rfl⟩
  · have : (decide (snap.regs.alphaN.toNat = 0) || decide (snap.regs.alphaN.toNat > p.ctDepth)) = true := by
      simpa using hn
    simp [Snapshot.tableOk, this]
  · have : (decide (snap.regs.alphaN.toNat = 0) || decide (snap.regs.alphaN.toNat > p.ctDepth)) = false := by
      simp; omega
    simp only [Snapshot.tableOk, this, raiseIf_false, ok_bind]
    exact hr.checkEntries_bad hv hb _ hlt

/-! ### Lookups and loops -/

theorem Snapshot.HoldsRows.matching_eq (h : snap.HoldsRows rows) (x : Word) (l : List Nat)
    (hl : ∀ k ∈ l, k < rows.length) :
    snap.matching x l = .ok (l.filter fun k => decide (rows[k]?.map TableRow.sym = some x)) := by
  induction l with
  | nil => rfl
  | cons k l ih =>
    have hk := hl k List.mem_cons_self
    have hr : rows[k]? = some rows[k] := List.getElem?_eq_getElem hk
    simp only [Snapshot.matching, h.sym_eq hr, ok_bind, ih fun k hk => hl k (List.mem_cons_of_mem _ hk), hr,
      Option.map_some, List.filter_cons, Option.some.injEq, decide_eq_true_eq]

/-- One symbol's entry in a valid table is the one SF_ENCODE uses. -/
theorem Snapshot.HoldsRows.matching_row (h : snap.HoldsRows rows) (hv : RowsValid rows) {r : TableRow} (hr : r ∈ rows) :
    ∃ k more, snap.matching r.sym (List.range rows.length) = .ok (k :: more) ∧ rows[k]? = some r := by
  have hm := h.matching_eq r.sym (List.range rows.length) (by simp)
  obtain ⟨i, hi, hir⟩ := List.getElem_of_mem hr
  cases hf : (List.range rows.length).filter fun k => decide (rows[k]?.map TableRow.sym = some r.sym) with
  | nil =>
    have := List.filter_eq_nil_iff.1 hf i (by simpa using hi)
    simp [List.getElem?_eq_getElem hi, hir] at this
  | cons k more =>
    refine ⟨k, more, by rw [hm, hf], ?_⟩
    have hk : k ∈ (List.range rows.length).filter fun k => decide (rows[k]?.map TableRow.sym = some r.sym) := by
      rw [hf]; exact List.mem_cons_self
    rw [List.mem_filter] at hk
    have hlt : k < rows.length := by simpa using hk.1
    have hs : rows[k].sym = r.sym := by simpa [List.getElem?_eq_getElem hlt] using hk.2
    rw [List.getElem?_eq_getElem hlt, hv.eq_of_clash (List.getElem_mem hlt) hr (.inl hs)]

theorem Snapshot.HoldsRows.matching_none (h : snap.HoldsRows rows) (x : Word) (hx : ∀ r ∈ rows, r.sym ≠ x) :
    snap.matching x (List.range rows.length) = .ok [] := by
  rw [h.matching_eq x _ (by simp)]
  congr 1
  rw [List.filter_eq_nil_iff]
  intro k hk
  have hk : k < rows.length := by simpa using hk
  simpa [List.getElem?_eq_getElem hk] using hx _ (List.getElem_mem hk)

theorem rowCode_of_mem (hv : RowsValid rows) {r : TableRow} (hr : r ∈ rows) : rowCode rows r.sym = r.code := by
  unfold rowCode
  cases hf : rows.find? fun q => decide (q.sym = r.sym) with
  | none =>
    have := List.find?_eq_none.1 hf r hr
    simp at this
  | some q =>
    have h1 := List.mem_of_find?_eq_some hf
    have h2 : q.sym = r.sym := by simpa using List.find?_some hf
    rw [hv.eq_of_clash h1 hr (.inl h2)]
    rfl

/-- SF_ENCODE's loop on known symbols (R156). -/
theorem Snapshot.HoldsRows.encodeFrom_ok (h : snap.HoldsRows rows) (hv : RowsValid rows) (t : List Word) (q : Nat)
    (ht : ∀ x ∈ t, ∃ r ∈ rows, r.sym = x) :
    snap.encodeFrom rows.length q t = .ok (t.flatMap (rowCode rows)) := by
  induction t generalizing q with
  | nil => rfl
  | cons x t ih =>
    obtain ⟨r, hr, rfl⟩ := ht x List.mem_cons_self
    obtain ⟨k, more, hm, hk⟩ := h.matching_row hv hr
    simp only [Snapshot.encodeFrom, hm, ok_bind, h.codeStr_eq hk,
      ih (q + 1) fun x hx => ht x (List.mem_cons_of_mem _ hx), List.flatMap_cons, rowCode_of_mem hv hr]

/-- SF_ENCODE's loop on a text whose symbol at `pre.length` is the first unknown one. -/
theorem Snapshot.HoldsRows.encodeFrom_unknown (h : snap.HoldsRows rows) (hv : RowsValid rows) (pre post : List Word)
    (x : Word) (q : Nat) (ht : ∀ y ∈ pre, ∃ r ∈ rows, r.sym = y) (hx : ∀ r ∈ rows, r.sym ≠ x) :
    snap.encodeFrom rows.length q (pre ++ x :: post) =
      .error (.raised .unknownSymbol (BitVec.ofNat 32 (q + pre.length))) := by
  induction pre generalizing q with
  | nil => simp [Snapshot.encodeFrom, h.matching_none x hx]
  | cons y pre ih =>
    obtain ⟨r, hr, rfl⟩ := ht y List.mem_cons_self
    obtain ⟨k, more, hm, hk⟩ := h.matching_row hv hr
    have := ih (q + 1) fun y hy => ht y (List.mem_cons_of_mem _ hy)
    simp only [List.cons_append, Snapshot.encodeFrom, hm, ok_bind, h.codeStr_eq hk, this, error_bind, List.length_cons]
    rw [show q + 1 + pre.length = q + (pre.length + 1) by omega]

theorem Snapshot.HoldsRows.findCode_some (h : snap.HoldsRows rows) (cand : List Word) (l : List Nat)
    (hl : ∀ k ∈ l, k < rows.length) (hc : ∃ k ∈ l, rows[k]?.map TableRow.code = some cand) :
    ∃ k r, snap.findCode cand l = .ok (some k) ∧ rows[k]? = some r ∧ r.code = cand := by
  induction l with
  | nil => obtain ⟨k, hk, _⟩ := hc; simp at hk
  | cons k l ih =>
    have hk := hl k List.mem_cons_self
    have hr : rows[k]? = some rows[k] := List.getElem?_eq_getElem hk
    simp only [Snapshot.findCode, h.codeStr_eq hr, ok_bind]
    split
    · next e => exact ⟨k, _, rfl, hr, e⟩
    · next e =>
      refine ih (fun k hk => hl k (List.mem_cons_of_mem _ hk)) ?_
      obtain ⟨i, hi, hci⟩ := hc
      rcases List.mem_cons.1 hi with rfl | hi
      · rw [hr] at hci; simp at hci; exact absurd hci e
      · exact ⟨i, hi, hci⟩

theorem Snapshot.HoldsRows.findCode_none (h : snap.HoldsRows rows) (cand : List Word) (l : List Nat)
    (hl : ∀ k ∈ l, k < rows.length) (hc : ∀ r ∈ rows, r.code ≠ cand) : snap.findCode cand l = .ok none := by
  induction l with
  | nil => rfl
  | cons k l ih =>
    have hk := hl k List.mem_cons_self
    have hr : rows[k]? = some rows[k] := List.getElem?_eq_getElem hk
    simp only [Snapshot.findCode, h.codeStr_eq hr, ok_bind, if_neg (hc _ (List.getElem_mem hk))]
    exact ih fun k hk => hl k (List.mem_cons_of_mem _ hk)

/-- SF_DECODE's loop (R166): it emits the symbols of the parse, and the candidate left over is the tail. -/
theorem Snapshot.HoldsRows.scanBits_eq (h : snap.HoldsRows rows) (hv : RowsValid rows) (b cand : List Word)
    (hcand : ∀ r ∈ rows, ¬ r.code <+: cand) (rs : List TableRow) (tl : List Word)
    (hp : BitParse rows (cand ++ b) rs tl) :
    snap.scanBits rows.length cand b = .ok (rs.map TableRow.sym, tl.length) := by
  induction b generalizing cand rs with
  | nil =>
    cases rs with
    | nil =>
      have := hp.text
      simp at this
      simp [Snapshot.scanBits, this]
    | cons r rs =>
      have := hp.text
      simp at this
      exact absurd ⟨_, this.symm⟩ (hcand r (hp.entries r List.mem_cons_self))
  | cons c b ih =>
    by_cases hit : ∃ r ∈ rows, r.code = cand ++ [c]
    · obtain ⟨r, hr, hrc⟩ := hit
      obtain ⟨i, hi, hir⟩ := List.getElem_of_mem hr
      obtain ⟨k, r', hf, hk, hkc⟩ := h.findCode_some (cand ++ [c]) (List.range rows.length) (by simp)
        ⟨i, by simpa using hi, by simp [List.getElem?_eq_getElem hi, hir, hrc]⟩
      have hr' : r' ∈ rows := List.mem_of_getElem? hk
      cases rs with
      | nil =>
        have := hp.text
        simp only [List.flatMap_nil, List.nil_append] at this
        exact absurd ⟨b, by rw [hkc, ← this]; simp⟩ (hp.tail r' hr')
      | cons r2 rs =>
        have hr2 := hp.entries r2 List.mem_cons_self
        have ht := hp.text
        have e : r2 = r' := by
          refine hv.eq_of_clash hr2 hr' (.inr ?_)
          have h1 : r2.code <+: cand ++ c :: b := ⟨rs.flatMap TableRow.code ++ tl, by rw [ht]; simp⟩
          have h2 : r'.code <+: cand ++ c :: b := ⟨b, by rw [hkc]; simp⟩
          exact List.prefix_or_prefix_of_prefix h1 h2
        subst e
        have hb : b = rs.flatMap TableRow.code ++ tl := by
          have : cand ++ [c] ++ b = cand ++ [c] ++ (rs.flatMap TableRow.code ++ tl) := by
            rw [← hkc]; simpa [hkc] using ht
          exact List.append_cancel_left this
        have := ih [] (fun r hr hn => hv.code_ne_nil hr (List.prefix_nil.1 hn)) rs
          ⟨fun r hr => hp.entries r (List.mem_cons_of_mem _ hr), by simpa using hb, hp.tail⟩
        simp [Snapshot.scanBits, hf, h.sym_eq hk, this]
    · have hno : ∀ r ∈ rows, r.code ≠ cand ++ [c] := fun r hr he => hit ⟨r, hr, he⟩
      have hf := h.findCode_none (cand ++ [c]) (List.range rows.length) (by simp) hno
      have := ih (cand ++ [c]) (fun r hr hpre => by
        rcases List.prefix_concat_iff.1 hpre with he | he
        · exact hno r hr he
        · exact hcand r hr he) rs (by simpa using hp)
      simp [Snapshot.scanBits, hf, this]

/-- The same from the start of the bitstring. -/
theorem Snapshot.HoldsTable.scanBits_eq (h : snap.HoldsTable rows) (hv : RowsValid rows) {b : List Word}
    {rs : List TableRow} {tl : List Word} (hp : BitParse rows b rs tl) :
    snap.scanBits snap.regs.alphaN.toNat [] b = .ok (rs.map TableRow.sym, tl.length) := by
  rw [h.size]
  exact h.entries.scanBits_eq hv b [] (fun r hr hn => hv.code_ne_nil hr (List.prefix_nil.1 hn)) rs tl (by simpa using hp)

/-! ### What an answer of TableOK says about the memory -/

theorem Snapshot.checkEntries_mem (snap : Snapshot) (l : List Nat) (h : snap.checkEntries l = .ok ()) (k : Nat)
    (hk : k ∈ l) : snap.checkEntry k = .ok () := by
  induction l with
  | nil => simp at hk
  | cons j l ih =>
    simp only [Snapshot.checkEntries, bind_eq_ok] at h
    obtain ⟨_, hj, hl⟩ := h
    rcases List.mem_cons.1 hk with rfl | hk
    · exact hj
    · exact ih hl hk

theorem Snapshot.checkPairs_mem (snap : Snapshot) (k : Nat) (l : List Nat) (h : snap.checkPairs k l = .ok ()) (j : Nat)
    (hj : j ∈ l) : snap.clash j k = .ok false := by
  induction l with
  | nil => simp at hj
  | cons i l ih =>
    simp only [Snapshot.checkPairs, bind_eq_ok, raiseIf_eq_ok] at h
    obtain ⟨b, hb, _, hf, hl⟩ := h
    rcases List.mem_cons.1 hj with rfl | hj
    · rw [hb, hf]
    · exact ih hl hj

/-- TableOK reads CODE_LEN of every entry, and, in a table of two or more, SYM and CODE_BITS too (log entry 6). -/
theorem Snapshot.tableOk_written (p : Params) (snap : Snapshot) (h : snap.tableOk p = .ok ()) :
    snap.regs.alphaN.toNat ≠ 0 ∧ snap.regs.alphaN.toNat ≤ p.ctDepth ∧
    (∀ k < snap.regs.alphaN.toNat, (snap.mems.read (.ctLen k)).isSome) ∧
    (2 ≤ snap.regs.alphaN.toNat → ∀ k < snap.regs.alphaN.toNat,
      (snap.mems.read (.ctSym k)).isSome ∧ (snap.mems.read (.ctBits k)).isSome) := by
  simp only [Snapshot.tableOk, bind_eq_ok, raiseIf_eq_ok] at h
  obtain ⟨_, hn, he⟩ := h
  simp only [Bool.or_eq_false_iff, decide_eq_false_iff_not] at hn
  have entry : ∀ k < snap.regs.alphaN.toNat, snap.checkEntry k = .ok () := fun k hk =>
    snap.checkEntries_mem _ he k (by simpa using hk)
  have pair : ∀ j k, j < k → k < snap.regs.alphaN.toNat →
      ((snap.mems.read (.ctSym j)).isSome ∧ (snap.mems.read (.ctBits j)).isSome) ∧
      ((snap.mems.read (.ctSym k)).isSome ∧ (snap.mems.read (.ctBits k)).isSome) := by
    intro j k hj hk
    have := entry k hk
    simp only [Snapshot.checkEntry, bind_eq_ok] at this
    obtain ⟨_, _, _, _, hp⟩ := this
    have := snap.checkPairs_mem k _ hp j (by simpa using hj)
    simp only [Snapshot.clash, bind_eq_ok, Snapshot.sym, Snapshot.cell_eq_ok] at this
    obtain ⟨x, hx, y, hy, hc⟩ := this
    split at hc
    · simp at hc
    · simp only [bind_eq_ok, Snapshot.codeStr, Snapshot.codeLen, Snapshot.cell_eq_ok] at hc
      obtain ⟨_, ⟨_, _, z, hz, _⟩, _, ⟨_, _, w, hw, _⟩, _⟩ := hc
      simp [hx, hy, hz, hw]
  refine ⟨hn.1, by omega, fun k hk => ?_, fun h2 k hk => ?_⟩
  · have := entry k hk
    simp only [Snapshot.checkEntry, Snapshot.codeLen, bind_eq_ok, Snapshot.cell_eq_ok] at this
    obtain ⟨_, ⟨v, hv, _⟩, _⟩ := this
    simp [hv]
  · cases k with
    | zero => exact (pair 0 1 (by omega) (by omega)).1
    | succ k => exact (pair 0 (k + 1) (by omega) hk).2

/-- The rows of a table whose entries have all been written. -/
theorem Snapshot.exists_rows (snap : Snapshot)
    (h : ∀ k < snap.regs.alphaN.toNat, (snap.mems.read (.ctSym k)).isSome ∧ (snap.mems.read (.ctLen k)).isSome ∧
      (snap.mems.read (.ctBits k)).isSome) : ∃ rows, snap.HoldsTable rows := by
  refine ⟨(List.range snap.regs.alphaN.toNat).map fun k => ⟨(snap.mems.read (.ctSym k)).getD 0,
    (snap.mems.read (.ctLen k)).getD 0, (snap.mems.read (.ctBits k)).getD 0⟩, by simp, fun k r hk => ?_⟩
  obtain ⟨hlt, rfl⟩ := List.getElem?_eq_some_iff.1 hk
  have hlt : k < snap.regs.alphaN.toNat := by simpa using hlt
  obtain ⟨h1, h2, h3⟩ := h k hlt
  obtain ⟨x, hx⟩ := Option.isSome_iff_exists.1 h1
  obtain ⟨y, hy⟩ := Option.isSome_iff_exists.1 h2
  obtain ⟨z, hz⟩ := Option.isSome_iff_exists.1 h3
  simp [hx, hy, hz]

/-! ### Which errors each part can raise -/

theorem Snapshot.seq_never_raises (snap : Snapshot) (mk : Nat → Cell) (n : Nat) (code : ErrCode) (info : Word) :
    snap.seq mk n ≠ .error (.raised code info) := by
  intro h
  obtain ⟨_, _, _, h⟩ := snap.seq_eq_error mk n _ h
  simp at h

theorem Snapshot.codeStr_never_raises (snap : Snapshot) (k : Nat) (code : ErrCode) (info : Word) :
    snap.codeStr k ≠ .error (.raised code info) := by
  simp [Snapshot.codeStr, Snapshot.codeLen, bind_eq_error, Snapshot.cell_eq_error]

theorem Snapshot.clash_never_raises (snap : Snapshot) (j k : Nat) (code : ErrCode) (info : Word) :
    snap.clash j k ≠ .error (.raised code info) := by
  intro h
  simp only [Snapshot.clash, bind_eq_error, Snapshot.sym, Snapshot.cell_eq_error] at h
  rcases h with h | ⟨_, _, h | ⟨_, _, h⟩⟩
  · simp at h
  · simp at h
  · split at h
    · simp at h
    · simp [bind_eq_error, Snapshot.codeStr_never_raises] at h

theorem Snapshot.checkPairs_raises (snap : Snapshot) (k : Nat) (l : List Nat) (code : ErrCode) (info : Word)
    (h : snap.checkPairs k l = .error (.raised code info)) : code = .badTable := by
  induction l with
  | nil => simp [Snapshot.checkPairs] at h
  | cons j l ih =>
    simp only [Snapshot.checkPairs, bind_eq_error, raiseIf_eq_error] at h
    rcases h with h | ⟨_, _, h | ⟨_, _, h⟩⟩
    · exact absurd h (snap.clash_never_raises j k code info)
    · simp at h; exact h.2.1
    · exact ih h

theorem Snapshot.checkEntries_raises (snap : Snapshot) (l : List Nat) (code : ErrCode) (info : Word)
    (h : snap.checkEntries l = .error (.raised code info)) : code = .badTable := by
  induction l with
  | nil => simp [Snapshot.checkEntries] at h
  | cons k l ih =>
    simp only [Snapshot.checkEntries, bind_eq_error, Snapshot.checkEntry, raiseIf_eq_error, Snapshot.codeLen,
      Snapshot.cell_eq_error] at h
    rcases h with (h | ⟨_, _, h | ⟨_, _, h⟩⟩) | ⟨_, _, h⟩
    · simp at h
    · simp at h; exact h.2.1
    · exact snap.checkPairs_raises k _ code info h
    · exact ih h

/-- TableOK raises BAD_TABLE and nothing else. -/
theorem Snapshot.tableOk_raises (p : Params) (snap : Snapshot) (code : ErrCode) (info : Word)
    (h : snap.tableOk p = .error (.raised code info)) : code = .badTable := by
  simp only [Snapshot.tableOk, bind_eq_error, raiseIf_eq_error] at h
  rcases h with h | ⟨_, _, h⟩
  · simp at h; exact h.2.1
  · exact snap.checkEntries_raises _ code info h

theorem Snapshot.matching_never_raises (snap : Snapshot) (x : Word) (l : List Nat) (code : ErrCode) (info : Word) :
    snap.matching x l ≠ .error (.raised code info) := by
  induction l with
  | nil => simp [Snapshot.matching]
  | cons k l ih =>
    intro h
    simp only [Snapshot.matching, bind_eq_error, Snapshot.sym, Snapshot.cell_eq_error] at h
    rcases h with h | ⟨_, _, h | ⟨_, _, h⟩⟩
    · simp at h
    · exact ih h
    · simp at h

/-- SF_ENCODE's loop raises UNKNOWN_SYMBOL and nothing else. -/
theorem Snapshot.encodeFrom_raises (snap : Snapshot) (n q : Nat) (t : List Word) (code : ErrCode) (info : Word)
    (h : snap.encodeFrom n q t = .error (.raised code info)) : code = .unknownSymbol := by
  induction t generalizing q with
  | nil => simp [Snapshot.encodeFrom] at h
  | cons x t ih =>
    simp only [Snapshot.encodeFrom, bind_eq_error] at h
    rcases h with h | ⟨ks, _, h⟩
    · exact absurd h (snap.matching_never_raises x _ code info)
    · cases ks with
      | nil => simp at h; exact h.1.symm
      | cons k ks =>
        simp only [bind_eq_error] at h
        rcases h with h | ⟨_, _, h | ⟨_, _, h⟩⟩
        · exact absurd h (snap.codeStr_never_raises k code info)
        · exact ih _ h
        · simp at h

theorem Snapshot.findCode_never_raises (snap : Snapshot) (cand : List Word) (l : List Nat) (code : ErrCode)
    (info : Word) : snap.findCode cand l ≠ .error (.raised code info) := by
  induction l with
  | nil => simp [Snapshot.findCode]
  | cons k l ih =>
    intro h
    simp only [Snapshot.findCode, bind_eq_error] at h
    rcases h with h | ⟨_, _, h⟩
    · exact absurd h (snap.codeStr_never_raises k code info)
    · split at h
      · simp at h
      · exact ih h

/-- SF_DECODE's loop raises nothing (R168). -/
theorem Snapshot.scanBits_never_raises (snap : Snapshot) (n : Nat) (cand b : List Word) (code : ErrCode) (info : Word) :
    snap.scanBits n cand b ≠ .error (.raised code info) := by
  induction b generalizing cand with
  | nil => simp [Snapshot.scanBits]
  | cons c b ih =>
    intro h
    simp only [Snapshot.scanBits, bind_eq_error] at h
    rcases h with h | ⟨hit, _, h⟩
    · exact absurd h (snap.findCode_never_raises _ _ code info)
    · cases hit with
      | none => exact ih _ h
      | some k =>
        simp only [bind_eq_error, Snapshot.sym, Snapshot.cell_eq_error] at h
        rcases h with h | ⟨_, _, h | ⟨_, _, h⟩⟩
        · simp at h
        · exact ih _ h
        · simp at h

/-- The tail is no longer than what was scanned (R168). -/
theorem Snapshot.scanBits_tail (snap : Snapshot) (n : Nat) (cand b : List Word) (r : List Word × Nat)
    (h : snap.scanBits n cand b = .ok r) : r.2 ≤ cand.length + b.length := by
  induction b generalizing cand r with
  | nil => simp [Snapshot.scanBits] at h; subst h; simp
  | cons c b ih =>
    simp only [Snapshot.scanBits, bind_eq_ok] at h
    obtain ⟨hit, _, h⟩ := h
    cases hit with
    | some k =>
      simp only [bind_eq_ok] at h
      obtain ⟨x, _, r', h', h⟩ := h
      have := ih _ _ h'
      cases h
      simp at this ⊢
      omega
    | none => have := ih _ _ h; simp at this ⊢; omega

end Sys2Proof.Machine
end

