-- ==== Sys2Proof/Laws/Reads.lean ====
section
/-! SUPPORT. A command stops on an unwritten entry only when it reads that entry, and which entries the table reads name
(spec/70_reset_and_hazards.md R271; spec/40_host_interface.md R122). -/

namespace Sys2Proof.Machine

section
variable (snap : Snapshot)

theorem Snapshot.codeLen_unwritten (k c) (h : snap.codeLen k = .error (.unwritten c)) :
    c = .ctLen k ∧ snap.mems.read c = none := by
  simp only [Snapshot.codeLen, bind_eq_error, Snapshot.cell_eq_error] at h
  rcases h with ⟨h1, h2⟩ | ⟨_, _, h⟩
  · cases h2; exact ⟨rfl, h1⟩
  · simp at h
theorem Snapshot.codeStr_unwritten (k c) (h : snap.codeStr k = .error (.unwritten c)) :
    (c = .ctLen k ∨ c = .ctBits k) ∧ snap.mems.read c = none := by
  simp only [Snapshot.codeStr, bind_eq_error, Snapshot.cell_eq_error] at h
  rcases h with h | ⟨_, _, ⟨h1, h2⟩ | ⟨_, _, h⟩⟩
  · obtain ⟨a, b⟩ := Snapshot.codeLen_unwritten _ _ _ h; exact ⟨.inl a, b⟩
  · cases h2; exact ⟨.inr rfl, h1⟩
  · simp at h
theorem Snapshot.sym_unwritten (k c) (h : snap.sym k = .error (.unwritten c)) :
    c = .ctSym k ∧ snap.mems.read c = none := by
  simp only [Snapshot.sym, Snapshot.cell_eq_error] at h
  obtain ⟨h1, h2⟩ := h; cases h2; exact ⟨rfl, h1⟩

/-- A field of one of the first `n` entries of CT that a command with a table reads. -/
def TableEntryField (n : Nat) (c : Cell) : Prop := ∃ k < n, c = .ctSym k ∨ c = .ctLen k ∨ c = .ctBits k

theorem Snapshot.clash_unwritten (n j k c) (hj : j < n) (hk : k < n) (h : snap.clash j k = .error (.unwritten c)) :
    TableEntryField n c ∧ snap.mems.read c = none := by
  simp only [Snapshot.clash, bind_eq_error] at h
  rcases h with h | ⟨_, _, h | ⟨_, _, h⟩⟩
  · obtain ⟨a, b⟩ := Snapshot.sym_unwritten _ _ _ h; exact ⟨⟨j, hj, by simp [a]⟩, b⟩
  · obtain ⟨a, b⟩ := Snapshot.sym_unwritten _ _ _ h; exact ⟨⟨k, hk, by simp [a]⟩, b⟩
  · split at h
    · simp at h
    · simp only [bind_eq_error] at h
      rcases h with h | ⟨_, _, h | ⟨_, _, h⟩⟩
      · obtain ⟨a, b⟩ := Snapshot.codeStr_unwritten _ _ _ h; exact ⟨⟨j, hj, by rcases a with a | a <;> simp [a]⟩, b⟩
      · obtain ⟨a, b⟩ := Snapshot.codeStr_unwritten _ _ _ h; exact ⟨⟨k, hk, by rcases a with a | a <;> simp [a]⟩, b⟩
      · simp at h

theorem Snapshot.checkPairs_unwritten (n k c) (l : List Nat) (hl : ∀ j ∈ l, j < n) (hk : k < n)
    (h : snap.checkPairs k l = .error (.unwritten c)) :
    TableEntryField n c ∧ snap.mems.read c = none := by
  induction l with
  | nil => simp [Snapshot.checkPairs] at h
  | cons j l ih =>
    simp only [Snapshot.checkPairs, bind_eq_error, raiseIf_eq_error] at h
    rcases h with h | ⟨_, _, ⟨_, h⟩ | ⟨_, _, h⟩⟩
    · exact Snapshot.clash_unwritten _ _ _ _ _ (hl _ List.mem_cons_self) hk h
    · simp at h
    · exact ih (fun j hj => hl j (List.mem_cons_of_mem _ hj)) h

theorem Snapshot.checkEntries_unwritten (n c) (l : List Nat) (hl : ∀ j ∈ l, j < n)
    (h : snap.checkEntries l = .error (.unwritten c)) :
    TableEntryField n c ∧ snap.mems.read c = none := by
  induction l with
  | nil => simp [Snapshot.checkEntries] at h
  | cons k l ih =>
    have hk := hl _ List.mem_cons_self
    simp only [Snapshot.checkEntries, bind_eq_error, Snapshot.checkEntry, raiseIf_eq_error] at h
    rcases h with (h | ⟨_, _, ⟨_, h⟩ | ⟨_, _, h⟩⟩) | ⟨_, _, h⟩
    · obtain ⟨a, b⟩ := Snapshot.codeLen_unwritten _ _ _ h; exact ⟨⟨k, hk, by simp [a]⟩, b⟩
    · simp at h
    · exact Snapshot.checkPairs_unwritten _ _ _ _ _ (fun j hj => by have := List.mem_range.1 hj; omega) hk h
    · exact ih (fun j hj => hl j (List.mem_cons_of_mem _ hj)) h

theorem Snapshot.tableOk_unwritten (p : Params) (c) (h : snap.tableOk p = .error (.unwritten c)) :
    snap.regs.alphaN.toNat ≤ p.ctDepth ∧ TableEntryField snap.regs.alphaN.toNat c ∧ snap.mems.read c = none := by
  simp only [Snapshot.tableOk, bind_eq_error, raiseIf_eq_error, raiseIf_eq_ok] at h
  rcases h with ⟨_, h⟩ | ⟨_, hn, h⟩
  · simp at h
  · simp at hn
    exact ⟨by omega, Snapshot.checkEntries_unwritten _ _ _ _ (by simp) h⟩

theorem Snapshot.matching_unwritten (n x c) (l : List Nat) (hl : ∀ j ∈ l, j < n)
    (h : snap.matching x l = .error (.unwritten c)) :
    TableEntryField n c ∧ snap.mems.read c = none := by
  induction l with
  | nil => simp [Snapshot.matching] at h
  | cons k l ih =>
    have hk := hl _ List.mem_cons_self
    simp only [Snapshot.matching, bind_eq_error] at h
    rcases h with h | ⟨_, _, h | ⟨_, _, h⟩⟩
    · obtain ⟨a, b⟩ := Snapshot.sym_unwritten _ _ _ h; exact ⟨⟨k, hk, by simp [a]⟩, b⟩
    · exact ih (fun j hj => hl j (List.mem_cons_of_mem _ hj)) h
    · simp at h

theorem Snapshot.matching_mem (x) (l ks: List Nat) (h : snap.matching x l = .ok ks) : ∀ k ∈ ks, k ∈ l := by
  induction l generalizing ks with
  | nil => simp [Snapshot.matching] at h; simp [← h]
  | cons k l ih =>
    simp only [Snapshot.matching, bind_eq_ok, Except.ok.injEq] at h
    obtain ⟨_, _, more, hm, rfl⟩ := h
    have := ih more hm
    split <;> simp <;> grind

theorem Snapshot.encodeFrom_unwritten (n q t c) (h : snap.encodeFrom n q t = .error (.unwritten c)) :
    TableEntryField n c ∧ snap.mems.read c = none := by
  induction t generalizing q with
  | nil => simp [Snapshot.encodeFrom] at h
  | cons x t ih =>
    simp only [Snapshot.encodeFrom, bind_eq_error] at h
    rcases h with h | ⟨ks, hks, h⟩
    · exact Snapshot.matching_unwritten _ _ _ _ _ (by simp) h
    · cases ks with
      | nil => simp at h
      | cons k ks =>
        have hk := Snapshot.matching_mem _ _ _ _ hks k List.mem_cons_self
        simp only [bind_eq_error] at h
        rcases h with h | ⟨_, _, h | ⟨_, _, h⟩⟩
        · obtain ⟨a, b⟩ := Snapshot.codeStr_unwritten _ _ _ h; exact ⟨⟨k, by simpa using hk, by rcases a with a | a <;> simp [a]⟩, b⟩
        · exact ih _ h
        · simp at h

theorem Snapshot.findCode_unwritten (n cand c) (l : List Nat) (hl : ∀ j ∈ l, j < n)
    (h : snap.findCode cand l = .error (.unwritten c)) :
    TableEntryField n c ∧ snap.mems.read c = none := by
  induction l with
  | nil => simp [Snapshot.findCode] at h
  | cons k l ih =>
    have hk := hl _ List.mem_cons_self
    simp only [Snapshot.findCode, bind_eq_error] at h
    rcases h with h | ⟨_, _, h⟩
    · obtain ⟨a, b⟩ := Snapshot.codeStr_unwritten _ _ _ h; exact ⟨⟨k, hk, by rcases a with a | a <;> simp [a]⟩, b⟩
    · split at h
      · simp at h
      · exact ih (fun j hj => hl j (List.mem_cons_of_mem _ hj)) h

theorem Snapshot.findCode_mem (cand k) (l : List Nat) (h : snap.findCode cand l = .ok (some k)) : k ∈ l := by
  induction l with
  | nil => simp [Snapshot.findCode] at h
  | cons j l ih =>
    simp only [Snapshot.findCode, bind_eq_ok] at h
    obtain ⟨_, _, h⟩ := h
    split at h
    · simp at h; simp [h]
    · exact List.mem_cons_of_mem _ (ih h)

theorem Snapshot.scanBits_unwritten (n cand b c) (h : snap.scanBits n cand b = .error (.unwritten c)) :
    TableEntryField n c ∧ snap.mems.read c = none := by
  induction b generalizing cand with
  | nil => simp [Snapshot.scanBits] at h
  | cons x b ih =>
    simp only [Snapshot.scanBits, bind_eq_error] at h
    rcases h with h | ⟨r, hr, h⟩
    · exact Snapshot.findCode_unwritten _ _ _ _ _ (by simp) h
    · cases r with
      | none => exact ih _ h
      | some k =>
        have hk := Snapshot.findCode_mem _ _ _ _ hr
        simp only [bind_eq_error] at h
        rcases h with h | ⟨_, _, h | ⟨_, _, h⟩⟩
        · obtain ⟨a, b⟩ := Snapshot.sym_unwritten _ _ _ h; exact ⟨⟨k, by simpa using hk, by simp [a]⟩, b⟩
        · exact ih _ h
        · simp at h
end

/-- Such a field exists. -/
theorem tableEntryField_index_lt (p : Params) (n : Nat) (hn : n ≤ p.ctDepth) (c) (h : TableEntryField n c) :
    c.index < c.depth p := by
  obtain ⟨k, hk, rfl | rfl | rfl⟩ := h <;> simp [Cell.index, Cell.depth] <;> omega

end Sys2Proof.Machine
end

