-- ==== Sys2Proof/Laws/Step.lean ====
section
/-! SUPPORT. Everything one step can do (spec/20_memory.md R68; spec/40_host_interface.md R118). -/

namespace Sys2Proof.Machine

/-- The state with its first turn taken off the list. -/
def State.turnTaken (s : State) : State := { s with turns := s.turns.tail }

/-- Everything one step can do: nothing, complete a command, complete an illegal word, one bus transaction, or a hard
reset. -/
theorem step_cases (s t : State) (h : step s = .next t) :
    (s.phase = .idle ∧ t = s.turnTaken) ∨
    (∃ v snap i, s.phase = .busy v snap ∧ decode v = .ok i ∧ exec i s.turnTaken = .next t) ∨
    (∃ v snap r, s.phase = .busy v snap ∧ decode v = .error r ∧ t = s.turnTaken.commitFail .illegalCmd v) ∨
    (∃ a lanes, s.turns.head? = some (.bus (.read a lanes)) ∧ s.turnTaken.busRead a lanes = .next t) ∨
    (∃ a lanes v, s.turns.head? = some (.bus (.write a lanes v)) ∧ t = s.turnTaken.busWrite a lanes v) ∨
    (s.turns.head? = some .hardReset ∧ t = s.turnTaken.hardReset) := by
  have engine : ∀ u : State, u.phase = s.phase → u.engineStep = .next t →
      (s.phase = .idle ∧ t = u) ∨
      (∃ v snap i, s.phase = .busy v snap ∧ decode v = .ok i ∧ exec i u = .next t) ∨
      (∃ v snap r, s.phase = .busy v snap ∧ decode v = .error r ∧ t = u.commitFail .illegalCmd v) := by
    intro u hu he
    unfold State.engineStep at he
    rw [hu] at he
    split at he
    · next hp => cases he; exact .inl ⟨hp, rfl⟩
    · next v snap hp =>
      split at he
      · next i hd => exact .inr (.inl ⟨v, snap, i, hp, hd, he⟩)
      · next r hd =>
        have : t = u.commitFail .illegalCmd v := by
          simpa [execIllegal, fIllegal, State.complete, eq_comm] using he
        exact .inr (.inr ⟨v, snap, r, hp, hd, this⟩)
  unfold step State.nextTurn at h
  split at h
  · next ht =>
    have hs : s.turnTaken = s := by cases s; simp only at ht; subst ht; rfl
    rw [hs]
    rcases engine s rfl h with h | h | h
    · exact .inl h
    · exact .inr (.inl h)
    · exact .inr (.inr (.inl h))
  · next turn rest ht =>
    have hs : { s with turns := rest } = s.turnTaken := by simp [State.turnTaken, ht]
    rw [hs] at h
    cases turn with
    | engine =>
      rcases engine s.turnTaken rfl h with h | h | h
      · exact .inl h
      · exact .inr (.inl h)
      · exact .inr (.inr (.inl h))
    | bus txn =>
      cases txn with
      | read a lanes => exact .inr (.inr (.inr (.inl ⟨a, lanes, by simp [ht], h⟩)))
      | write a lanes v =>
        have : t = s.turnTaken.busWrite a lanes v := by simpa [State.take, State.busStep, eq_comm] using h
        exact .inr (.inr (.inr (.inr (.inl ⟨a, lanes, v, by simp [ht], this⟩))))
    | hardReset =>
      have : t = s.turnTaken.hardReset := by simpa [State.take, eq_comm] using h
      exact .inr (.inr (.inr (.inr (.inr ⟨by simp [ht], this⟩))))

/-- Everything a command's completion step can answer. -/
theorem exec_eq_next (i : Instr) (s t : State) :
    exec i s = .next t ↔
      (∃ out, resultOf i s.params s.inputs = .ok out ∧ t = s.commitOk out) ∨
      (∃ code info, resultOf i s.params s.inputs = .error (.raised code info) ∧ t = s.commitFail code info) := by
  rw [exec_eq, State.complete_eq_next]

end Sys2Proof.Machine
end

