-- ==== Sys2Proof/Laws/Run.lean ====
section
/-! SUPPORT. Runs of several steps, in pieces. -/

namespace Sys2Proof.Machine

/-- A run starts with a step. -/
theorem run_succ (n : Nat) (s t : State) (h : step s = .next t) :
    Sys2Proof.core.run (n+1) s = Sys2Proof.core.run n t := by
  have : Sys2Proof.core.step s = .next t := h
  simp only [Host.Core.run, this]

/-- A run after a run. -/
theorem run_add (n m : Nat) (s t : State) (h : Sys2Proof.core.run n s = .next t) :
    Sys2Proof.core.run (n + m) s = Sys2Proof.core.run m t := by
  induction n generalizing s with
  | zero => have : s = t := by injection h
            subst this; simp
  | succ n ih =>
    rw [show n + 1 + m = (n + m) + 1 by omega]
    simp only [Host.Core.run] at h ⊢
    cases hs : Sys2Proof.core.step s with
    | next u => rw [hs] at h; exact ih u h
    | fault f => rw [hs] at h; simp at h
    | refused r => rw [hs] at h; simp at h

end Sys2Proof.Machine
end

