-- ==== Sys2Proof/Laws/ShannonFano.lean ====
section
/-! SUPPORT. Small laws of the Shannon-Fano stage: the sizes of its sequences (spec/41_shannon_fano.md). -/

namespace Sys2Proof.Machine

theorem insertRanked_perm (e : Word × Nat) (l : List (Word × Nat)) : (insertRanked e l).Perm (e :: l) := by
  induction l with
  | nil => exact List.Perm.refl _
  | cons r rest ih =>
    simp only [insertRanked]
    split
    · exact List.Perm.refl _
    · exact (ih.cons r).trans (List.Perm.swap e r rest)

/-- Ranking only reorders the model (R142). -/
theorem rank_perm (m : List (Word × Nat)) : (rank m).Perm m := by
  induction m with
  | nil => exact List.Perm.refl _
  | cons e m ih => exact (insertRanked_perm e (rank m)).trans (ih.cons e)

@[simp] theorem rank_length (m : List (Word × Nat)) : (rank m).length = m.length := (rank_perm m).length_eq

/-- The tree of a slice has one leaf for each of its entries (R144, R146). -/
theorem leaves_length (fuel : Nat) (e : Word × Nat) (rest : List (Word × Nat)) (path : List Word)
    (h : rest.length ≤ fuel) : ((treeFrom fuel e rest).leaves path).length = rest.length + 1 := by
  induction fuel generalizing e rest path with
  | zero => simp_all [treeFrom, Node.leaves]
  | succ fuel ih =>
    simp only [treeFrom]
    split
    · next hd =>
      have := congrArg List.length hd
      simp only [List.length_drop, List.length_nil] at this
      have : rest.length = 0 := by omega
      simp [Node.leaves, this]
    · next r right hd =>
      have hl := congrArg List.length hd
      simp only [List.length_drop, List.length_cons] at hl
      rw [if_neg (by omega)]
      simp only [Node.leaves, List.length_append]
      rw [ih _ _ _ (by simp only [List.length_take]; omega), ih _ _ _ (by omega)]
      simp only [List.length_take]
      omega

theorem table_length_eq_leaves (t : Node) (path : List Word) : t.table.length = (t.leaves path).length := by
  cases t with
  | leaf s f => rfl
  | internal f l r =>
    have key : ∀ (n : Node) (p q : List Word), (n.leaves p).length = (n.leaves q).length := by
      intro n
      induction n with
      | leaf s f => intro p q; rfl
      | internal f l r ihl ihr => intro p q; simp [Node.leaves, ihl _ (q ++ [chZero]), ihr _ (q ++ [chOne])]
    exact key _ _ _

/-- The code table has one entry for each distinct symbol (R146). -/
theorem buildTable_length (t : List Word) : (buildTable t).length = (tally t).length := by
  have h := rank_length (tally t)
  unfold buildTable
  split
  · next hr => simp [← h, hr]
  · next e rest hr =>
    rw [table_length_eq_leaves _ [], tree, leaves_length _ _ _ _ (le_refl _), ← h, hr]
    rfl

/-! ### The pieces of R141, R144 and R148 -/

/-- One more character of the text. -/
theorem tally_snoc (t : List Word) (x : Word) : tally (t ++ [x]) = bump x (tally t) := by simp [tally]

/-- Counting a symbol keeps the order of first occurrence. -/
theorem bump_fst (x : Word) (m : List (Word × Nat)) :
    (bump x m).map Prod.fst = if x ∈ m.map Prod.fst then m.map Prod.fst else m.map Prod.fst ++ [x] := by
  induction m with
  | nil => simp [bump]
  | cons e m ih =>
    obtain ⟨u, f⟩ := e
    simp only [bump]
    split
    · next h => simp [h]
    · next h =>
      simp only [List.map_cons, ih, List.mem_cons]
      by_cases hx : x ∈ m.map Prod.fst
      · simp [hx]
      · simp [hx, Ne.symm h]

/-- What an entry is after counting a symbol. -/
theorem mem_bump (x : Word) (m : List (Word × Nat)) (hn : (m.map Prod.fst).Nodup) (e : Word × Nat) (he : e ∈ bump x m) :
    (e.1 ≠ x ∧ e ∈ m) ∨ (e.1 = x ∧ ((e.2 = 1 ∧ x ∉ m.map Prod.fst) ∨ ∃ f, (x, f) ∈ m ∧ e.2 = f + 1)) := by
  induction m with
  | nil => simp [bump] at he; simp [he]
  | cons a m ih =>
    obtain ⟨u, f⟩ := a
    simp only [List.map_cons, List.nodup_cons] at hn
    simp only [bump] at he
    split at he
    · next h =>
      subst h
      rcases List.mem_cons.1 he with rfl | he
      · right; exact ⟨rfl, .inr ⟨f, by simp, rfl⟩⟩
      · left
        exact ⟨fun h => hn.1 (h ▸ List.mem_map_of_mem he), List.mem_cons_of_mem _ he⟩
    · next h =>
      rcases List.mem_cons.1 he with rfl | he
      · left; exact ⟨h, List.mem_cons_self⟩
      · rcases ih hn.2 he with ⟨a, b⟩ | ⟨a, b⟩
        · left; exact ⟨a, List.mem_cons_of_mem _ b⟩
        · right; refine ⟨a, ?_⟩
          rcases b with ⟨c, d⟩ | ⟨g, c, d⟩
          · left; refine ⟨c, ?_⟩
            simp only [List.map_cons, List.mem_cons, not_or]; exact ⟨Ne.symm h, d⟩
          · right; exact ⟨g, List.mem_cons_of_mem _ c, d⟩

/-- Enough fuel is enough. -/
theorem treeFrom_fuel (f g : Nat) (e : Word × Nat) (rest : List (Word × Nat)) (hf : rest.length ≤ f) (hg : rest.length ≤ g) :
    treeFrom f e rest = treeFrom g e rest := by
  induction f generalizing g e rest with
  | zero =>
    have : rest = [] := by simpa using hf
    subst this
    cases g <;> simp [treeFrom]
  | succ f ih =>
    cases g with
    | zero =>
      have : rest = [] := by simpa using hg
      subst this; simp [treeFrom]
    | succ g =>
      simp only [treeFrom]
      split
      · rfl
      · next r right hd =>
        have hl := congrArg List.length hd
        simp at hl
        rw [ih g e _ (by simp; omega) (by simp; omega), ih g r right (by omega) (by omega)]

/-- Enough fuel is enough. -/
theorem pathCode_fuel (f g k n : Nat) (hf : n ≤ f) (hg : n ≤ g) : pathCode f k n = pathCode g k n := by
  induction f generalizing g k n with
  | zero => have : n = 0 := by omega
            subst this; cases g <;> simp [pathCode]
  | succ f ih =>
    cases g with
    | zero => have : n = 0 := by omega
              subst this; simp [pathCode]
    | succ g =>
      simp only [pathCode]
      split
      · rfl
      · split
        · rw [ih g _ _ (by omega) (by omega)]
        · rw [ih g _ _ (by omega) (by omega)]

end Sys2Proof.Machine
end

