-- ==== Sys2Proof/Tests/Slice0.lean ====
section
/-! SUPPORT. Small tests and, for every statement with hypotheses, a concrete state that meets them. Expected results come
from the spec's own text: the encodings of spec/30_encoding.md, the tables of spec/41_shannon_fano.md and
spec/42_lz77.md, and the derived vectors of spec/95_test_vectors.md. -/

-- The tests evaluate many closed terms: one after another, so that they do not each hold a thread.
set_option Elab.async false

namespace Sys2Proof.Tests

open Sys2Proof.Machine

/-! ### Helpers -/

/-- Characters as memory words. -/
def text (l : List Char) : List Word := l.map fun c => BitVec.ofNat 32 c.toNat

/-- A memory whose first entries hold the words. -/
def mem (l : List Word) : Memory := ⟨l.zipIdx.map fun e => (e.2, e.1)⟩

/-- Table T3 of spec/95_test_vectors.md 2.2: a "0", b "10", c "11". FREQ is not written. -/
def t3 : CodeTable := { sym := mem (text ['a', 'b', 'c']), freq := mem [], codeLen := mem [1, 2, 2], codeBits := mem [0, 2, 3] }

/-- T3 as the commands read it. -/
def t3Rows : List TableRow := [⟨0x61, 1, 0⟩, ⟨0x62, 2, 2⟩, ⟨0x63, 2, 3⟩]

/-- An Idle block with the given parameters and memories; each length register holds the length of its text. -/
def block (p : Params) (txt bstr tok : List Word) (ct : CodeTable) (n : Word) : State :=
  { State.reset with
    params := p
    regs := { Regs.reset with
      txtLen := BitVec.ofNat 32 txt.length
      bstrLen := BitVec.ofNat 32 bstr.length
      tokLen := BitVec.ofNat 32 tok.length
      alphaN := n }
    mems := { txt := mem txt, bstr := mem bstr, tok := mem tok, ct := ct } }

/-- Room for every test below. -/
def roomy : Params := { charW := 8, txtDepth := 16, bstrDepth := 32, tokDepth := 64, ctDepth := 8 }

/-- The first `n` entries a memory holds. -/
def entries (m : Memory) (n : Nat) : List (Option Word) := (List.range n).map m.read

/-- Whether an outcome is a next state with the property. -/
def ends (o : Host.Outcome State Fault Refusal) (f : State → Bool) : Bool :=
  match o with
  | .next t => f t
  | .fault _ => false
  | .refused _ => false

theorem ends_spec {o : Host.Outcome State Fault Refusal} {f : State → Bool} (h : ends o f = true) :
    ∃ t, o = .next t ∧ f t = true := by
  cases o with
  | next t => exact ⟨t, rfl, h⟩
  | fault _ => simp [ends] at h
  | refused _ => simp [ends] at h

/-- The STATUS word and ERR_INFO after an outcome. -/
def record (t : State) : Word × Word := (t.readReg .status, t.readReg .errInfo)

/-! ### Well-formedness: each check refuses an ill-formed term -/

theorem test_wf_word_reserved_bits : commandWordWf 0x00000011 = false := by decide
theorem test_wf_word_top_reserved_bit : commandWordWf 0x80000001 = false := by decide
theorem test_wf_word_op_zero : commandWordWf 0x00000000 = false := by decide
theorem test_wf_word_op_eight : commandWordWf 0x00000008 = false := by decide
theorem test_wf_word_op_seven : commandWordWf 0x00000007 = true := by decide
theorem test_wf_access_misaligned : accessWf 0x100002 0xF = false := by decide
theorem test_wf_access_partial_lanes : accessWf 0x100000 0x7 = false := by decide
theorem test_wf_access_full : accessWf 0x100000 0xF = true := by decide
theorem test_wf_params_char_width :
    Params.wf { roomy with charW := 7 } = false ∧ Params.wf { roomy with charW := 33 } = false := by decide
theorem test_wf_params_txt_depth :
    Params.wf { roomy with txtDepth := 0 } = false ∧ Params.wf { roomy with txtDepth := 262145 } = false := by decide
theorem test_wf_params_bstr_depth :
    Params.wf { roomy with bstrDepth := 0 } = false ∧ Params.wf { roomy with bstrDepth := 262145 } = false := by decide
theorem test_wf_params_tok_depth :
    Params.wf { roomy with tokDepth := 0 } = false ∧ Params.wf { roomy with tokDepth := 262145 } = false := by decide
theorem test_wf_params_ct_depth :
    Params.wf { roomy with ctDepth := 0 } = false ∧ Params.wf { roomy with ctDepth := 65537 } = false := by decide
theorem test_wf_params_default : Params.default.wf = true := by decide

/-! ### Decoding: each word bit by bit, RSVD = bits [31:4], OP = bits [3:0] (spec/30_encoding.md R80, R81) -/

theorem test_decode_build : decode 0b0000000000000000000000000000_0001 = .ok .build := by rfl
theorem test_decode_sf_encode : decode 0b0000000000000000000000000000_0010 = .ok .sfEncode := by rfl
theorem test_decode_sf_decode : decode 0b0000000000000000000000000000_0011 = .ok .sfDecode := by rfl
theorem test_decode_lz_encode : decode 0b0000000000000000000000000000_0100 = .ok .lzEncode := by rfl
theorem test_decode_lz_decode : decode 0b0000000000000000000000000000_0101 = .ok .lzDecode := by rfl
theorem test_decode_compress : decode 0b0000000000000000000000000000_0110 = .ok .compress := by rfl
theorem test_decode_decompress : decode 0b0000000000000000000000000000_0111 = .ok .decompress := by rfl
theorem test_decode_op_zero : decode 0b0000000000000000000000000000_0000 = .error .illegalOp := by rfl
theorem test_decode_op_eight : decode 0b0000000000000000000000000000_1000 = .error .illegalOp := by rfl
theorem test_decode_reserved : decode 0b0000000000000000000000000001_0001 = .error .reservedBits := by rfl
theorem test_table_word : decodeTableWord 32 6 = some .compress ∧ decodeTableWord 32 0x16 = none := by decide
theorem test_step_runs_loaded_word :
    ends (step ((block roomy (text ['a']) [] [] t3 0).withFetchWord 32 1)) (fun t => t.regs.alphaN = 1) = true := by
  decide +kernel

/-! ### The codes of R148's table, n = 1 to 9, rank n - 1 and a middle rank -/

theorem test_code_single : closedCode 0 1 = text ['0'] := by decide
theorem test_code_three : (List.range 3).map (closedCode · 3) = [text ['0'], text ['1', '0'], text ['1', '1']] := by decide
theorem test_code_five : (List.range 5).map (closedCode · 5) =
    [text ['0', '0'], text ['0', '1'], text ['1', '0'], text ['1', '1', '0'], text ['1', '1', '1']] := by decide
theorem test_code_nine_last_two : closedCode 7 9 = text ['1', '1', '1', '0'] ∧ closedCode 8 9 = text ['1', '1', '1', '1'] := by
  decide

/-! ### Commands: the vectors of spec/95_test_vectors.md -/

/-- 2.1: "abracadabra"; a tie of b and r goes to the first to occur, and c has CODE_LEN 3, CODE_BITS 0x6. -/
theorem test_build_abracadabra :
    ends (exec .build (block roomy (text ['a', 'b', 'r', 'a', 'c', 'a', 'd', 'a', 'b', 'r', 'a']) [] [] t3 0)) (fun t =>
      t.regs.alphaN = 5 ∧ entries t.mems.ct.sym 5 = (text ['a', 'b', 'r', 'c', 'd']).map some ∧
      entries t.mems.ct.freq 5 = [some 5, some 2, some 2, some 1, some 1] ∧
      entries t.mems.ct.codeLen 5 = [some 2, some 2, some 2, some 3, some 3] ∧
      entries t.mems.ct.codeBits 5 = [some 0, some 1, some 2, some 6, some 7] ∧ record t = (0x00000002, 0)) = true := by
  decide +kernel

/-- 2.1: with CT_DEPTH = 2, "abc" is CAPACITY with info CT, and CT is unchanged. -/
theorem test_build_capacity :
    ends (exec .build (block { roomy with ctDepth := 2 } (text ['a', 'b', 'c']) [] [] t3 3)) (fun t =>
      record t = (0x00000502, 4) ∧ t.mems.ct = t3 ∧ t.regs.alphaN = 3) = true := by
  decide +kernel

/-- 2.2: "abcabc" with T3. -/
theorem test_sf_encode_abcabc :
    ends (exec .sfEncode (block roomy (text ['a', 'b', 'c', 'a', 'b', 'c']) [] [] t3 3)) (fun t =>
      t.mems.bstr = mem (text ['0', '1', '0', '1', '1', '0', '1', '0', '1', '1']) ∧ t.regs.bstrLen = 10 ∧
      record t = (0x00000002, 0)) = true := by
  decide +kernel

/-- 2.2: "abd" is UNKNOWN_SYMBOL at index 2. -/
theorem test_sf_encode_unknown :
    ends (exec .sfEncode (block roomy (text ['a', 'b', 'd']) (text ['1']) [] t3 3)) (fun t =>
      record t = (0x00000302, 2) ∧ t.mems.bstr = mem (text ['1']) ∧ t.regs.bstrLen = 1) = true := by
  decide +kernel

/-- 2.4: "0x1" gives "a" and two trailing characters. -/
theorem test_sf_decode_tail :
    ends (exec .sfDecode (block roomy [] (text ['0', 'x', '1']) [] t3 3)) (fun t =>
      t.mems.txt = mem (text ['a']) ∧ t.regs.txtLen = 1 ∧ t.regs.tailBits = 2 ∧ record t = (0x00000006, 0)) = true := by
  decide +kernel

/-- 2.3: a "0", b "1", c "11" fails TableOK at entry 2. -/
theorem test_sf_decode_bad_table :
    ends (exec .sfDecode (block roomy [] (text ['0']) [] { t3 with codeLen := mem [1, 1, 2], codeBits := mem [0, 1, 3] } 3))
      (fun t => record t = (0x00000402, 2)) = true := by
  decide +kernel

/-- 2.5: "0101101011" at W = 3: the longest match, and of two equally long ones the later. -/
theorem test_lz_encode_window :
    ends (exec .lzEncode (let s := block roomy [] (text ['0', '1', '0', '1', '1', '0', '1', '0', '1', '1']) [] t3 0
      { s with regs := { s.regs with window := 3 } })) (fun t =>
      t.mems.tok = mem (text ['<', '0', ',', '0', ',', '0', '>', '<', '0', ',', '0', ',', '1', '>', '<', '2', ',', '2', ',',
        '1', '>', '<', '3', ',', '2', ',', '0', '>', '<', '2', ',', '1', ',', '1', '>']) ∧ t.regs.tokLen = 35) = true := by
  decide +kernel

/-- 2.5: "0000" with TOK_DEPTH = 19 needs 20 characters. -/
theorem test_lz_encode_capacity :
    ends (exec .lzEncode (block { roomy with tokDepth := 19 } [] (text ['0', '0', '0', '0']) [] t3 0)) (fun t =>
      record t = (0x00000502, 3) ∧ t.mems.tok = mem []) = true := by
  decide +kernel

/-- 1.4 (Scenario 4): a stream that misses its last '>' stops at the last complete token. -/
theorem test_lz_decode_unterminated :
    ends (exec .lzDecode (block roomy [] [] (text ['<', '0', ',', '0', ',', '0', '>', '<', '0', ',', '0', ',', '1', '>', '<',
      '2', ',', '2']) t3 0)) (fun t =>
      t.mems.bstr = mem (text ['0', '1']) ∧ t.regs.bstrLen = 2 ∧ t.regs.truncPos = 14 ∧ record t = (0x0000100A, 0)) = true := by
  decide +kernel

/-- 2.6: `0<1,5,1>` copies an overlapping run. -/
theorem test_lz_decode_overlap :
    ends (exec .lzDecode (block roomy [] [] (text ['0', '<', '1', ',', '5', ',', '1', '>']) t3 0)) (fun t =>
      t.mems.bstr = mem (text ['0', '0', '0', '0', '0', '0', '1']) ∧ record t = (0x00000002, 0)) = true := by
  decide +kernel

/-- 1.2 (Scenario 2): "abcabc" compressed. -/
theorem test_compress_abcabc :
    ends (exec .compress (block roomy (text ['a', 'b', 'c', 'a', 'b', 'c']) [] [] t3 0)) (fun t =>
      t.mems.tok = mem (text ['<', '0', ',', '0', ',', '0', '>', '<', '0', ',', '0', ',', '1', '>', '<', '2', ',', '2', ',',
        '1', '>', '<', '5', ',', '5', ',', '>']) ∧
      t.mems.bstr = mem (text ['0', '1', '0', '1', '1', '0', '1', '0', '1', '1']) ∧
      entries t.mems.ct.codeBits 3 = [some 0, some 2, some 3] ∧ t.regs.alphaN = 3 ∧ t.regs.bstrLen = 10 ∧
      t.regs.tokLen = 27 ∧ record t = (0x00000002, 0)) = true := by
  decide +kernel

/-- TXT_LEN = 0 is EMPTY_INPUT. -/
theorem test_compress_empty :
    ends (exec .compress (block roomy [] [] [] t3 3)) (fun t => record t = (0x00000202, 0) ∧ t.regs.alphaN = 3) = true := by
  decide +kernel

/-- The tokens of "0000" decompressed with the table of "aaaa" (Scenario 1). -/
theorem test_decompress_aaaa :
    ends (exec .decompress (block roomy [] [] (text ['<', '0', ',', '0', ',', '0', '>', '<', '1', ',', '1', ',', '0', '>', '<',
      '1', ',', '1', ',', '>']) { sym := mem (text ['a']), freq := mem [], codeLen := mem [1], codeBits := mem [0] } 1))
      (fun t => t.mems.bstr = mem (text ['0', '0', '0', '0']) ∧ t.mems.txt = mem (text ['a', 'a', 'a', 'a']) ∧
        t.regs.txtLen = 4 ∧ record t = (0x00000002, 0)) = true := by
  decide +kernel

/-- Program P3: a truncated stream under T3 gives "a", one trailing character and both warnings. -/
theorem test_decompress_truncated :
    ends (exec .decompress (block roomy [] [] (text ['<', '0', ',', '0', ',', '0', '>', '<', '0', ',', '0', ',', '1', '>', '<',
      '2', ',', '2']) t3 3)) (fun t =>
      t.mems.txt = mem (text ['a']) ∧ t.regs.tailBits = 1 ∧ t.regs.truncPos = 14 ∧ record t = (0x0000100E, 0)) = true := by
  decide +kernel

/-- An entry nothing has written, inside the input range, is a fault that names it. -/
theorem test_build_unwritten :
    (match exec .build (let s := block roomy (text ['a']) [] [] t3 0
        { s with regs := { s.regs with txtLen := 2 } }) with
      | .fault f => decide (f = .unwrittenRead (.txt 1))
      | .next _ => false
      | .refused _ => false) = true := by
  decide +kernel

/-! ### The host's side -/

/-- The encodings of spec/30_encoding.md R93: a register write, a memory write, a CT field write, a command. -/
theorem test_host_statements :
    (HostStmt.wr .window 3).txn = .write 0x000014 0xF 3 ∧ (HostStmt.wrm (.txt 2) 0x63).txn = .write 0x100008 0xF 0x63 ∧
    (HostStmt.wrm (.ctLen 1) 2).txn = .write 0x400018 0xF 2 ∧ (HostStmt.cmd .compress).txn = .write 0x000008 0xF 6 := by
  decide

/-- LOADCT 1, 'b', "10" writes SYM, CODE_LEN and CODE_BITS (R94). -/
theorem test_host_loadct : loadCt 1 0x62 (text ['1', '0']) =
    [.wrm (.ctSym 1) 0x62, .wrm (.ctLen 1) 2, .wrm (.ctBits 1) 2] := by decide

/-- A CMD write while Busy is dropped with OVR (R114), and an access to TXT sets ACC (R74). -/
theorem test_busy_flags :
    (let s := (block roomy (text ['a']) [] [] t3 0).accept 1
     let t := (s.busWrite 0x000008 0xF 2).busWrite 0x100000 0xF 0x62
     decide (t.readReg .status = 0x00000031 ∧ t.regs.cmd = 1 ∧ t.mems.txt.read 0 = some 0x61)) = true := by
  decide +kernel

/-- A character is stored in CHAR_W bits (R65). -/
theorem test_stored_bits : (State.reset.busWrite 0x100000 0xF 0x12345678).mems.txt.read 0 = some 0x78 := by decide +kernel

/-- A soft reset keeps the memories and puts WINDOW back to 7 (R272). -/
theorem test_soft_reset :
    (let s := (block roomy (text ['a']) [] [] t3 3).accept 1
     let t := s.busWrite 0x000004 0xF 3
     decide (t.readReg .window = 7 ∧ t.regs.irqEn = false ∧ t.phase = .idle ∧ t.mems = s.mems ∧ t.regs.alphaN = 0)) = true := by
  decide +kernel

/-! ### Witnesses: for each statement with hypotheses, a state and operands that meet them

`demo` sits on every boundary: each text is as long as its memory is deep, and the table has CT_DEPTH entries. -/

/-- "aa" in TXT, "00" in BSTR, its tokens in TOK, and T3. -/
def demo : State :=
  block { charW := 8, txtDepth := 2, bstrDepth := 2, tokDepth := 13, ctDepth := 3 } (text ['a', 'a']) (text ['0', '0'])
    (text ['<', '0', ',', '0', ',', '0', '>', '<', '1', ',', '1', ',', '>']) t3 3

/-- The tokens of "00". -/
def demoTok : List Word := text ['<', '0', ',', '0', ',', '0', '>', '<', '1', ',', '1', ',', '>']

/-- `demo` with the command word `v` in flight. -/
def inFlight (v : Word) : State := demo.accept v

/-- `demo` with other depths. -/
def demoWith (p : Params) : State := { demo with params := p }

theorem holds_of {snap : Snapshot} {mk : Nat → Cell} {t : List Word}
    (h : ((List.range t.length).all fun k => decide (snap.mems.read (mk k) = t[k]?)) = true) : snap.Holds mk t := by
  intro k hk
  simpa using List.all_eq_true.1 h k (List.mem_range.2 hk)

theorem holdsRows_of {snap : Snapshot} {rows : List TableRow}
    (h : ((List.range rows.length).all fun k => decide (snap.mems.read (.ctSym k) = rows[k]?.map TableRow.sym ∧
      snap.mems.read (.ctLen k) = rows[k]?.map TableRow.len ∧ snap.mems.read (.ctBits k) = rows[k]?.map TableRow.bits)) = true) :
    snap.HoldsRows rows := by
  intro k r hr
  have := List.all_eq_true.1 h k (List.mem_range.2 (List.getElem?_eq_some_iff.1 hr).1)
  simpa [hr] using this

theorem fits_of {p : Params} {m : Memories}
    (h : (m.txt.cells.all (fun e => decide (e.1 < p.txtDepth ∧ storedBits p (.txt e.1) e.2 = e.2)) &&
      m.bstr.cells.all (fun e => decide (e.1 < p.bstrDepth ∧ storedBits p (.bstr e.1) e.2 = e.2)) &&
      m.tok.cells.all (fun e => decide (e.1 < p.tokDepth ∧ storedBits p (.tok e.1) e.2 = e.2)) &&
      m.ct.sym.cells.all (fun e => decide (e.1 < p.ctDepth ∧ storedBits p (.ctSym e.1) e.2 = e.2)) &&
      m.ct.freq.cells.all (fun e => decide (e.1 < p.ctDepth ∧ storedBits p (.ctFreq e.1) e.2 = e.2)) &&
      m.ct.codeLen.cells.all (fun e => decide (e.1 < p.ctDepth ∧ storedBits p (.ctLen e.1) e.2 = e.2)) &&
      m.ct.codeBits.cells.all (fun e => decide (e.1 < p.ctDepth ∧ storedBits p (.ctBits e.1) e.2 = e.2))) = true) :
    m.Fits p := by
  simp only [Bool.and_eq_true, List.all_eq_true, decide_eq_true_eq] at h
  obtain ⟨⟨⟨⟨⟨⟨h1, h2⟩, h3⟩, h4⟩, h5⟩, h6⟩, h7⟩ := h
  have key : ∀ (l : List (Nat × Word)) (k : Nat) (v : Word), l.lookup k = some v → (k, v) ∈ l := by
    intro l k v hl
    induction l with
    | nil => simp at hl
    | cons e l ih =>
      obtain ⟨j, w⟩ := e
      simp only [List.lookup_cons] at hl
      split at hl
      · next hj => simp at hj hl; simp [hj, hl]
      · exact List.mem_cons_of_mem _ (ih hl)
  intro c v hc
  cases c with
  | txt k => exact h1 _ (key _ _ _ hc)
  | bstr k => exact h2 _ (key _ _ _ hc)
  | tok k => exact h3 _ (key _ _ _ hc)
  | ctSym k => exact h4 _ (key _ _ _ hc)
  | ctFreq k => exact h5 _ (key _ _ _ hc)
  | ctLen k => exact h6 _ (key _ _ _ hc)
  | ctBits k => exact h7 _ (key _ _ _ hc)

theorem demo_inv : demo.Inv :=
  ⟨by decide, by decide, fits_of (by decide +kernel), ⟨by decide, by decide, by decide, by decide, by decide⟩,
    fun _ _ h => by cases h⟩

/-- In flight too. -/
theorem inFlight_inv (v : Word) : (inFlight v).Inv :=
  ⟨demo_inv.params, demo_inv.canonical, demo_inv.fits, ⟨by simp [inFlight], by simp [inFlight], by simp [inFlight],
    by simp [inFlight], by simp [inFlight]⟩, fun w snap h => by
      cases h
      constructor <;> rfl⟩

theorem demo_txt : demo.inputs.Holds .txt (text ['a', 'a']) := holds_of (by decide +kernel)
theorem demo_bstr : demo.inputs.Holds .bstr (text ['0', '0']) := holds_of (by decide +kernel)
theorem demo_tok : demo.inputs.Holds .tok demoTok := holds_of (by decide +kernel)
theorem demo_table : demo.inputs.HoldsTable t3Rows := ⟨by decide, holdsRows_of (by decide +kernel)⟩

theorem t3_rowsValid : RowsValid t3Rows := by unfold RowsValid; decide

theorem t3_valid : TableValid demo.params t3Rows := ⟨by decide, by decide, t3_rowsValid⟩

theorem demo_parse : BitParse t3Rows (text ['0', '0']) [⟨0x61, 1, 0⟩, ⟨0x61, 1, 0⟩] [] :=
  ⟨by decide, by decide, by decide⟩

/-- The token text of "00" by the rules: a literal, then a back-reference that reaches the end. -/
theorem demo_encodes : EncodesFrom (text ['0', '0']) 7 0 demoTok := by
  refine EncodesFrom.literal (c := 0x30) (out := text ['<', '1', ',', '1', ',', '>']) rfl ?_ ?_
  · intro p j h
    have := h.before
    omega
  · refine EncodesFrom.backReference (i := 1) (off := 1) (len := 1) (out := []) ⟨by decide, by decide,
      ⟨by decide, by decide, by decide, by decide⟩, ?_, ?_⟩ (.done (by decide))
    · intro p j h
      have := h.before
      omega
    · intro p h
      have := h.before
      omega

theorem demo_encodes_zero : EncodesFrom (text ['0']) 0 0 (text ['<', '0', ',', '0', ',', '0', '>']) :=
  EncodesFrom.literal (c := 0x30) (out := []) rfl (fun p j h => by have := h.before; omega) (.done (by decide))

/-- The decoding of those tokens by the rules. -/
theorem demo_decodes : DecodesFrom demoTok 0 [] (text ['0', '0']) none := by
  refine DecodesFrom.token (body := text ['0', ',', '0', ',', '0']) (a := text ['0']) (b := text ['0']) (c := text ['0'])
    (copy := []) ⟨by decide, by decide, by decide⟩
    ⟨by decide, by decide, by decide, by decide, by decide, by decide, by decide, by decide⟩ (by decide) (by decide)
    (by decide) ?_
  refine DecodesFrom.token (body := text ['1', ',', '1', ',']) (a := text ['1']) (b := text ['1']) (c := [])
    (copy := text ['0']) ⟨by decide, by decide, by decide⟩
    ⟨by decide, by decide, by decide, by decide, by decide, by decide, by decide, by decide⟩ (by decide) (by decide)
    (by decide) ?_
  exact .done (by decide)

/-! #### Encoding and the engine's step -/

theorem witness_IllegalWordEndsWithIllegalCmd :
    demo.phase = .idle ∧ commandWordWf 0 = false ∧ commandWordWf 8 = false ∧ commandWordWf 0x11 = false := by decide

theorem witness_EngineStepRunsTheDecodedCommand :
    (∃ v snap i, (inFlight 1).phase = .busy v snap ∧ decode v = .ok i) ∧
    (∃ v snap r, (inFlight 8).phase = .busy v snap ∧ decode v = .error r) ∧ demo.phase = .idle :=
  ⟨⟨_, _, _, rfl, rfl⟩, ⟨_, _, _, rfl, rfl⟩, rfl⟩

theorem witness_LoadedWordRunsNext : decodeTableWord 32 7 = some .decompress ∧ demo.phase = .idle := by decide

/-! #### BUILD -/

theorem witness_BuildWritesTheCodeTable :
    demo.inputs.regs.txtLen.toNat = (text ['a', 'a']).length ∧ demo.inputs.Holds .txt (text ['a', 'a']) ∧
    text ['a', 'a'] ≠ [] ∧ (text ['a', 'a']).length ≤ demo.params.txtDepth ∧
    (text ['a', 'a']).dedup.length ≤ demo.params.ctDepth :=
  ⟨by decide, demo_txt, by decide, by decide, by decide⟩

theorem witness_BuildErrors :
    (∃ s : State, s.params.txtDepth < s.inputs.regs.txtLen.toNat ∧ s.inputs.regs.txtLen.toNat = s.params.txtDepth + 1) ∧
    (∃ s : State, s.inputs.regs.txtLen.toNat = 0) ∧
    (∃ (s : State) (t : List Word), s.inputs.regs.txtLen.toNat = t.length ∧ s.inputs.Holds .txt t ∧
      t.length ≤ s.params.txtDepth ∧ s.params.ctDepth < t.dedup.length) ∧
    (∃ s : State, s.Inv ∧ 2 ^ s.params.charW ≤ s.params.ctDepth) ∧
    ∃ t, exec .build demo = .next t ∧ t.regs.status.err = .ok :=
  ⟨⟨demoWith { demo.params with txtDepth := 1 }, by decide, by decide⟩, ⟨State.reset, by decide⟩,
    ⟨block { roomy with ctDepth := 1 } (text ['a', 'b']) [] [] t3 0, text ['a', 'b'], by decide, holds_of (by decide +kernel),
      by decide, by decide⟩,
    ⟨State.reset, ⟨by decide, by decide, fun c v h => by simp [State.reset] at h,
      ⟨by decide, by decide, by decide, by decide, by decide⟩, fun _ _ h => by cases h⟩, by decide⟩,
    (ends_spec (f := fun t => decide (t.regs.status.err = .ok)) (by decide +kernel)).imp fun _ h => ⟨h.1, of_decide_eq_true h.2⟩⟩

theorem witness_TreeSplitsAtTheMidpoint :
    ([((0x61 : Word), 2)] : List (Word × Nat)).length = ([((0x61 : Word), 2)] ++ [(0x62, 1), (0x63, 1)]).length / 2 := by decide

theorem witness_TreeCodesAreTheClosedForm : 2 ≤ 2 ∧ 1 < 2 := by decide

theorem witness_BuiltTablePassesTableOk :
    demo.Inv ∧ ∃ t, exec .build demo = .next t ∧ t.regs.status.err = .ok :=
  ⟨demo_inv, (ends_spec (f := fun t => decide (t.regs.status.err = .ok)) (by decide +kernel)).imp
    fun _ h => ⟨h.1, of_decide_eq_true h.2⟩⟩

/-! #### Codes and tables -/

theorem ones : ∀ x ∈ List.replicate 32 chOne, x = chZero ∨ x = chOne := fun _ hx => .inr (List.eq_of_mem_replicate hx)

theorem witness_CodesReadBack :
    (∀ x ∈ List.replicate 32 chOne, x = chZero ∨ x = chOne) ∧ (List.replicate 32 chOne).length ≤ 32 ∧
    (0xFFFFFFF2 : Word).toNat % 2 ^ 2 = (2 : Word).toNat % 2 ^ 2 :=
  ⟨ones, by simp, by simp⟩

theorem witness_BadTablesAreReported :
    (∃ s : State, s.inputs.BadTable s.params 0xFFFFFFFF ∧ s.inputs.regs.txtLen.toNat ≤ s.params.txtDepth ∧
      s.inputs.regs.bstrLen.toNat ≤ s.params.bstrDepth ∧ s.inputs.regs.tokLen.toNat ≤ s.params.tokDepth ∧
      s.inputs.regs.alphaN.toNat = s.params.ctDepth + 1) ∧
    (∃ s : State, s.inputs.BadTable s.params 0 ∧ s.inputs.regs.txtLen.toNat ≤ s.params.txtDepth ∧
      s.inputs.regs.bstrLen.toNat ≤ s.params.bstrDepth ∧ s.inputs.regs.tokLen.toNat ≤ s.params.tokDepth) ∧
    (demo.inputs.HoldsTable t3Rows ∧ TableValid demo.params t3Rows) ∧
    ∃ s : State, s.inputs.HoldsTable [⟨0x61, 33, 0⟩] ∧ ¬ TableValid s.params [⟨0x61, 33, 0⟩] := by
  refine ⟨⟨{ demo with regs := { demo.regs with alphaN := 4 } }, .inl ⟨.inr (by decide), rfl⟩, by decide, by decide,
      by decide, by decide⟩,
    ⟨{ demo with mems := { demo.mems with ct := { t3 with codeLen := mem [33] } } }, .inr ⟨by decide, [], ⟨0x61, 33, 0⟩,
      by decide, holdsRows_of (by decide +kernel), by unfold RowsValid; decide, by unfold RowsValid; decide, by decide⟩,
      by decide, by decide, by decide⟩,
    ⟨demo_table, t3_valid⟩,
    { demo with regs := { demo.regs with alphaN := 1 }, mems := { demo.mems with ct := { t3 with codeLen := mem [33] } } },
    ⟨by decide, holdsRows_of (by decide +kernel)⟩, fun h => ?_⟩
  have := (h.valid.1 _ List.mem_cons_self).2
  exact absurd this (by decide)

/-! #### SF_ENCODE and SF_DECODE -/

theorem demo_known : ∀ x ∈ text ['a', 'a'], ∃ r ∈ t3Rows, r.sym = x := by
  intro x hx
  have : x = 0x61 := by simpa [text] using hx
  exact ⟨⟨0x61, 1, 0⟩, by decide, this.symm⟩

theorem witness_SfEncodeConcatenatesTheCodes :
    demo.inputs.HoldsTable t3Rows ∧ TableValid demo.params t3Rows ∧
    demo.inputs.regs.txtLen.toNat = (text ['a', 'a']).length ∧ demo.inputs.Holds .txt (text ['a', 'a']) ∧
    (text ['a', 'a']).length ≤ demo.params.txtDepth ∧ (∀ x ∈ text ['a', 'a'], ∃ r ∈ t3Rows, r.sym = x) ∧
    ((text ['a', 'a']).flatMap (rowCode t3Rows)).length ≤ demo.params.bstrDepth :=
  ⟨demo_table, t3_valid, by decide, demo_txt, by decide, demo_known, by decide +kernel⟩

theorem witness_SfEncodeErrors :
    (∃ s : State, s.params.txtDepth < s.inputs.regs.txtLen.toNat) ∧
    (∃ s : State, s.inputs.regs.txtLen.toNat ≤ s.params.txtDepth ∧ s.inputs.BadTable s.params 0xFFFFFFFF) ∧
    (∃ s : State, s.inputs.HoldsTable t3Rows ∧ TableValid s.params t3Rows ∧
      s.inputs.regs.txtLen.toNat = (text ['a', 'd']).length ∧ s.inputs.Holds .txt (text ['a', 'd']) ∧
      (text ['a', 'd']).length ≤ s.params.txtDepth ∧ (∀ r ∈ t3Rows, (text ['a', 'd'])[1]? ≠ some r.sym) ∧
      ∀ p < 1, ∃ r ∈ t3Rows, (text ['a', 'd'])[p]? = some r.sym) ∧
    ∃ s : State, s.inputs.HoldsTable t3Rows ∧ TableValid s.params t3Rows ∧
      s.inputs.regs.txtLen.toNat = (text ['a', 'a']).length ∧ s.inputs.Holds .txt (text ['a', 'a']) ∧
      (text ['a', 'a']).length ≤ s.params.txtDepth ∧ (∀ x ∈ text ['a', 'a'], ∃ r ∈ t3Rows, r.sym = x) ∧
      s.params.bstrDepth < ((text ['a', 'a']).flatMap (rowCode t3Rows)).length :=
  ⟨⟨demoWith { demo.params with txtDepth := 1 }, by decide⟩,
    ⟨{ demo with regs := { demo.regs with alphaN := 0 } }, by decide, .inl ⟨.inl rfl, rfl⟩⟩,
    ⟨block demo.params (text ['a', 'd']) [] [] t3 3, ⟨by decide, holdsRows_of (by decide +kernel)⟩, t3_valid, by decide,
      holds_of (by decide +kernel), by decide, by decide, by decide⟩,
    ⟨demoWith { demo.params with bstrDepth := 1 }, ⟨by decide, holdsRows_of (by decide +kernel)⟩,
      ⟨by decide, by decide, t3_rowsValid⟩, by decide, holds_of (by decide +kernel), by decide, demo_known, by decide +kernel⟩⟩

theorem witness_EveryBitstringParsesOneWay : RowsValid t3Rows := t3_rowsValid

theorem witness_SfDecodeEmitsTheParsedSymbols :
    demo.inputs.HoldsTable t3Rows ∧ TableValid demo.params t3Rows ∧
    demo.inputs.regs.bstrLen.toNat = (text ['0', '0']).length ∧ demo.inputs.Holds .bstr (text ['0', '0']) ∧
    (text ['0', '0']).length ≤ demo.params.bstrDepth ∧ BitParse t3Rows (text ['0', '0']) [⟨0x61, 1, 0⟩, ⟨0x61, 1, 0⟩] [] ∧
    [(⟨0x61, 1, 0⟩ : TableRow), ⟨0x61, 1, 0⟩].length ≤ demo.params.txtDepth :=
  ⟨demo_table, t3_valid, by decide, demo_bstr, by decide, demo_parse, by decide⟩

/-- With a tail: "1" starts two codes of T3 and is none. -/
theorem witness_tail : BitParse t3Rows (text ['0', '1']) [⟨0x61, 1, 0⟩] (text ['1']) := ⟨by decide, by decide, by decide⟩

theorem witness_SfDecodeErrors :
    (∃ s : State, s.params.bstrDepth < s.inputs.regs.bstrLen.toNat) ∧
    (∃ s : State, s.inputs.regs.bstrLen.toNat ≤ s.params.bstrDepth ∧ s.inputs.BadTable s.params 0xFFFFFFFF) ∧
    ∃ s : State, s.inputs.HoldsTable t3Rows ∧ TableValid s.params t3Rows ∧
      s.inputs.regs.bstrLen.toNat = (text ['0', '0']).length ∧ s.inputs.Holds .bstr (text ['0', '0']) ∧
      (text ['0', '0']).length ≤ s.params.bstrDepth ∧ BitParse t3Rows (text ['0', '0']) [⟨0x61, 1, 0⟩, ⟨0x61, 1, 0⟩] [] ∧
      s.params.txtDepth < [(⟨0x61, 1, 0⟩ : TableRow), ⟨0x61, 1, 0⟩].length :=
  ⟨⟨demoWith { demo.params with bstrDepth := 1 }, by decide⟩,
    ⟨{ demo with regs := { demo.regs with alphaN := 0 } }, by decide, .inl ⟨.inl rfl, rfl⟩⟩,
    ⟨demoWith { demo.params with txtDepth := 1 }, ⟨by decide, holdsRows_of (by decide +kernel)⟩,
      ⟨by decide, by decide, t3_rowsValid⟩, by decide, holds_of (by decide +kernel), by decide, demo_parse, by decide⟩⟩

theorem witness_ShannonFanoRoundTrip :
    demo.Inv ∧ ∃ t, exec .sfEncode demo = .next t ∧ t.regs.status.err = .ok :=
  ⟨demo_inv, (ends_spec (f := fun t => decide (t.regs.status.err = .ok)) (by decide +kernel)).imp
    fun _ h => ⟨h.1, of_decide_eq_true h.2⟩⟩

/-! #### LZ_ENCODE and LZ_DECODE -/

theorem witness_DecimalTextReadsBack : digits (text ['0', '7']) = true ∧ val (text ['0', '7']) = 7 := by decide

theorem witness_TokenTextFollowsTheSearchRules : EncodesFrom (text ['0', '0']) 7 0 demoTok := demo_encodes

theorem witness_LzEncodeWritesTheTokenText :
    demo.inputs.regs.bstrLen.toNat = (text ['0', '0']).length ∧ demo.inputs.Holds .bstr (text ['0', '0']) ∧
    (text ['0', '0']).length ≤ demo.params.bstrDepth ∧
    EncodesFrom (text ['0', '0']) demo.inputs.regs.window.toNat 0 demoTok ∧ demoTok.length ≤ demo.params.tokDepth :=
  ⟨by decide, demo_bstr, by decide, demo_encodes, by decide⟩

theorem witness_LzEncodeErrors :
    (∃ s : State, s.params.bstrDepth < s.inputs.regs.bstrLen.toNat) ∧
    (∃ s : State, s.inputs.regs.bstrLen.toNat = (text ['0', '0']).length ∧ s.inputs.Holds .bstr (text ['0', '0']) ∧
      (text ['0', '0']).length ≤ s.params.bstrDepth ∧
      EncodesFrom (text ['0', '0']) s.inputs.regs.window.toNat 0 demoTok ∧ s.params.tokDepth < demoTok.length) ∧
    (∃ s : State, s.params = Params.default) ∧ ∃ s : State, s.inputs.regs.bstrLen = 0 :=
  ⟨⟨demoWith { demo.params with bstrDepth := 1 }, by decide⟩,
    ⟨demoWith { demo.params with tokDepth := 12 }, by decide, demo_bstr, by decide, demo_encodes, by decide⟩,
    ⟨State.reset, rfl⟩, ⟨State.reset, rfl⟩⟩

theorem witness_TokenTextDecodesByTheRules : DecodesFrom demoTok 0 [] (text ['0', '0']) none := demo_decodes

/-- Each of the three truncations occurs. -/
theorem witness_truncations :
    DecodesFrom (text ['<']) 0 [] [] (some (.unterminated, 0)) ∧
    DecodesFrom (text ['<', '>']) 0 [] [] (some (.badField, 0)) ∧
    DecodesFrom (text ['<', '1', ',', '1', ',', '>']) 0 [] [] (some (.badOffset, 0)) := by
  refine ⟨.unterminated (by decide) (by decide), .badField (body := []) ⟨by decide, by decide, by decide⟩ ?_,
    .badOffset (body := text ['1', ',', '1', ',']) (a := text ['1']) (b := text ['1']) (c := [])
      ⟨by decide, by decide, by decide⟩
      ⟨by decide, by decide, by decide, by decide, by decide, by decide, by decide, by decide⟩ (by decide) (by decide)⟩
  intro a b c h
  have := h.split
  simp at this

theorem witness_LzDecodeWritesTheDecodedText :
    demo.inputs.regs.tokLen.toNat = demoTok.length ∧ demo.inputs.Holds .tok demoTok ∧
    demoTok.length ≤ demo.params.tokDepth ∧ DecodesFrom demoTok 0 [] (text ['0', '0']) none ∧
    (text ['0', '0']).length ≤ demo.params.bstrDepth :=
  ⟨by decide, demo_tok, by decide, demo_decodes, by decide⟩

theorem witness_LzDecodeErrors :
    (∃ s : State, s.params.tokDepth < s.inputs.regs.tokLen.toNat) ∧
    ∃ s : State, s.inputs.regs.tokLen.toNat = demoTok.length ∧ s.inputs.Holds .tok demoTok ∧
      demoTok.length ≤ s.params.tokDepth ∧ DecodesFrom demoTok 0 [] (text ['0', '0']) none ∧
      s.params.bstrDepth < (text ['0', '0']).length :=
  ⟨⟨demoWith { demo.params with tokDepth := 12 }, by decide⟩,
    ⟨demoWith { demo.params with bstrDepth := 1 }, by decide, demo_tok, by decide, demo_decodes, by decide⟩⟩

theorem witness_Lz77RoundTrip :
    demo.Inv ∧ ∃ t, exec .lzEncode demo = .next t ∧ t.regs.status.err = .ok :=
  ⟨demo_inv, (ends_spec (f := fun t => decide (t.regs.status.err = .ok)) (by decide +kernel)).imp
    fun _ h => ⟨h.1, of_decide_eq_true h.2⟩⟩

/-! #### COMPRESS and DECOMPRESS -/

theorem witness_CompressWritesItsThreeOutputs :
    demo.inputs.regs.txtLen.toNat = (text ['a', 'a']).length ∧ demo.inputs.Holds .txt (text ['a', 'a']) ∧
    text ['a', 'a'] ≠ [] ∧ (text ['a', 'a']).length ≤ demo.params.txtDepth ∧
    (text ['a', 'a']).dedup.length ≤ demo.params.ctDepth ∧
    text ['0', '0'] = (text ['a', 'a']).flatMap (codeOf (rank (tally (text ['a', 'a'])))) ∧
    (text ['0', '0']).length ≤ demo.params.bstrDepth ∧
    EncodesFrom (text ['0', '0']) demo.inputs.regs.window.toNat 0 demoTok ∧ demoTok.length ≤ demo.params.tokDepth :=
  ⟨by decide, demo_txt, by decide, by decide, by decide, by decide, by decide, demo_encodes, by decide⟩

theorem witness_CompressErrors :
    (∃ s : State, s.params.txtDepth < s.inputs.regs.txtLen.toNat) ∧ (∃ s : State, s.inputs.regs.txtLen.toNat = 0) ∧
    text ['0', '0'] = (text ['a', 'a']).flatMap (codeOf (rank (tally (text ['a', 'a'])))) ∧
    (∃ s : State, s.inputs.regs.txtLen.toNat = (text ['a', 'a']).length ∧ s.inputs.Holds .txt (text ['a', 'a']) ∧
      (text ['a', 'a']).length ≤ s.params.txtDepth ∧ EncodesFrom (text ['0', '0']) s.inputs.regs.window.toNat 0 demoTok ∧
      (text ['a', 'a']).dedup.length ≤ s.params.ctDepth ∧ s.params.bstrDepth < (text ['0', '0']).length) ∧
    (∃ s : State, s.inputs.regs.txtLen.toNat = (text ['a', 'a']).length ∧ s.inputs.Holds .txt (text ['a', 'a']) ∧
      (text ['a', 'a']).length ≤ s.params.txtDepth ∧ EncodesFrom (text ['0', '0']) s.inputs.regs.window.toNat 0 demoTok ∧
      (text ['a', 'a']).dedup.length ≤ s.params.ctDepth ∧ (text ['0', '0']).length ≤ s.params.bstrDepth ∧
      s.params.tokDepth < demoTok.length) ∧
    (∃ (s : State) (out : List Word), s.inputs.regs.txtLen.toNat = (text ['a', 'b']).length ∧
      s.inputs.Holds .txt (text ['a', 'b']) ∧ (text ['a', 'b']).length ≤ s.params.txtDepth ∧
      EncodesFrom ((text ['a', 'b']).flatMap (codeOf (rank (tally (text ['a', 'b']))))) s.inputs.regs.window.toNat 0 out ∧
      s.params.ctDepth < (text ['a', 'b']).dedup.length) ∧
    ∃ s : State, s.Inv ∧ s.params = Params.default := by
  refine ⟨⟨demoWith { demo.params with txtDepth := 1 }, by decide⟩, ⟨State.reset, by decide⟩, by decide,
    ⟨demoWith { demo.params with bstrDepth := 1 }, by decide, demo_txt, by decide, demo_encodes, by decide, by decide⟩,
    ⟨demoWith { demo.params with tokDepth := 12 }, by decide, demo_txt, by decide, demo_encodes, by decide, by decide,
      by decide⟩,
    ⟨{ block { roomy with ctDepth := 1 } (text ['a', 'b']) [] [] t3 0 with
        regs := { Regs.reset with txtLen := 2, window := 0 } },
      text ['<', '0', ',', '0', ',', '0', '>', '<', '0', ',', '0', ',', '1', '>'], by decide, holds_of (by decide +kernel),
      by decide, ?_, by decide⟩,
    ⟨State.reset, ⟨by decide, by decide, fun c v h => by simp [State.reset] at h,
      ⟨by decide, by decide, by decide, by decide, by decide⟩, fun _ _ h => by cases h⟩, rfl⟩⟩
  have none : ∀ i p j, MatchAt (text ['0', '1']) 0 i p j → j = 0 := by
    intro i p j h
    have h1 := h.window
    have h2 := h.before
    omega
  have : (text ['a', 'b']).flatMap (codeOf (rank (tally (text ['a', 'b'])))) = text ['0', '1'] := by decide
  rw [this]
  exact EncodesFrom.literal (c := 0x30) (out := text ['<', '0', ',', '0', ',', '1', '>']) rfl (none 0)
    (EncodesFrom.literal (c := 0x31) (out := []) rfl (none 1) (.done (by decide)))

theorem witness_CompressEqualsItsStages :
    demo.Inv ∧ ∃ t, exec .compress demo = .next t ∧ t.regs.status.err = .ok :=
  ⟨demo_inv, (ends_spec (f := fun t => decide (t.regs.status.err = .ok)) (by decide +kernel)).imp
    fun _ h => ⟨h.1, of_decide_eq_true h.2⟩⟩

theorem witness_DecompressWritesBitstringAndText :
    demo.inputs.HoldsTable t3Rows ∧ TableValid demo.params t3Rows ∧ demo.inputs.regs.tokLen.toNat = demoTok.length ∧
    demo.inputs.Holds .tok demoTok ∧ demoTok.length ≤ demo.params.tokDepth ∧
    DecodesFrom demoTok 0 [] (text ['0', '0']) none ∧ (text ['0', '0']).length ≤ demo.params.bstrDepth ∧
    BitParse t3Rows (text ['0', '0']) [⟨0x61, 1, 0⟩, ⟨0x61, 1, 0⟩] [] ∧
    [(⟨0x61, 1, 0⟩ : TableRow), ⟨0x61, 1, 0⟩].length ≤ demo.params.txtDepth :=
  ⟨demo_table, t3_valid, by decide, demo_tok, by decide, demo_decodes, by decide, demo_parse, by decide⟩

theorem witness_DecompressErrors :
    (∃ s : State, s.params.tokDepth < s.inputs.regs.tokLen.toNat) ∧
    (∃ s : State, s.inputs.regs.tokLen.toNat ≤ s.params.tokDepth ∧ s.inputs.BadTable s.params 0xFFFFFFFF) ∧
    DecodesFrom demoTok 0 [] (text ['0', '0']) none ∧
    BitParse t3Rows (text ['0', '0']) [⟨0x61, 1, 0⟩, ⟨0x61, 1, 0⟩] [] ∧
    (∃ s : State, s.inputs.HoldsTable t3Rows ∧ TableValid s.params t3Rows ∧ s.inputs.regs.tokLen.toNat = demoTok.length ∧
      s.inputs.Holds .tok demoTok ∧ demoTok.length ≤ s.params.tokDepth ∧ s.params.bstrDepth < (text ['0', '0']).length) ∧
    ∃ s : State, s.inputs.HoldsTable t3Rows ∧ TableValid s.params t3Rows ∧ s.inputs.regs.tokLen.toNat = demoTok.length ∧
      s.inputs.Holds .tok demoTok ∧ demoTok.length ≤ s.params.tokDepth ∧ (text ['0', '0']).length ≤ s.params.bstrDepth ∧
      s.params.txtDepth < [(⟨0x61, 1, 0⟩ : TableRow), ⟨0x61, 1, 0⟩].length :=
  ⟨⟨demoWith { demo.params with tokDepth := 12 }, by decide⟩,
    ⟨{ demo with regs := { demo.regs with alphaN := 0 } }, by decide, .inl ⟨.inl rfl, rfl⟩⟩, demo_decodes, demo_parse,
    ⟨demoWith { demo.params with bstrDepth := 1 }, demo_table, ⟨by decide, by decide, t3_rowsValid⟩, by decide, demo_tok,
      by decide, by decide⟩,
    ⟨demoWith { demo.params with txtDepth := 1 }, demo_table, ⟨by decide, by decide, t3_rowsValid⟩, by decide, demo_tok,
      by decide, by decide, by decide⟩⟩

theorem witness_CompressDecompressRoundTrip :
    demo.Inv ∧ ∃ t, exec .compress demo = .next t ∧ t.regs.status.err = .ok ∧
      ∃ u : State, u.params = t.params ∧ u.inputs.regs.tokLen = t.regs.tokLen ∧ u.inputs.regs.alphaN = t.regs.alphaN ∧
        ∀ c, CommandReads t.regs .decompress c → u.inputs.mems.read c = t.mems.read c := by
  obtain ⟨t, h, he⟩ := ends_spec (o := exec .compress demo) (f := fun t => decide (t.regs.status.err = .ok)) (by decide +kernel)
  exact ⟨demo_inv, t, h, of_decide_eq_true he, t.accept 7, rfl, rfl, rfl, fun _ _ => rfl⟩

/-! #### Every command -/

/-- Every memory word the registers of `demo` let a command read is written. -/
theorem witness_CommandsCompleteOnWrittenInputs : ∀ i : Instr, InputsWritten demo.params demo.inputs i := by
  have key : (((List.range 2).all fun k => (demo.mems.read (.txt k)).isSome && (demo.mems.read (.bstr k)).isSome) &&
      ((List.range 13).all fun k => (demo.mems.read (.tok k)).isSome) &&
      ((List.range 3).all fun k => (demo.mems.read (.ctSym k)).isSome && (demo.mems.read (.ctLen k)).isSome &&
        (demo.mems.read (.ctBits k)).isSome)) = true := by decide +kernel
  simp only [Bool.and_eq_true, List.all_eq_true, List.mem_range] at key
  obtain ⟨⟨h1, h2⟩, h3⟩ := key
  have table : ∀ c, TableReads demo.inputs.regs c → (demo.inputs.mems.read c).isSome := by
    rintro c ⟨k, hk, rfl | rfl | rfl⟩
    · exact (h3 k hk).1.1
    · exact (h3 k hk).1.2
    · exact (h3 k hk).2
  intro i c hc _
  cases i with
  | build => obtain ⟨k, hk, rfl⟩ := hc; exact (h1 k hk).1
  | sfEncode => rcases hc with ⟨k, hk, rfl⟩ | hc; exacts [(h1 k hk).1, table c hc]
  | sfDecode => rcases hc with ⟨k, hk, rfl⟩ | hc; exacts [(h1 k hk).2, table c hc]
  | lzEncode => obtain ⟨k, hk, rfl⟩ := hc; exact (h1 k hk).2
  | lzDecode => obtain ⟨k, hk, rfl⟩ := hc; exact h2 k hk
  | compress => obtain ⟨k, hk, rfl⟩ := hc; exact (h1 k hk).1
  | decompress => rcases hc with ⟨k, hk, rfl⟩ | hc; exacts [h2 k hk, table c hc]

/-- `demo` with the three texts unwritten. -/
def unwrittenDemo : State := { demo with mems := { demo.mems with txt := mem [], bstr := mem [], tok := mem [] } }

theorem witness_UnwrittenInputsFault :
    (unwrittenDemo.inputs.regs.txtLen.toNat ≤ unwrittenDemo.params.txtDepth ∧
      1 < unwrittenDemo.inputs.regs.txtLen.toNat ∧ unwrittenDemo.inputs.mems.read (.txt 1) = none) ∧
    (unwrittenDemo.inputs.regs.bstrLen.toNat ≤ unwrittenDemo.params.bstrDepth ∧
      1 < unwrittenDemo.inputs.regs.bstrLen.toNat ∧ unwrittenDemo.inputs.mems.read (.bstr 1) = none) ∧
    (unwrittenDemo.inputs.regs.tokLen.toNat ≤ unwrittenDemo.params.tokDepth ∧
      12 < unwrittenDemo.inputs.regs.tokLen.toNat ∧ unwrittenDemo.inputs.mems.read (.tok 12) = none) ∧
    unwrittenDemo.inputs.HoldsTable t3Rows ∧ TableValid unwrittenDemo.params t3Rows :=
  ⟨by decide, by decide, by decide, ⟨by decide, holdsRows_of (by decide +kernel)⟩, t3_valid⟩

/-- Two snapshots that differ in everything BUILD does not read. -/
theorem witness_CommandsReadOnlyTheirOperands :
    let other : Snapshot := { demo.capture with
      regs := { demo.regs with bstrLen := 1, window := 0 }, mems := { demo.mems with bstr := mem [], ct := { t3 with sym := mem [] } } }
    CommandRegsAlike demo.regs other.regs .build ∧
    ∀ c, CommandReads demo.regs .build c → demo.mems.read c = other.mems.read c := by
  refine ⟨rfl, ?_⟩
  rintro c ⟨k, _, rfl⟩
  rfl

theorem witness_CommandsWriteOnlyTheirOutputs :
    demo.params.wf = true ∧ ∀ i : Instr, ∃ t, exec i demo = .next t := by
  refine ⟨by decide, fun i => ?_⟩
  have : ends (exec i demo) (fun _ => true) = true := by cases i <;> decide +kernel
  exact (ends_spec this).imp fun _ h => h.1

theorem witness_FailingCommandCommitsNothing :
    (∃ t, exec .build demo = .next t ∧ t.regs.status.err = .ok) ∧
    ∃ t, exec .build State.reset = .next t ∧ t.regs.status.err ≠ .ok :=
  ⟨(ends_spec (f := fun t => decide (t.regs.status.err = .ok)) (by decide +kernel)).imp fun _ h => ⟨h.1, of_decide_eq_true h.2⟩,
    (ends_spec (f := fun t => decide (t.regs.status.err ≠ .ok)) (by decide +kernel)).imp fun _ h => ⟨h.1, of_decide_eq_true h.2⟩⟩

theorem witness_HostTrafficDoesNotDisturbACommand :
    let txns : List BusTxn := [.write 0x100000 0xF 0x7A, .write 0x000008 0xF 2, .write 0x000004 0xF 1, .read 0x00000C 0xF]
    let s : State := { inFlight 1 with turns := txns.map Turn.bus ++ .engine :: [] }
    (∃ snap, s.phase = .busy 1 snap) ∧ decode 1 = .ok .build ∧
    (∀ w : Word, w[1] = true → BusTxn.write 0x000004 0xF w ∉ txns) ∧ ∃ t0, exec .build { s with turns := [] } = .next t0 := by
  refine ⟨⟨_, rfl⟩, rfl, fun w hw h => ?_, ?_⟩
  · have : w = 1 := by simpa using h
    subst this
    exact absurd hw (by decide)
  · exact (ends_spec (f := fun _ => true) (by decide +kernel)).imp fun _ h => h.1

/-! #### The host's side -/

theorem witness_idle_and_busy :
    demo.phase = .idle ∧ (inFlight 1).busy = true ∧ demo.params.wf = true ∧ (inFlight 1).params.wf = true := by decide

/-- CmdWriteWhileIdleIsAccepted and RegisterWritesWhileIdleAreStored ask for an Idle block. -/
theorem witness_CmdWriteWhileIdleIsAccepted : demo.phase = .idle := rfl
theorem witness_RegisterWritesWhileIdleAreStored :
    demo.phase = .idle ∧ (∃ t, demo.busStep (.write 0x000014 0xF 0x1FF) = .next t) ∧
    ∃ t, demo.busStep (.write 0x000018 0xF 5) = .next t := ⟨rfl, ⟨_, rfl⟩, ⟨_, rfl⟩⟩

theorem witness_RegisterWritesWhileBusyAreDropped :
    (inFlight 1).busy = true ∧ 0x44 ≤ (0x000044 : Addr).toNat ∧ (0x00FFFF : Addr).toNat < 0x10000 := by decide

theorem witness_RegisterReadsReturnTheRegister :
    (inFlight 1).Inv ∧ (∃ v snap, (inFlight 1).phase = .busy v snap) ∧ ∃ t, step (inFlight 1) = .next t :=
  ⟨inFlight_inv 1, ⟨_, _, rfl⟩, (ends_spec (f := fun _ => true) (by decide +kernel)).imp fun _ h => h.1⟩

theorem witness_AddressMap :
    demo.params.wf = true ∧ 1 < demo.params.txtDepth ∧ 1 < demo.params.bstrDepth ∧ 12 < demo.params.tokDepth ∧
    2 < demo.params.ctDepth ∧ targetOf demo.params 0x40002C = .cell (.ctBits 2) ∧
    targetOf demo.params 0x000040 = .reg .capCharW := by decide

/-- A case of each kind: misaligned, partial lanes, and the first address past each region. -/
theorem witness_StrayAccessesHaveNoEffect :
    demo.params.wf = true ∧ (0x100001 : Addr).toNat % 4 ≠ 0 ∧ (0xE : BitVec 4) ≠ 0xF ∧
    (0x44 ≤ (0x000044 : Addr).toNat ∧ (0x0FFFFC : Addr).toNat < 0x100000) ∧
    0x100000 + 4 * demo.params.txtDepth ≤ (0x100008 : Addr).toNat ∧
    0x200000 + 4 * demo.params.bstrDepth ≤ (0x200008 : Addr).toNat ∧
    0x300000 + 4 * demo.params.tokDepth ≤ (0x300034 : Addr).toNat ∧
    0x400000 + 16 * demo.params.ctDepth ≤ (0x400030 : Addr).toNat := by decide

theorem witness_MemoryAccessWhileIdle :
    demo.params.wf = true ∧ demo.phase = .idle ∧ (Cell.ctBits 2).index < (Cell.ctBits 2).depth demo.params ∧
    demo.mems.read (.ctBits 2) = some 3 ∧ demo.mems.read (.ctFreq 2) = none ∧ demo.Inv ∧
    demo.inputs.mems.read (.tok 12) = some 0x3E :=
  ⟨by decide, by decide, by decide, by decide +kernel, by decide +kernel, demo_inv, by decide +kernel⟩

theorem witness_StatusWriteClearsOnlyW1cBits : (0x32 : Word)[1] = true ∧ (inFlight 1).Inv ∧ (inFlight 1).busy = true :=
  ⟨by decide, inFlight_inv 1, rfl⟩

theorem witness_MemoryAccessWhileBusy :
    (inFlight 1).params.wf = true ∧ (inFlight 1).busy = true ∧
    (Cell.tok 12).index < (Cell.tok 12).depth (inFlight 1).params := by decide

/-- Each of the three: a host write, a commit, and a hard reset. -/
theorem witness_OnlyThreeThingsChangeMemory :
    ends (step { demo with turns := [.bus (.write 0x100004 0xF 0x62)] }) (fun t => t.mems ≠ demo.mems) = true ∧
    ends (step (inFlight 1)) (fun t => t.mems ≠ demo.mems) = true ∧
    ends (step { demo with turns := [.hardReset] }) (fun t => t.mems ≠ demo.mems) = true := by decide +kernel

theorem witness_IrqIsDoneAndEnabled :
    (∃ t, exec .build demo = .next t) ∧
    ends (step { inFlight 1 with regs := { (inFlight 1).regs with irqEn := true } }) (fun t => t.irq) = true ∧
    ends (step { demo with
      turns := [.bus (.write 0x000004 0xF 1)], regs := { demo.regs with status := { demo.regs.status with done := true } } })
      (fun t => t.irq) = true :=
  ⟨(ends_spec (f := fun _ => true) (by decide +kernel)).imp fun _ h => h.1, by decide +kernel, by decide +kernel⟩

/-- `demo` with both protocol flags set. -/
def flagged : State := { demo with regs := { demo.regs with status := { demo.regs.status with ovr := true, acc := true } } }

theorem witness_ProtocolFlagsAreSticky :
    ends (step { inFlight 1 with turns := [.bus (.write 0x000008 0xF 0)] }) (fun t => t.regs.status.ovr) = true ∧
    ends (step { inFlight 1 with turns := [.bus (.write 0x000024 0xF 0)] }) (fun t => t.regs.status.acc) = true ∧
    ends (step { inFlight 1 with turns := [.bus (.read 0x100004 0xF)] }) (fun t => t.regs.status.acc) = true ∧
    ends (step { flagged with turns := [.bus (.write 0x00000C 0xF 0x30)] })
      (fun t => !t.regs.status.ovr && !t.regs.status.acc) = true ∧
    ends (step { flagged with turns := [.bus (.write 0x000004 0xF 2)] })
      (fun t => !t.regs.status.ovr && !t.regs.status.acc) = true := by
  decide +kernel

theorem witness_CtrlWriteAndSoftReset : (1 : Word)[1] = false ∧ (2 : Word)[1] = true := by decide

theorem witness_LoadsPlacesTheText :
    (demo.params.wf = true ∧ demo.phase = .idle ∧ (text ['b', 'c']).length ≤ (TextMem.txt.cell 0).depth demo.params) ∧
    (2 < demo.params.ctDepth ∧ 1 ≤ (List.replicate 32 chOne).length ∧ (List.replicate 32 chOne).length ≤ 32 ∧
      ∀ x ∈ List.replicate 32 chOne, x = chZero ∨ x = chOne) ∧
    (∃ s : State, s.turns = (loads .txt (text ['b', 'c'])).map HostStmt.turn ++ []) ∧
    ∃ s : State, s.turns = (loadCt 2 0x62 (List.replicate 32 chOne)).map HostStmt.turn ++ [] :=
  ⟨by decide, ⟨by decide, by simp, by simp, ones⟩,
    ⟨{ demo with turns := (loads .txt (text ['b', 'c'])).map HostStmt.turn }, by simp⟩,
    ⟨{ demo with turns := (loadCt 2 0x62 (List.replicate 32 chOne)).map HostStmt.turn }, by simp⟩⟩

theorem witness_RunAndWaitSeesCompletion :
    let s : State := { demo with turns := runTurns .decompress 3 ++ [] }
    s.phase = .idle ∧ InputsWritten s.params s.inputs .decompress ∧ s.turns = runTurns .decompress 3 ++ [] :=
  ⟨rfl, witness_CommandsCompleteOnWrittenInputs .decompress, rfl⟩

theorem witness_InvariantIsKeptByEveryStep :
    (inFlight 6).Inv ∧ ∃ t, step (inFlight 6) = .next t :=
  ⟨inFlight_inv 6, (ends_spec (f := fun _ => true) (by decide +kernel)).imp fun _ h => h.1⟩

end Sys2Proof.Tests
end

namespace Sys2Proof.Machine

/-! ### Which errors a command can raise (spec/60_exceptions.md R240) -/

section
variable {p : Params} {snap : Snapshot} {code : ErrCode} {info : Word}

theorem fBuild_raises (h : fBuild p snap = .error (.raised code info)) :
    code ∈ [.badLength, .emptyInput, .capacity] := by
  rcases (fBuild_eq_error _ _ _).1 h with ⟨_, h⟩ | ⟨_, ⟨_, h⟩ | ⟨_, h | ⟨_, _, _, h⟩⟩⟩
  · cases h; simp
  · cases h; simp
  · exact absurd h (snap.seq_never_raises _ _ _ _)
  · cases h; simp

theorem fSfEncode_raises (h : fSfEncode p snap = .error (.raised code info)) :
    code ∈ [.badLength, .badTable, .unknownSymbol, .capacity] := by
  rcases (fSfEncode_eq_error _ _ _).1 h with ⟨_, h⟩ | ⟨_, h | ⟨_, h | ⟨_, _, h | ⟨_, _, _, h⟩⟩⟩⟩
  · cases h; simp
  · simp [snap.tableOk_raises _ _ _ h]
  · exact absurd h (snap.seq_never_raises _ _ _ _)
  · simp [snap.encodeFrom_raises _ _ _ _ _ h]
  · cases h; simp

theorem fSfDecode_raises (h : fSfDecode p snap = .error (.raised code info)) :
    code ∈ [.badLength, .badTable, .capacity] := by
  rcases (fSfDecode_eq_error _ _ _).1 h with ⟨_, h⟩ | ⟨_, h | ⟨_, h | ⟨_, _, h | ⟨_, _, _, h⟩⟩⟩⟩
  · cases h; simp
  · simp [snap.tableOk_raises _ _ _ h]
  · exact absurd h (snap.seq_never_raises _ _ _ _)
  · exact absurd h (snap.scanBits_never_raises _ _ _ _ _)
  · cases h; simp

theorem fLzEncode_raises (h : fLzEncode p snap = .error (.raised code info)) : code ∈ [.badLength, .capacity] := by
  rcases (fLzEncode_eq_error _ _ _).1 h with ⟨_, h⟩ | ⟨_, h | ⟨_, _, _, h⟩⟩
  · cases h; simp
  · exact absurd h (snap.seq_never_raises _ _ _ _)
  · cases h; simp

theorem fLzDecode_raises (h : fLzDecode p snap = .error (.raised code info)) : code ∈ [.badLength, .capacity] := by
  rcases (fLzDecode_eq_error _ _ _).1 h with ⟨_, h⟩ | ⟨_, h | ⟨_, _, _, h⟩⟩
  · cases h; simp
  · exact absurd h (snap.seq_never_raises _ _ _ _)
  · cases h; simp

theorem fCompress_raises (h : fCompress p snap = .error (.raised code info)) :
    code ∈ [.badLength, .emptyInput, .capacity] := by
  rcases (fCompress_eq_error _ _ _).1 h with
    ⟨_, h⟩ | ⟨_, ⟨_, h⟩ | ⟨_, h | ⟨_, _, ⟨_, h⟩ | ⟨_, ⟨_, h⟩ | ⟨_, _, h⟩⟩⟩⟩⟩
  · cases h; simp
  · cases h; simp
  · exact absurd h (snap.seq_never_raises _ _ _ _)
  · cases h; simp
  · cases h; simp
  · cases h; simp

theorem fDecompress_raises (h : fDecompress p snap = .error (.raised code info)) :
    code ∈ [.badLength, .badTable, .capacity] := by
  rcases (fDecompress_eq_error _ _ _).1 h with
    ⟨_, h⟩ | ⟨_, h | ⟨_, h | ⟨_, _, ⟨_, h⟩ | ⟨_, h | ⟨_, _, _, h⟩⟩⟩⟩⟩
  · cases h; simp
  · simp [snap.tableOk_raises _ _ _ h]
  · exact absurd h (snap.seq_never_raises _ _ _ _)
  · cases h; simp
  · exact absurd h (snap.scanBits_never_raises _ _ _ _ _)
  · cases h; simp

/-- No command raises the code 0, "no error". -/
theorem resultOf_raises_ne_ok {i : Instr} (h : resultOf i p snap = .error (.raised code info)) : code ≠ .ok := by
  rintro rfl
  cases i with
  | build => simpa using fBuild_raises h
  | sfEncode => simpa using fSfEncode_raises h
  | sfDecode => simpa using fSfDecode_raises h
  | lzEncode => simpa using fLzEncode_raises h
  | lzDecode => simpa using fLzDecode_raises h
  | compress => simpa using fCompress_raises h
  | decompress => simpa using fDecompress_raises h

end

/-! ### What a successful result holds -/

/-- A location that exists: a register, or a memory word below its memory's depth (spec/20_memory.md R60). -/
def Loc.InRange (p : Params) : Loc → Prop
  | .cell c => c.index < c.depth p
  | _ => True

/-- Every write goes to a location that exists. -/
def WritesInRange (p : Params) (ws : List (Loc × Word)) : Prop := ∀ w ∈ ws, w.1.InRange p

theorem writesInRange_append {p : Params} {us ws : List (Loc × Word)} :
    WritesInRange p (us ++ ws) ↔ WritesInRange p us ∧ WritesInRange p ws :=
  List.forall_mem_append

theorem writesInRange_singleton {p : Params} {w : Loc × Word} : WritesInRange p [w] ↔ w.1.InRange p :=
  List.forall_mem_singleton

/-- A sequence that fits its memory is written in range. -/
theorem seqWrites_inRange {p : Params} {mk : Nat → Cell} {depth : Nat} {xs : List Word}
    (hmk : ∀ k < depth, (mk k).index < (mk k).depth p) (h : xs.length ≤ depth) :
    WritesInRange p (seqWrites mk 0 xs) := by
  intro w hw
  obtain ⟨j, hj, rfl⟩ := (mem_seqWrites mk 0 xs w).1 hw
  exact hmk _ (by omega)

/-- A table that fits CT is written in range. -/
theorem tableWrites_inRange {p : Params} {tbl : List TableEntry} (h : tbl.length ≤ p.ctDepth) :
    WritesInRange p (tableWrites 0 tbl) := by
  intro w hw
  obtain ⟨j, hj, hw⟩ := (mem_tableWrites 0 tbl w).1 hw
  have hlt : 0 + j < p.ctDepth := by omega
  rcases hw with rfl | rfl | rfl | rfl <;> exact hlt

/-- What every `Ok` result satisfies: its writes are in range, its tail count is a 32-bit number, and a truncation
record names a cause (spec/60_exceptions.md R241, R242). -/
structure Outputs.Sound (p : Params) (out : Outputs) : Prop where
  inRange : WritesInRange p out.writes
  tail : out.tail < 2 ^ 32
  cause : ∀ c pos, out.trunc = some (c, pos) → c ≠ .noTrunc

/-- The truncation record of a decoded token text names a cause. -/
theorem lzDecode_cause {limit : Nat} {t : List Word} {c : TruncCause} {pos : Nat}
    (h : (lzDecode limit t).2 = some (c, pos)) : c ≠ .noTrunc :=
  scanFrom_cause _ _ _ _ _ _ _ h

/-- Scanning fewer than 2^32 characters leaves a tail of fewer than 2^32. -/
theorem Snapshot.scanBits_tail_lt {snap : Snapshot} {n : Nat} {b : List Word} {r : List Word × Nat}
    (h : snap.scanBits n [] b = .ok r) (hb : b.length < 2 ^ 32) : r.2 < 2 ^ 32 := by
  have := snap.scanBits_tail n [] b r h
  simp only [List.length_nil] at this
  omega

section
variable {p : Params} {snap : Snapshot} {out : Outputs}

theorem fBuild_sound (h : fBuild p snap = .ok out) : out.Sound p := by
  obtain ⟨_, _, t, _, hct, rfl⟩ := (fBuild_eq_ok _ _ _).1 h
  refine ⟨?_, by simp, by simp⟩
  exact writesInRange_append.2 ⟨tableWrites_inRange (by rwa [buildTable_length]), writesInRange_singleton.2 trivial⟩

theorem fSfEncode_sound (h : fSfEncode p snap = .ok out) : out.Sound p := by
  obtain ⟨_, _, t, _, b, _, hb, rfl⟩ := (fSfEncode_eq_ok _ _ _).1 h
  refine ⟨?_, by simp, by simp⟩
  exact writesInRange_append.2 ⟨seqWrites_inRange (fun _ hk => hk) hb, writesInRange_singleton.2 trivial⟩

theorem fSfDecode_sound (h : fSfDecode p snap = .ok out) : out.Sound p := by
  obtain ⟨_, _, b, hb, r, hr, hfit, rfl⟩ := (fSfDecode_eq_ok _ _ _).1 h
  have hlen : b.length < 2 ^ 32 := by
    rw [((snap.seq_eq_ok _ _ _).1 hb).1]
    exact snap.regs.bstrLen.isLt
  refine ⟨?_, Snapshot.scanBits_tail_lt hr hlen, by simp⟩
  exact writesInRange_append.2 ⟨seqWrites_inRange (fun _ hk => hk) hfit, writesInRange_singleton.2 trivial⟩

theorem fLzEncode_sound (h : fLzEncode p snap = .ok out) : out.Sound p := by
  obtain ⟨_, s, _, hfit, rfl⟩ := (fLzEncode_eq_ok _ _ _).1 h
  refine ⟨?_, by simp, by simp⟩
  exact writesInRange_append.2 ⟨seqWrites_inRange (fun _ hk => hk) hfit, writesInRange_singleton.2 trivial⟩

theorem fLzDecode_sound (h : fLzDecode p snap = .ok out) : out.Sound p := by
  obtain ⟨_, t, _, hfit, rfl⟩ := (fLzDecode_eq_ok _ _ _).1 h
  refine ⟨?_, by simp, fun _ _ => lzDecode_cause⟩
  exact writesInRange_append.2 ⟨seqWrites_inRange (fun _ hk => hk) hfit, writesInRange_singleton.2 trivial⟩

theorem fCompress_sound (h : fCompress p snap = .ok out) : out.Sound p := by
  obtain ⟨_, _, t, _, hct, hb, htok, rfl⟩ := (fCompress_eq_ok _ _ _).1 h
  refine ⟨?_, by simp, by simp⟩
  simp only [compressWrites, writesInRange_append, writesInRange_singleton]
  exact ⟨⟨⟨tableWrites_inRange (by rwa [buildTable_length]), trivial⟩, seqWrites_inRange (fun _ hk => hk) hb, trivial⟩,
    seqWrites_inRange (fun _ hk => hk) htok, trivial⟩

theorem fDecompress_sound (hp : p.wf = true) (h : fDecompress p snap = .ok out) : out.Sound p := by
  obtain ⟨_, _, t, _, hb, r, hr, htxt, rfl⟩ := (fDecompress_eq_ok _ _ _).1 h
  have hlen : (lzDecode p.bstrDepth t).1.length < 2 ^ 32 := by
    have := Params.wf_bounds hp
    omega
  refine ⟨?_, Snapshot.scanBits_tail_lt hr hlen, fun _ _ => lzDecode_cause⟩
  simp only [writesInRange_append, writesInRange_singleton]
  exact ⟨⟨seqWrites_inRange (fun _ hk => hk) hb, trivial⟩, seqWrites_inRange (fun _ hk => hk) htxt, trivial⟩

/-- Every command's `Ok` result is sound. -/
theorem resultOf_sound {i : Instr} (hp : p.wf = true) (h : resultOf i p snap = .ok out) : out.Sound p := by
  cases i with
  | build => exact fBuild_sound h
  | sfEncode => exact fSfEncode_sound h
  | sfDecode => exact fSfDecode_sound h
  | lzEncode => exact fLzEncode_sound h
  | lzDecode => exact fLzDecode_sound h
  | compress => exact fCompress_sound h
  | decompress => exact fDecompress_sound hp h

end

/-! ### Memories that fit (spec/20_memory.md R60, R65) -/

theorem Memories.unwritten_fits (p : Params) : Memories.unwritten.Fits p := by
  intro c v h
  simp at h

/-- Writing a word's stored bits to an entry that exists keeps the memories fitting. -/
theorem Memories.Fits.write {p : Params} {m : Memories} (h : m.Fits p) {c : Cell} (hc : c.index < c.depth p) (v : Word) :
    (m.write c (storedBits p c v)).Fits p := by
  intro d w hd
  rw [Memories.read_write] at hd
  split at hd
  · next e =>
    subst e
    cases hd
    exact ⟨hc, storedBits_storedBits p d v⟩
  · exact h d w hd

theorem State.writeLoc_keeps_fits {s : State} (h : s.mems.Fits s.params) {l : Loc} (hl : l.InRange s.params) (v : Word) :
    (s.writeLoc l v).mems.Fits s.params := by
  cases l with
  | cell c => exact h.write hl v
  | _ => exact h

theorem State.applyWrites_keeps_fits {s : State} {ws : List (Loc × Word)} (h : s.mems.Fits s.params)
    (hws : WritesInRange s.params ws) : (s.applyWrites ws).mems.Fits s.params := by
  induction ws generalizing s with
  | nil => exact h
  | cons w ws ih =>
    obtain ⟨hw, hrest⟩ := List.forall_mem_cons.1 hws
    have hfits := State.writeLoc_keeps_fits h hw w.2
    rw [← s.writeLoc_params w.1 w.2] at hfits hrest ⊢
    exact ih hfits hrest

/-! ### The completion record (spec/60_exceptions.md R240 to R242, R250) -/

theorem Regs.reset_recordOk : Regs.reset.RecordOk := by constructor <;> decide

theorem State.accept_recordOk (s : State) (v : Word) : (s.accept v).regs.RecordOk := by
  constructor <;> simp

/-- A success leaves a consistent record: the tail count does not wrap to 0, and a truncation names its cause. -/
theorem State.commitOk_recordOk (s : State) {p : Params} {out : Outputs} (h : out.Sound p) :
    (s.commitOk out).regs.RecordOk where
  tail := by
    have hmod : out.tail % 4294967296 = out.tail := Nat.mod_eq_of_lt h.tail
    simp [← BitVec.toNat_inj, hmod, Nat.pos_iff_ne_zero]
  trunc := by
    cases ht : out.trunc with
    | none => simp [ht]
    | some r => simpa [ht] using h.cause r.1 r.2 ht
  pos := by
    cases ht : out.trunc <;> simp [ht]
  noWarning := by simp
  info := by simp

/-- A failure leaves a consistent record: it sets no warning, and its code is not 0. -/
theorem State.commitFail_recordOk (s : State) {code : ErrCode} (info : Word) (h : code ≠ .ok) :
    (s.commitFail code info).regs.RecordOk := by
  constructor <;> simp [h]

theorem State.writeLoc_recordOk {s : State} (h : s.regs.RecordOk) (l : Loc) (v : Word) :
    (s.writeLoc l v).regs.RecordOk := by
  cases l <;> exact { h with }

/-! ### What each update of the state does to the invariant -/

/-- With no command in flight the last clause of the invariant asks nothing. -/
theorem State.Inv.of_idle {s : State} (hp : s.params.wf = true) (hc : s.mems.wf) (hf : s.mems.Fits s.params)
    (hr : s.regs.RecordOk) (hi : s.phase = .idle) : s.Inv :=
  ⟨hp, hc, hf, hr, fun v snap hb => by simp [hi] at hb⟩

/-- A STATUS that keeps what the invariant says of STATUS: the completion record, and a DONE of 0. -/
structure Status.KeepsRecord (st st' : Status) : Prop where
  done : st.done = false → st'.done = false
  wTail : st'.wTail = st.wTail
  wTrunc : st'.wTrunc = st.wTrunc
  err : st'.err = st.err
  truncCause : st'.truncCause = st.truncCause

theorem Status.setAcc_keepsRecord (st : Status) : st.KeepsRecord st.setAcc := ⟨id, rfl, rfl, rfl, rfl⟩

theorem Status.setOvr_keepsRecord (st : Status) : st.KeepsRecord st.setOvr := ⟨id, rfl, rfl, rfl, rfl⟩

theorem Status.w1c_keepsRecord (st : Status) (v : Word) : st.KeepsRecord (st.w1c v) :=
  ⟨fun h => by simp [h], rfl, rfl, rfl, rfl⟩

section
variable {s : State} (h : s.Inv)
include h

/-- The model's own fields do not matter. -/
theorem State.Inv.withOwnFields (turns : List Turn) (returned : List Word) (draws : Nat) :
    State.Inv { s with turns := turns, returned := returned, draws := draws } :=
  ⟨h.params, h.canonical, h.fits, h.record, fun v snap hp => { h.inFlight v snap hp with }⟩

theorem State.Inv.turnTaken : s.turnTaken.Inv := h.withOwnFields _ _ _

theorem State.Inv.answer (v : Word) : (s.answer v).Inv := h.withOwnFields _ _ _

theorem State.Inv.withIrqEn (b : Bool) : State.Inv { s with regs := { s.regs with irqEn := b } } :=
  ⟨h.params, h.canonical, h.fits, { h.record with }, fun v snap hp => { h.inFlight v snap hp with }⟩

theorem State.Inv.withStatus {st : Status} (hst : s.regs.status.KeepsRecord st) :
    State.Inv { s with regs := { s.regs with status := st } } := by
  obtain ⟨hdone, hwTail, hwTrunc, herr, hcause⟩ := hst
  refine ⟨h.params, h.canonical, h.fits, ?_, fun v snap hp => ?_⟩
  · constructor <;> simp only [hwTail, hwTrunc, herr, hcause]
    exacts [h.record.tail, h.record.trunc, h.record.pos, h.record.noWarning, h.record.info]
  · have hf := h.inFlight v snap hp
    exact { hf with
      done := hdone hf.done
      wTail := hwTail.trans hf.wTail
      wTrunc := hwTrunc.trans hf.wTrunc
      err := herr.trans hf.err
      truncCause := hcause.trans hf.truncCause }

theorem State.Inv.setAcc : s.setAcc.Inv := h.withStatus s.regs.status.setAcc_keepsRecord

theorem State.Inv.setOvr : s.setOvr.Inv := h.withStatus s.regs.status.setOvr_keepsRecord

theorem State.Inv.softReset : s.softReset.Inv :=
  .of_idle h.params h.canonical h.fits Regs.reset_recordOk rfl

theorem State.Inv.hardReset : s.hardReset.Inv :=
  .of_idle h.params Memories.unwritten_wf (Memories.unwritten_fits _) Regs.reset_recordOk rfl

/-- Acceptance clears the record and snapshots what it leaves (spec/40_host_interface.md R113). -/
theorem State.Inv.accept (v : Word) : (s.accept v).Inv :=
  ⟨h.params, h.canonical, h.fits, s.accept_recordOk v, fun w snap hp => by
    cases hp
    constructor <;> rfl⟩

theorem State.Inv.writeLoc_of_idle (hi : s.phase = .idle) {l : Loc} (hl : l.InRange s.params) (v : Word) :
    (s.writeLoc l v).Inv :=
  .of_idle (by simpa using h.params) (s.writeLoc_keeps_wf l v h.canonical)
    (by simpa using State.writeLoc_keeps_fits h.fits hl v) (State.writeLoc_recordOk h.record l v) (by simpa using hi)

theorem State.Inv.withWindow_of_idle (hi : s.phase = .idle) (w : BitVec 8) :
    State.Inv { s with regs := { s.regs with window := w } } :=
  .of_idle h.params h.canonical h.fits { h.record with } hi

theorem State.Inv.commitOk {out : Outputs} (ho : out.Sound s.params) : (s.commitOk out).Inv :=
  .of_idle (by simpa using h.params) (s.applyWrites_keeps_wf out.writes h.canonical)
    (by simpa using State.applyWrites_keeps_fits h.fits ho.inRange) (s.commitOk_recordOk ho) rfl

theorem State.Inv.commitFail {code : ErrCode} (info : Word) (hcode : code ≠ .ok) : (s.commitFail code info).Inv :=
  .of_idle h.params h.canonical h.fits (s.commitFail_recordOk info hcode) rfl

/-! ### Transactions and commands -/

theorem State.Inv.writeCtrl (v : Word) : (s.writeCtrl v).Inv := by
  unfold State.writeCtrl
  split
  · exact (h.withIrqEn _).softReset
  · exact h.withIrqEn _

theorem State.Inv.writeReg (r : Reg) (v : Word) : (s.writeReg r v).Inv := by
  rcases s.writeReg_cases r v with e | e | ⟨_, e⟩ | ⟨_, e⟩ | e | ⟨_, e⟩ | ⟨hi, e⟩ | ⟨hi, l, hl, e⟩ <;> rw [e]
  · exact h
  · exact h.writeCtrl v
  · exact h.accept v
  · exact h.setOvr
  · exact h.withStatus (s.regs.status.w1c_keepsRecord v)
  · exact h.setAcc
  · exact h.withWindow_of_idle hi _
  · refine h.writeLoc_of_idle hi ?_ v
    cases l with
    | cell c => exact absurd rfl (hl c)
    | _ => trivial

theorem State.Inv.busWrite (a : Addr) (lanes : BitVec 4) (v : Word) : (s.busWrite a lanes v).Inv := by
  rcases s.busWrite_cases a lanes v with e | ⟨r, e⟩ | ⟨_, e⟩ | ⟨hi, c, hc, e⟩ <;> rw [e]
  · exact h
  · exact h.writeReg r v
  · exact h.setAcc
  · exact h.writeLoc_of_idle hi (l := .cell c) hc v

theorem State.Inv.busRead {t : State} {a : Addr} {lanes : BitVec 4} (hr : s.busRead a lanes = .next t) : t.Inv := by
  rcases s.busRead_cases t a lanes hr with ⟨v, rfl⟩ | ⟨_, rfl⟩
  · exact h.answer v
  · exact h.setAcc.withOwnFields _ _ _

theorem State.Inv.exec {t : State} {i : Instr} (he : exec i s = .next t) : t.Inv := by
  rcases (exec_eq_next i s t).1 he with ⟨out, hout, rfl⟩ | ⟨code, info, hraise, rfl⟩
  · exact h.commitOk (resultOf_sound h.params hout)
  · exact h.commitFail info (resultOf_raises_ne_ok hraise)

end

/-- Settles O60: each kind of step of `step_cases` keeps the invariant. -/
theorem invariantIsKeptByEveryStep : Obligations.InvariantIsKeptByEveryStep := by
  intro s t h hstep
  rcases step_cases s t hstep with ⟨_, rfl⟩ | ⟨_, _, _, _, _, he⟩ | ⟨v, _, _, _, _, rfl⟩ | ⟨_, _, _, hr⟩ |
    ⟨a, lanes, v, _, rfl⟩ | ⟨_, rfl⟩
  · exact h.turnTaken
  · exact h.turnTaken.exec he
  · exact h.turnTaken.commitFail v (by decide)
  · exact h.turnTaken.busRead hr
  · exact h.turnTaken.busWrite a lanes v
  · exact h.turnTaken.hardReset

end Sys2Proof.Machine

namespace Sys2Proof.Machine

/-! ### Decimal text (spec/00_scope.md R12) -/

theorem decDigits_append (fuel v : Nat) (rest : List Word) :
    decDigits fuel v rest = decDigits fuel v [] ++ rest := by
  induction fuel generalizing v rest with
  | zero => rfl
  | succ fuel ih =>
    simp only [decDigits]
    split
    · rfl
    · rw [ih _ (_ :: rest), ih _ [_]]
      simp

/-- Enough fuel is enough. -/
theorem decDigits_fuel (f g v : Nat) (rest : List Word) (hf : v < f) (hg : v < g) :
    decDigits f v rest = decDigits g v rest := by
  induction f generalizing g v rest with
  | zero => omega
  | succ f ih =>
    cases g with
    | zero => omega
    | succ g =>
      simp only [decDigits]
      split
      · rfl
      · exact ih g _ _ (by omega) (by omega)

theorem dec_of_lt {v : Nat} (h : v < 10) : dec v = [digitChar v] := by simp [dec, decDigits, h]

/-- A number of several digits: the text of its upper digits, then its last digit. -/
theorem dec_of_ge {v : Nat} (h : 10 ≤ v) : dec v = dec (v / 10) ++ [digitChar (v % 10)] := by
  have hlt : ¬ v < 10 := by omega
  rw [dec, decDigits, if_neg hlt, decDigits_append, dec, decDigits_fuel v (v / 10 + 1) _ _ (by omega) (by omega)]

/-- Induction along the digits of a number, as `dec` writes them. -/
theorem dec_induction {motive : Nat → Prop} (one : ∀ v < 10, motive v)
    (more : ∀ v, 10 ≤ v → motive (v / 10) → motive v) (v : Nat) : motive v := by
  induction v using Nat.strong_induction_on with
  | _ v ih =>
    by_cases h : v < 10
    · exact one v h
    · exact more v (by omega) (ih _ (by omega))

theorem dec_ne_nil (v : Nat) : dec v ≠ [] := by
  by_cases h : v < 10
  · simp [dec_of_lt h]
  · simp [dec_of_ge (by omega : 10 ≤ v)]

theorem isDigit_of_mem_dec (v : Nat) : ∀ c ∈ dec v, isDigit c = true := by
  induction v using dec_induction with
  | one v h => simpa [dec_of_lt h] using isDigit_digitChar v h
  | more v h ih =>
    rw [dec_of_ge h, List.forall_mem_append]
    exact ⟨ih, by simpa using isDigit_digitChar _ (Nat.mod_lt v (by decide))⟩

theorem digits_eq_true_iff (f : List Word) : digits f = true ↔ f ≠ [] ∧ ∀ c ∈ f, isDigit c = true := by
  simp [digits]

theorem digits_dec (v : Nat) : digits (dec v) = true :=
  (digits_eq_true_iff _).2 ⟨dec_ne_nil v, isDigit_of_mem_dec v⟩

/-- One more digit at the end. -/
theorem val_snoc (f : List Word) (c : Word) : val (f ++ [c]) = 10 * val f + (c.toNat - 48) := by
  simp [val, List.foldl_append, chZero]

theorem val_dec (v : Nat) : val (dec v) = v := by
  induction v using dec_induction with
  | one v h => simp [dec_of_lt h, val, digitChar_toNat v h, chZero]
  | more v h ih =>
    rw [dec_of_ge h, val_snoc, ih, digitChar_toNat _ (Nat.mod_lt v (by decide))]
    omega

/-- The text of a number other than 0 begins with a digit other than '0'. -/
theorem head?_dec_ne_zero (v : Nat) (hv : v ≠ 0) : (dec v).head? ≠ some chZero := by
  induction v using dec_induction with
  | one v h =>
    intro e
    rw [dec_of_lt h, List.head?_cons, Option.some_inj] at e
    have hval := congrArg BitVec.toNat e
    rw [digitChar_toNat v h, show chZero.toNat = 48 from rfl] at hval
    omega
  | more v h ih =>
    rw [dec_of_ge h, List.head?_append_of_ne_nil _ (dec_ne_nil _)]
    exact ih (by omega)

/-- The text of a number other than 0 has no more digits than the number needs. -/
theorem pow_length_dec_le (v : Nat) (hv : v ≠ 0) : 10 ^ (dec v).length ≤ 10 * v := by
  induction v using dec_induction with
  | one v h => simp [dec_of_lt h]; omega
  | more v h ih =>
    have := ih (by omega)
    rw [dec_of_ge h, List.length_append, List.length_singleton, pow_succ]
    omega

/-- A digit string's value is below ten to its length. -/
theorem val_lt_pow (f : List Word) (hf : ∀ c ∈ f, isDigit c = true) : val f < 10 ^ f.length := by
  induction f with
  | nil => simp [val]
  | cons c f ih =>
    obtain ⟨hc, hrest⟩ := List.forall_mem_cons.1 hf
    have hd : c.toNat - 48 ≤ 9 := by
      simp [isDigit, chZero, chNine] at hc
      omega
    have := ih hrest
    calc val (c :: f) = (c.toNat - 48) * 10 ^ f.length + val f := val_cons c f
      _ ≤ 9 * 10 ^ f.length + val f := Nat.add_le_add_right (Nat.mul_le_mul_right _ hd) _
      _ < 10 ^ (c :: f).length := by rw [List.length_cons, pow_succ]; omega

/-- No digit string of a value is shorter than its decimal text. -/
theorem length_dec_le (f : List Word) (hf : digits f = true) : (dec (val f)).length ≤ f.length := by
  obtain ⟨hne, hdig⟩ := (digits_eq_true_iff f).1 hf
  by_cases h0 : val f = 0
  · rw [h0]
    exact List.length_pos_iff.2 hne
  · have hlow := pow_length_dec_le (val f) h0
    have hhigh := val_lt_pow f hdig
    have : 10 ^ (dec (val f)).length < 10 ^ (f.length + 1) := by
      rw [pow_succ]
      omega
    exact Nat.lt_succ_iff.1 ((Nat.pow_lt_pow_iff_right (by decide)).1 this)

theorem val_cons_chZero (f : List Word) : val (chZero :: f) = val f := by
  simp [val_cons, chZero]

/-- Settles O21: the text of `v` is built along its digits, and a digit string's length bounds its value. -/
theorem decimalTextReadsBack : Obligations.DecimalTextReadsBack := by
  intro v
  refine ⟨digits_dec v, val_dec v, fun hhead => ?_, ?_⟩
  · have hv : v = 0 := by
      by_contra hne
      exact head?_dec_ne_zero v hne hhead
    subst hv
    rfl
  · rintro f hf rfl
    exact ⟨length_dec_le f hf, val_cons_chZero f⟩

end Sys2Proof.Machine

namespace Sys2Proof.Machine

/-! ### The STATUS word (spec/10_state.md R25; spec/60_exceptions.md R240, R242) -/

/-- The whole layout of the STATUS word, bit by bit. -/
theorem Status.getLsbD_word (b : Bool) (st : Status) (i : Nat) :
    (st.word b).getLsbD i =
      if i = 0 then b
      else if i = 1 then st.done
      else if i = 2 then st.wTail
      else if i = 3 then st.wTrunc
      else if i = 4 then st.ovr
      else if i = 5 then st.acc
      else if i < 8 then false
      else if i < 12 then st.err.code.getLsbD (i - 8)
      else if i < 16 then st.truncCause.code.getLsbD (i - 12)
      else false := by
  -- `BitVec.getLsbD_append` needs the width as the sum of the fields' widths.
  change BitVec.getLsbD (w := 16 + 4 + 4 + 2 + 1 + 1 + 1 + 1 + 1 + 1) (st.word b) i = _
  simp only [Status.word, BitVec.getLsbD_append, BitVec.getLsbD_ofBool, BitVec.getLsbD_zero]
  match i with
  | 0 | 1 | 2 | 3 | 4 | 5 => rfl
  | i + 6 => grind

section
variable (s : State)

/-- A bit the host reads in STATUS is that bit of the layout. -/
theorem State.readReg_status_getElem (i : Nat) (h : i < 32) :
    (s.readReg .status)[i] = (s.regs.status.word s.busy).getLsbD i :=
  (BitVec.getLsbD_eq_getElem h).symm

/-- The BUSY bit the host reads. -/
@[simp] theorem State.readReg_status_getElem_zero : (s.readReg .status)[0] = s.busy := by
  rw [State.readReg_status_getElem, Status.getLsbD_word]
  rfl

/-- The DONE bit the host reads. -/
@[simp] theorem State.readReg_status_getElem_one : (s.readReg .status)[1] = s.regs.status.done := by
  rw [State.readReg_status_getElem, Status.getLsbD_word]
  rfl

/-- The IRQ_EN bit the host reads. -/
@[simp] theorem State.readReg_ctrl_getElem_zero : (s.readReg .ctrl)[0] = s.regs.irqEn := by
  simp [State.readReg]

end

/-- Settles O47: the single bits are entries of the layout, and a wider field is compared with it bit by bit. -/
theorem statusWordLayout : Obligations.StatusWordLayout := by
  refine ⟨fun s => ?_, rfl, rfl⟩
  simp only [State.readReg_status_getElem, Status.getLsbD_word]
  refine ⟨rfl, rfl, rfl, rfl, rfl, rfl, ?_, ?_, ?_, ?_⟩
  all_goals
    refine BitVec.eq_of_getLsbD_eq fun i hi => ?_
    rw [BitVec.getLsbD_extractLsb', State.readReg, Status.getLsbD_word]
    grind

/-! ### The invariant at reset -/

/-- Settles O59: an Idle state needs no clause about a command in flight, and unwritten memories fit any depth. -/
theorem invariantHoldsAtReset : Obligations.InvariantHoldsAtReset :=
  .of_idle (by decide) Memories.unwritten_wf (Memories.unwritten_fits _) Regs.reset_recordOk rfl

/-! ### Which turn a step takes (spec/20_memory.md R68) -/

section
variable (s : State)

@[simp] theorem State.turnTaken_mems : s.turnTaken.mems = s.mems := rfl
@[simp] theorem State.turnTaken_irq : s.turnTaken.irq = s.irq := rfl

end

/-- The engine's turn is the next one: it is listed first, or no turn is listed (R121). -/
def State.EngineNext (s : State) : Prop := s.turns = [] ∨ s.turns.head? = some .engine

/-- A step is the engine's, one transaction, or a hard reset, and the list of turns says which. -/
theorem step_turn_cases {s t : State} (h : step s = .next t) :
    (s.EngineNext ∧ s.turnTaken.engineStep = .next t) ∨
    (∃ a lanes, s.turns.head? = some (.bus (.read a lanes)) ∧ s.turnTaken.busRead a lanes = .next t) ∨
    (∃ a lanes v, s.turns.head? = some (.bus (.write a lanes v)) ∧ t = s.turnTaken.busWrite a lanes v) ∨
    (s.turns.head? = some .hardReset ∧ t = s.turnTaken.hardReset) := by
  obtain ⟨params, regs, mems, phase, turns, returned, draws⟩ := s
  match turns with
  | [] => exact .inl ⟨.inl rfl, h⟩
  | .engine :: _ => exact .inl ⟨.inr rfl, h⟩
  | .bus (.read a lanes) :: _ => exact .inr (.inl ⟨a, lanes, rfl, h⟩)
  | .bus (.write a lanes v) :: _ => cases h; exact .inr (.inr (.inl ⟨a, lanes, v, rfl, rfl⟩))
  | .hardReset :: _ => cases h; exact .inr (.inr (.inr ⟨rfl, rfl⟩))

/-- The engine's turn keeps an Idle state; while Busy it completes the command in flight: Idle, DONE. -/
theorem State.engineStep_cases {s t : State} (h : s.engineStep = .next t) :
    (s.phase = .idle ∧ t = s) ∨ (s.busy = true ∧ t.phase = .idle ∧ t.regs.status.done = true) := by
  unfold State.engineStep at h
  split at h
  · next hi => cases h; exact .inl ⟨hi, rfl⟩
  · next v snap hp =>
    have hb : s.busy = true := s.busy_eq_true_iff.2 ⟨v, snap, hp⟩
    split at h
    · rcases (exec_eq_next _ _ _).1 h with ⟨out, _, rfl⟩ | ⟨code, info, _, rfl⟩
      · exact .inr ⟨hb, by simp, by simp⟩
      · exact .inr ⟨hb, by simp, by simp⟩
    · cases h
      exact .inr ⟨hb, by simp, by simp⟩

theorem accessWf_iff (a : Addr) (lanes : BitVec 4) : accessWf a lanes = true ↔ a.toNat % 4 = 0 ∧ lanes = 0xF := by
  simp [accessWf]

/-- Everything a bus write can do, with the register or memory word its address names: a partial write does nothing. -/
theorem State.busWrite_target_cases (s : State) (a : Addr) (lanes : BitVec 4) (v : Word) :
    s.busWrite a lanes v = s ∨
    (lanes = 0xF ∧ ∃ r, a = r.offset ∧ s.busWrite a lanes v = s.writeReg r v) ∨
    (lanes = 0xF ∧ ∃ c, targetOf s.params a = .cell c ∧
      (s.busy = true ∧ s.busWrite a lanes v = s.setAcc ∨
       s.phase = .idle ∧ s.busWrite a lanes v = s.writeLoc (.cell c) v)) := by
  unfold State.busWrite
  split
  · next hwf =>
    obtain ⟨_, hl⟩ := (accessWf_iff a lanes).1 hwf
    split
    · next r hr => exact .inr (.inl ⟨hl, r, (targetOf_reg_iff _ _ _).1 hr, rfl⟩)
    · exact .inl rfl
    · next c hc =>
      refine .inr (.inr ⟨hl, c, hc, ?_⟩)
      split
      · next hb => exact .inl ⟨hb, rfl⟩
      · next hb => exact .inr ⟨s.busy_eq_false_iff.1 (by simpa using hb), rfl⟩
  · exact .inl rfl

/-! ### What changes the memories (spec/20_memory.md R66, R67, R74) -/

@[simp] theorem State.writeCtrl_mems (s : State) (v : Word) : (s.writeCtrl v).mems = s.mems := by
  unfold State.writeCtrl
  split <;> rfl

/-- No register write touches a memory. -/
@[simp] theorem State.writeReg_mems (s : State) (r : Reg) (v : Word) : (s.writeReg r v).mems = s.mems := by
  rcases s.writeReg_cases r v with e | e | ⟨_, e⟩ | ⟨_, e⟩ | e | ⟨_, e⟩ | ⟨_, e⟩ | ⟨_, l, hl, e⟩ <;> rw [e]
  · exact s.writeCtrl_mems v
  · rfl
  · rfl
  · rfl
  · cases l with
    | cell c => exact absurd rfl (hl c)
    | _ => rfl

theorem State.busRead_mems {s t : State} {a : Addr} {lanes : BitVec 4} (h : s.busRead a lanes = .next t) :
    t.mems = s.mems := by
  rcases s.busRead_cases t a lanes h with ⟨v, rfl⟩ | ⟨_, rfl⟩
  · rfl
  · rfl

/-- A bus write changes the memories only while Idle, at the word its address names. -/
theorem State.busWrite_mems_ne {s : State} {a : Addr} {lanes : BitVec 4} {v : Word}
    (h : (s.busWrite a lanes v).mems ≠ s.mems) :
    s.phase = .idle ∧ lanes = 0xF ∧ ∃ c, targetOf s.params a = .cell c ∧
      (s.busWrite a lanes v).mems = s.mems.write c (storedBits s.params c v) := by
  rcases s.busWrite_target_cases a lanes v with e | ⟨_, r, _, e⟩ | ⟨hl, c, hc, ⟨_, e⟩ | ⟨hi, e⟩⟩
  · exact absurd (by rw [e]) h
  · exact absurd (by rw [e, State.writeReg_mems]) h
  · exact absurd (by rw [e, State.setAcc_mems]) h
  · exact ⟨hi, hl, c, hc, by rw [e]; rfl⟩

/-- Settles O52: of the turns a step can take, a read, a register write and an Idle engine's turn keep every
memory. -/
theorem onlyThreeThingsChangeMemory : Obligations.OnlyThreeThingsChangeMemory := by
  intro s t hstep hne
  rcases step_turn_cases hstep with ⟨hturn, he⟩ | ⟨a, lanes, _, hr⟩ | ⟨a, lanes, v, hturn, rfl⟩ | ⟨hturn, _⟩
  · rcases State.engineStep_cases he with ⟨_, rfl⟩ | ⟨hb, hi, hd⟩
    · exact absurd rfl hne
    · exact .inr (.inl ⟨hb, hi, hd, hturn⟩)
  · exact absurd (State.busRead_mems hr) hne
  · obtain ⟨hi, rfl, c, hc, hw⟩ := State.busWrite_mems_ne hne
    exact .inl ⟨hi, a, v, c, hturn, hc, fun d hd => by
      rw [hw, Memories.read_write_other _ _ _ _ hd, s.turnTaken_mems]⟩
  · exact .inr (.inr hturn)

/-! ### IRQ (spec/10_state.md R45) -/

section
variable (s : State)

@[simp] theorem State.commitOk_irq (out : Outputs) : (s.commitOk out).irq = s.regs.irqEn := by simp [State.irq]

@[simp] theorem State.commitFail_irq (code : ErrCode) (info : Word) : (s.commitFail code info).irq = s.regs.irqEn := by
  simp [State.irq]

@[simp] theorem State.hardReset_irq : s.hardReset.irq = false := rfl

@[simp] theorem State.setAcc_irq : s.setAcc.irq = s.irq := rfl

@[simp] theorem State.writeLoc_irq (l : Loc) (v : Word) : (s.writeLoc l v).irq = s.irq := by simp [State.irq]

/-- After a write of CTRL, IRQ is DONE and the new IRQ_EN, and low after a soft reset. -/
theorem State.writeCtrl_irq (v : Word) : (s.writeCtrl v).irq = (s.regs.status.done && v[0] && !v[1]) := by
  unfold State.writeCtrl
  split
  · next h => simp [h, State.irq, Regs.reset, Status.reset]
  · next h => simp [h, State.irq]

/-- A configuration write does not raise IRQ: stored, it keeps IRQ_EN and STATUS; dropped, it only sets ACC. -/
theorem State.irq_of_configWrite_irq {r : Regs} (h : (s.configWrite r).irq = true) (hen : r.irqEn = s.regs.irqEn)
    (hst : r.status = s.regs.status) : s.irq = true := by
  unfold State.configWrite at h
  split at h
  · exact h
  · simpa [State.irq, hen, hst] using h

/-- A CMD write does not raise IRQ: acceptance clears DONE, and a dropped write only sets OVR. -/
theorem State.irq_of_writeCmd_irq {v : Word} (h : (s.writeCmd v).irq = true) : s.irq = true := by
  unfold State.writeCmd at h
  split at h
  · exact h
  · simp [State.irq] at h

/-- A write of a register other than CTRL does not raise IRQ: it keeps IRQ_EN and does not set DONE. -/
theorem State.irq_of_writeReg_irq {r : Reg} (hr : r ≠ .ctrl) {v : Word} (h : (s.writeReg r v).irq = true) :
    s.irq = true := by
  cases r with
  | ctrl => exact absurd rfl hr
  | cmd => exact s.irq_of_writeCmd_irq h
  | status =>
    simp only [State.writeReg, State.irq, Status.w1c_done, Bool.and_eq_true] at h ⊢
    obtain ⟨⟨hdone, _⟩, hen⟩ := h
    exact ⟨hdone, hen⟩
  | window | txtLen | bstrLen | tokLen | alphaN => exact s.irq_of_configWrite_irq h rfl rfl
  | _ => exact h

end

theorem State.busRead_irq {s t : State} {a : Addr} {lanes : BitVec 4} (h : s.busRead a lanes = .next t) :
    t.irq = s.irq := by
  rcases s.busRead_cases t a lanes h with ⟨v, rfl⟩ | ⟨_, rfl⟩
  · rfl
  · rfl

/-- A bus write raises IRQ only as a write of CTRL that sets IRQ_EN while DONE = 1. -/
theorem State.busWrite_raises_irq {s : State} {a : Addr} {lanes : BitVec 4} {v : Word} (hlow : s.irq = false)
    (h : (s.busWrite a lanes v).irq = true) :
    lanes = 0xF ∧ a = Reg.ctrl.offset ∧ s.regs.status.done = true ∧ v[0] = true := by
  rcases s.busWrite_target_cases a lanes v with e | ⟨hl, r, ha, e⟩ | ⟨_, c, _, ⟨_, e⟩ | ⟨_, e⟩⟩ <;> rw [e] at h
  · simp [hlow] at h
  · by_cases hr : r = .ctrl
    · subst hr
      have h : (s.writeCtrl v).irq = true := h
      rw [State.writeCtrl_irq] at h
      simp only [Bool.and_eq_true] at h
      exact ⟨hl, ha, h.1⟩
    · have hkept := s.irq_of_writeReg_irq hr h
      simp [hlow] at hkept
  · simp [hlow] at h
  · simp [hlow] at h

/-- Every commit leaves IRQ at IRQ_EN. -/
theorem exec_irq {i : Instr} {s t : State} (h : exec i s = .next t) : t.irq = s.regs.irqEn := by
  rcases (exec_eq_next i s t).1 h with ⟨out, _, rfl⟩ | ⟨code, info, _, rfl⟩
  · exact s.commitOk_irq out
  · exact s.commitFail_irq code info

/-- Settles O53: IRQ is computed from the two bits, a commit sets the first of them, and the turn a step takes says
whether it can raise IRQ. -/
theorem irqIsDoneAndEnabled : Obligations.IrqIsDoneAndEnabled := by
  refine ⟨fun s => by simp [State.irq], fun _ _ _ => exec_irq, fun s t hstep hlow hhigh => ?_⟩
  rcases step_turn_cases hstep with ⟨hturn, he⟩ | ⟨a, lanes, _, hr⟩ | ⟨a, lanes, v, hturn, rfl⟩ | ⟨_, rfl⟩
  · rcases State.engineStep_cases he with ⟨_, rfl⟩ | ⟨hb, hi, _⟩
    · simp [hlow] at hhigh
    · exact .inl ⟨hb, hi, hturn⟩
  · simp [State.busRead_irq hr, hlow] at hhigh
  · obtain ⟨rfl, rfl, hd, hv⟩ := State.busWrite_raises_irq (s := s.turnTaken) hlow hhigh
    exact .inr ⟨hd, v, hv, hturn⟩
  · simp at hhigh

end Sys2Proof.Machine

namespace Sys2Proof.Machine

/-! ### Where the memory words stand (spec/20_memory.md R60, R61, R64) -/

@[simp] theorem accessWf_regOffset (r : Reg) : accessWf r.offset 15#4 = true := by cases r <;> rfl

@[simp] theorem targetOf_regOffset (p : Params) (r : Reg) : targetOf p r.offset = .reg r :=
  (targetOf_reg_iff p _ r).2 rfl

theorem Reg.offset_lt (r : Reg) : r.offset.toNat < 0x44 := by cases r <;> decide

/-- An address above the registers and past every memory word of its region (R63). -/
def OutsideRegions (p : Params) (a : Addr) : Prop :=
  (0x44 ≤ a.toNat ∧ a.toNat < 0x100000) ∨
  (0x100000 + 4 * p.txtDepth ≤ a.toNat ∧ a.toNat < 0x200000) ∨
  (0x200000 + 4 * p.bstrDepth ≤ a.toNat ∧ a.toNat < 0x300000) ∨
  (0x300000 + 4 * p.tokDepth ≤ a.toNat ∧ a.toNat < 0x400000) ∨
  0x400000 + 16 * p.ctDepth ≤ a.toNat

section
variable {p : Params} (hp : p.wf = true)
include hp

theorem Cell.addr_not_outsideRegions {c : Cell} (hc : c.index < c.depth p) : ¬ OutsideRegions p c.addr := by
  have hb := Params.wf_bounds hp
  unfold OutsideRegions
  cases c <;> simp only [Cell.index, Cell.depth, Cell.addr, BitVec.toNat_ofNat] at hc ⊢ <;> omega

theorem targetOf_of_outsideRegions {a : Addr} (ha : a.toNat % 4 = 0) (hout : OutsideRegions p a) :
    targetOf p a = .unmapped := by
  cases ht : targetOf p a with
  | reg r =>
    obtain rfl := (targetOf_reg_iff p a r).1 ht
    have := r.offset_lt
    unfold OutsideRegions at hout
    omega
  | cell c =>
    obtain rfl := eq_addr_of_targetOf p hp a c ha ht
    exact absurd hout (c.addr_not_outsideRegions hp (targetOf_cell_lt p _ c ht))
  | unmapped => rfl

end

/-- Settles O48: each memory word's address names it, and an aligned address that names it is that address. -/
theorem addressMap : Obligations.AddressMap := by
  intro p hp
  have hword : ∀ c : Cell, c.index < c.depth p → targetOf p c.addr = .cell c := fun c hc => (targetOf_addr p hp c hc).1
  refine ⟨fun k => hword (.txt k), fun k => hword (.bstr k), fun k => hword (.tok k),
    fun k hk => ⟨hword (.ctSym k) hk, hword (.ctFreq k) hk, hword (.ctLen k) hk, hword (.ctBits k) hk⟩, ?_,
    fun a r => targetOf_reg_iff p a r⟩
  intro a b c ha hb hta htb
  rw [eq_addr_of_targetOf p hp a c ha hta, eq_addr_of_targetOf p hp b c hb htb]

/-! ### One rule per kind of transaction (spec/40_host_interface.md R110) -/

section
variable (s : State)

/-- A read of a register returns its value. -/
theorem State.busRead_reg (r : Reg) : s.busRead r.offset 0xF = .next (s.answer (s.readReg r)) := by
  simp [State.busRead]

theorem State.busWrite_reg (r : Reg) (v : Word) : s.busWrite r.offset 0xF v = s.writeReg r v := by
  simp [State.busWrite]

/-- An access with no target: it is not well-formed (R61), or its address is unmapped (R63). -/
def State.Stray (a : Addr) (lanes : BitVec 4) : Prop :=
  accessWf a lanes = false ∨ targetOf s.params a = .unmapped

variable {s} {a : Addr} {lanes : BitVec 4}

theorem State.Stray.busRead (h : s.Stray a lanes) : s.busRead a lanes = .next (s.answer 0) := by
  unfold State.busRead
  rcases h with h | h <;> simp [h]

theorem State.Stray.busWrite (h : s.Stray a lanes) (v : Word) : s.busWrite a lanes v = s := by
  unfold State.busWrite
  rcases h with h | h <;> simp [h]

end

/-- Settles O49: an access that is well-formed and past every region has no target. -/
theorem strayAccessesHaveNoEffect : Obligations.StrayAccessesHaveNoEffect := by
  intro s a lanes v hp h
  have hstray : s.Stray a lanes := by
    cases hwf : accessWf a lanes with
    | false => exact .inl hwf
    | true =>
      obtain ⟨ha, hl⟩ := (accessWf_iff a lanes).1 hwf
      rcases h with hna | hnl | hout
      · exact absurd ha hna
      · exact absurd hl hnl
      · exact .inr (targetOf_of_outsideRegions hp ha hout)
  exact ⟨hstray.busRead, congrArg _ (hstray.busWrite v)⟩

/-! ### Accesses to a memory word (spec/20_memory.md R65, R74; spec/40_host_interface.md R125) -/

section
variable {s : State} (hp : s.params.wf = true) {c : Cell} (hc : c.index < c.depth s.params)
include hp hc

theorem State.busWrite_cell_idle (hi : s.phase = .idle) (v : Word) :
    s.busWrite c.addr 0xF v = { s with mems := s.mems.write c (storedBits s.params c v) } := by
  obtain ⟨ht, hwf⟩ := targetOf_addr s.params hp c hc
  simp [State.busWrite, hwf, ht, s.busy_eq_false_iff.2 hi]

theorem State.busRead_cell_idle (hi : s.phase = .idle) {w : Word} (hw : s.mems.read c = some w) :
    s.busRead c.addr 0xF = .next (s.answer w) := by
  obtain ⟨ht, hwf⟩ := targetOf_addr s.params hp c hc
  simp [State.busRead, hwf, ht, s.busy_eq_false_iff.2 hi, hw]

/-- No value to return (spec/70_reset_and_hazards.md R271). -/
theorem State.busRead_cell_unwritten (hi : s.phase = .idle) (hw : s.mems.read c = none) :
    s.busRead c.addr 0xF = .fault (.unwrittenRead c) := by
  obtain ⟨ht, hwf⟩ := targetOf_addr s.params hp c hc
  simp [State.busRead, hwf, ht, s.busy_eq_false_iff.2 hi, hw]

theorem State.busWrite_cell_busy (hb : s.busy = true) (v : Word) : s.busWrite c.addr 0xF v = s.setAcc := by
  obtain ⟨ht, hwf⟩ := targetOf_addr s.params hp c hc
  simp [State.busWrite, hwf, ht, hb]

theorem State.busRead_cell_busy (hb : s.busy = true) :
    s.busRead c.addr 0xF =
      .next { s.setAcc.answer (Config.busyRead s.draws) with draws := s.draws + 1 } := by
  obtain ⟨ht, hwf⟩ := targetOf_addr s.params hp c hc
  simp [State.busRead, hwf, ht, hb]

end

/-- What a command reads is what the memories hold (spec/40_host_interface.md R122). -/
theorem State.Inv.inputs_mems {s : State} (h : s.Inv) : s.inputs.mems = s.mems := by
  cases hphase : s.phase with
  | idle => rw [s.inputs_of_idle hphase, s.capture_mems]
  | busy v snap => rw [s.inputs_of_busy v snap hphase, (h.inFlight v snap hphase).mems]

/-- A word that storing keeps whole is within the stored bits. -/
theorem toNat_lt_of_storedBits_eq {p : Params} {c : Cell} {w : Word} (h : storedBits p c w = w) :
    w.toNat < 2 ^ c.width p := by
  rw [← h, storedBits_toNat]
  exact Nat.mod_lt _ (Nat.two_pow_pos _)

/-- Settles O50: a write of the word stores its stored bits, which a read returns; what a command reads fits, since the
memories fit. -/
theorem memoryAccessWhileIdle : Obligations.MemoryAccessWhileIdle := by
  refine ⟨fun s c v hp hi hc => ?_, fun p k v => ⟨fun c hmem => ?_, ?_, ?_, ?_⟩, fun s c w h hread => ?_⟩
  · refine ⟨_, congrArg _ (State.busWrite_cell_idle hp hc hi v), rfl, Memories.read_write_same _ _ _,
      fun d hd => Memories.read_write_other _ _ _ _ hd, ?_, fun w => State.busRead_cell_idle hp hc hi,
      State.busRead_cell_unwritten hp hc hi⟩
    exact State.busRead_cell_idle (s := { s with mems := s.mems.write c (storedBits s.params c v) }) hp hc hi
      (Memories.read_write_same _ _ _)
  · have hwidth : c.width p = p.charW := by
      simp only [List.mem_cons, List.not_mem_nil, or_false] at hmem
      rcases hmem with rfl | rfl | rfl | rfl <;> rfl
    rw [storedBits_toNat, hwidth]
  · exact storedBits_toNat p (.ctLen k) v
  · exact storedBits_of_lt p (.ctFreq k) v v.isLt
  · exact storedBits_of_lt p (.ctBits k) v v.isLt
  · rw [h.inputs_mems] at hread
    obtain ⟨hc, hw⟩ := h.fits c w hread
    exact ⟨hc, toNat_lt_of_storedBits_eq hw⟩

/-- Settles O51: the write sets ACC alone, and the word read depends on the count of draws alone. -/
theorem memoryAccessWhileBusy : Obligations.MemoryAccessWhileBusy := by
  intro s c v hp hb hc
  refine ⟨congrArg _ (State.busWrite_cell_busy hp hc hb v), Config.busyRead s.draws, s.draws + 1, fun m => ?_⟩
  exact State.busRead_cell_busy (s := { s with mems := m }) hp hc hb

end Sys2Proof.Machine

namespace Sys2Proof.Machine

/-! ### Which unwritten word stops a command (spec/70_reset_and_hazards.md R271) -/

/-- A memory word in a command's input range, below its memory's depth, that holds no value. -/
def UnwrittenInput (p : Params) (snap : Snapshot) (i : Instr) (c : Cell) : Prop :=
  CommandReads snap.regs i c ∧ c.index < c.depth p ∧ snap.mems.read c = none

theorem Snapshot.seq_unwritten {snap : Snapshot} {mk : Nat → Cell} {n : Nat} {c : Cell}
    (h : snap.seq mk n = .error (.unwritten c)) : ∃ k < n, c = mk k ∧ snap.mems.read c = none := by
  obtain ⟨k, hk, hread, e⟩ := snap.seq_eq_error mk n _ h
  cases e
  exact ⟨k, hk, rfl, hread⟩

/-- A table that passes TableOK fits CT. -/
theorem Snapshot.alphaN_le_of_tableOk {p : Params} {snap : Snapshot} (h : snap.tableOk p = .ok ()) :
    snap.regs.alphaN.toNat ≤ p.ctDepth := by
  obtain ⟨-, hle, -⟩ := snap.tableOk_written p h
  exact hle

section
variable {p : Params} {snap : Snapshot} {c : Cell}

/-- A field of the table holds no value: an unwritten input of each command that reads the table. -/
theorem unwrittenInput_of_table {i : Instr} (hi : TableReads snap.regs c → CommandReads snap.regs i c)
    (hn : snap.regs.alphaN.toNat ≤ p.ctDepth)
    (h : TableEntryField snap.regs.alphaN.toNat c ∧ snap.mems.read c = none) : UnwrittenInput p snap i c :=
  ⟨hi h.1, tableEntryField_index_lt p _ hn c h.1, h.2⟩

theorem unwrittenInput_of_tableOk {i : Instr} (hi : TableReads snap.regs c → CommandReads snap.regs i c)
    (h : snap.tableOk p = .error (.unwritten c)) : UnwrittenInput p snap i c :=
  unwrittenInput_of_table hi (snap.tableOk_unwritten p c h).1 (snap.tableOk_unwritten p c h).2

/-- An entry of the input text holds no value. -/
theorem unwrittenInput_of_seq {i : Instr} {mk : Nat → Cell} {n : Nat}
    (hi : ∀ k < n, CommandReads snap.regs i (mk k) ∧ (mk k).index < (mk k).depth p)
    (h : snap.seq mk n = .error (.unwritten c)) : UnwrittenInput p snap i c := by
  obtain ⟨k, hk, rfl, hread⟩ := Snapshot.seq_unwritten h
  exact ⟨(hi k hk).1, (hi k hk).2, hread⟩

theorem fBuild_unwritten (h : fBuild p snap = .error (.unwritten c)) : UnwrittenInput p snap .build c := by
  rcases (fBuild_eq_error _ _ _).1 h with ⟨_, h⟩ | ⟨hlen, ⟨_, h⟩ | ⟨_, h | ⟨_, _, _, h⟩⟩⟩
  · cases h
  · cases h
  · exact unwrittenInput_of_seq (fun k hk => ⟨⟨k, hk, rfl⟩, hk.trans_le hlen⟩) h
  · cases h

theorem fSfEncode_unwritten (h : fSfEncode p snap = .error (.unwritten c)) : UnwrittenInput p snap .sfEncode c := by
  rcases (fSfEncode_eq_error _ _ _).1 h with ⟨_, h⟩ | ⟨hlen, h | ⟨htable, h | ⟨_, _, h | ⟨_, _, _, h⟩⟩⟩⟩
  · cases h
  · exact unwrittenInput_of_tableOk .inr h
  · exact unwrittenInput_of_seq (fun k hk => ⟨.inl ⟨k, hk, rfl⟩, hk.trans_le hlen⟩) h
  · exact unwrittenInput_of_table .inr (Snapshot.alphaN_le_of_tableOk htable) (snap.encodeFrom_unwritten _ _ _ _ h)
  · cases h

theorem fSfDecode_unwritten (h : fSfDecode p snap = .error (.unwritten c)) : UnwrittenInput p snap .sfDecode c := by
  rcases (fSfDecode_eq_error _ _ _).1 h with ⟨_, h⟩ | ⟨hlen, h | ⟨htable, h | ⟨_, _, h | ⟨_, _, _, h⟩⟩⟩⟩
  · cases h
  · exact unwrittenInput_of_tableOk .inr h
  · exact unwrittenInput_of_seq (fun k hk => ⟨.inl ⟨k, hk, rfl⟩, hk.trans_le hlen⟩) h
  · exact unwrittenInput_of_table .inr (Snapshot.alphaN_le_of_tableOk htable) (snap.scanBits_unwritten _ _ _ _ h)
  · cases h

theorem fLzEncode_unwritten (h : fLzEncode p snap = .error (.unwritten c)) : UnwrittenInput p snap .lzEncode c := by
  rcases (fLzEncode_eq_error _ _ _).1 h with ⟨_, h⟩ | ⟨hlen, h | ⟨_, _, _, h⟩⟩
  · cases h
  · exact unwrittenInput_of_seq (fun k hk => ⟨⟨k, hk, rfl⟩, hk.trans_le hlen⟩) h
  · cases h

theorem fLzDecode_unwritten (h : fLzDecode p snap = .error (.unwritten c)) : UnwrittenInput p snap .lzDecode c := by
  rcases (fLzDecode_eq_error _ _ _).1 h with ⟨_, h⟩ | ⟨hlen, h | ⟨_, _, _, h⟩⟩
  · cases h
  · exact unwrittenInput_of_seq (fun k hk => ⟨⟨k, hk, rfl⟩, hk.trans_le hlen⟩) h
  · cases h

theorem fCompress_unwritten (h : fCompress p snap = .error (.unwritten c)) : UnwrittenInput p snap .compress c := by
  rcases (fCompress_eq_error _ _ _).1 h with
    ⟨_, h⟩ | ⟨hlen, ⟨_, h⟩ | ⟨_, h | ⟨_, _, ⟨_, h⟩ | ⟨_, ⟨_, h⟩ | ⟨_, _, h⟩⟩⟩⟩⟩
  · cases h
  · cases h
  · exact unwrittenInput_of_seq (fun k hk => ⟨⟨k, hk, rfl⟩, hk.trans_le hlen⟩) h
  · cases h
  · cases h
  · cases h

theorem fDecompress_unwritten (h : fDecompress p snap = .error (.unwritten c)) :
    UnwrittenInput p snap .decompress c := by
  rcases (fDecompress_eq_error _ _ _).1 h with
    ⟨_, h⟩ | ⟨hlen, h | ⟨htable, h | ⟨_, _, ⟨_, h⟩ | ⟨_, h | ⟨_, _, _, h⟩⟩⟩⟩⟩
  · cases h
  · exact unwrittenInput_of_tableOk .inr h
  · exact unwrittenInput_of_seq (fun k hk => ⟨.inl ⟨k, hk, rfl⟩, hk.trans_le hlen⟩) h
  · cases h
  · exact unwrittenInput_of_table .inr (Snapshot.alphaN_le_of_tableOk htable) (snap.scanBits_unwritten _ _ _ _ h)
  · cases h

/-- A command stops on no other unwritten word than one of its inputs. -/
theorem resultOf_unwritten {i : Instr} (h : resultOf i p snap = .error (.unwritten c)) : UnwrittenInput p snap i c := by
  cases i with
  | build => exact fBuild_unwritten h
  | sfEncode => exact fSfEncode_unwritten h
  | sfDecode => exact fSfDecode_unwritten h
  | lzEncode => exact fLzEncode_unwritten h
  | lzDecode => exact fLzDecode_unwritten h
  | compress => exact fCompress_unwritten h
  | decompress => exact fDecompress_unwritten h

end

/-- A command whose inputs are written completes (spec/40_host_interface.md R123). -/
theorem exec_completes {i : Instr} {s : State} (h : InputsWritten s.params s.inputs i) :
    ∃ t, exec i s = .next t := by
  rw [exec_eq]
  cases hr : resultOf i s.params s.inputs with
  | ok out => exact ⟨_, rfl⟩
  | error e =>
    cases e with
    | raised code info => exact ⟨_, rfl⟩
    | unwritten c =>
      obtain ⟨hreads, hc, hnone⟩ := resultOf_unwritten hr
      have := h c hreads hc
      simp [hnone] at this

end Sys2Proof.Machine

namespace Sys2Proof.Machine

/-! ### The turns to come and the words returned do not matter (log entries 1 and 2) -/

section
variable (s : State) (turns : List Turn) (returned : List Word)

theorem State.writeLoc_withTurns (l : Loc) (v : Word) :
    State.writeLoc { s with turns := turns, returned := returned } l v =
      { s.writeLoc l v with turns := turns, returned := returned } := by
  cases l <;> rfl

theorem State.applyWrites_withTurns (ws : List (Loc × Word)) :
    State.applyWrites { s with turns := turns, returned := returned } ws =
      { s.applyWrites ws with turns := turns, returned := returned } := by
  induction ws generalizing s with
  | nil => rfl
  | cons w ws ih => rw [State.applyWrites_cons, State.applyWrites_cons, State.writeLoc_withTurns, ih]

theorem State.commitOk_withTurns (out : Outputs) :
    State.commitOk { s with turns := turns, returned := returned } out =
      { s.commitOk out with turns := turns, returned := returned } := by
  simp only [State.commitOk, State.applyWrites_withTurns]

end

/-- A command computes from the snapshot, and its commit keeps both. -/
theorem exec_withTurns {i : Instr} {s t : State} (h : exec i s = .next t) (turns : List Turn) (returned : List Word) :
    exec i { s with turns := turns, returned := returned } = .next { t with turns := turns, returned := returned } := by
  rw [exec_eq_next] at h ⊢
  rcases h with ⟨out, hout, rfl⟩ | ⟨code, info, hraise, rfl⟩
  · exact .inl ⟨out, hout, (s.commitOk_withTurns turns returned out).symm⟩
  · exact .inr ⟨code, info, hraise, rfl⟩

/-- Every commit ends the command: Idle, DONE (spec/40_host_interface.md R119, R120). -/
theorem exec_ends {i : Instr} {s t : State} (h : exec i s = .next t) :
    t.phase = .idle ∧ t.regs.status.done = true := by
  rcases (exec_eq_next i s t).1 h with ⟨out, _, rfl⟩ | ⟨code, info, _, rfl⟩
  · exact ⟨s.commitOk_phase out, by simp⟩
  · exact ⟨s.commitFail_phase code info, by simp⟩

/-! ### The steps of a host program (spec/30_encoding.md R93, R94) -/

@[simp] theorem decode_encode (i : Instr) : decode (encode i) = .ok i := by cases i <;> rfl

/-- Acceptance keeps the registers a command's input range is made of. -/
theorem commandReads_accept (s : State) (v : Word) (i : Instr) (c : Cell) :
    CommandReads (s.accept v).regs i c ↔ CommandReads s.regs i c := by cases i <;> exact Iff.rfl

theorem inputsWritten_accept {s : State} (hi : s.phase = .idle) {i : Instr} (h : InputsWritten s.params s.inputs i)
    (v : Word) : InputsWritten (s.accept v).params (s.accept v).inputs i := by
  rw [s.inputs_of_idle hi] at h
  exact fun c hc => h c ((commandReads_accept s v i c).1 hc)

section
variable {s : State} {rest : List Turn}

theorem step_of_turns_cons {turn : Turn} (h : s.turns = turn :: rest) :
    step s = State.take { s with turns := rest } turn := by
  rw [step, State.nextTurn, h]

theorem step_rd {r : Reg} (h : s.turns = (HostStmt.rd r).turn :: rest) :
    step s = .next (State.answer { s with turns := rest } (s.readReg r)) :=
  (step_of_turns_cons h).trans (State.busRead_reg { s with turns := rest } r)

/-- On an Idle block a command statement is its acceptance. -/
theorem step_cmd (hi : s.phase = .idle) {i : Instr} (h : s.turns = (HostStmt.cmd i).turn :: rest) :
    step s = .next (State.accept { s with turns := rest } (encode i)) := by
  have hb : State.busy { s with turns := rest } = false := (State.busy_eq_false_iff _).2 hi
  have hw : State.busWrite { s with turns := rest } Reg.cmd.offset 0xF (encode i) =
      State.accept { s with turns := rest } (encode i) := by
    rw [State.busWrite_reg, State.writeReg, State.writeCmd, hb, if_neg Bool.false_ne_true]
  exact (step_of_turns_cons h).trans (congrArg _ hw)

theorem step_engine {v : Word} {snap : Snapshot} {i : Instr} (hp : s.phase = .busy v snap) (hd : decode v = .ok i)
    (h : s.turns = .engine :: rest) : step s = exec i { s with turns := rest } := by
  rw [step_of_turns_cons h, State.take, State.engineStep]
  simp only [hp, hd]

/-- Reads of one register, one after another, all return its value. -/
theorem run_rds (n : Nat) {r : Reg} (h : s.turns = List.replicate n (HostStmt.rd r).turn ++ rest) :
    Sys2Proof.core.run n s =
      .next { s with turns := rest, returned := List.replicate n (s.readReg r) ++ s.returned } := by
  induction n generalizing s with
  | zero =>
    obtain rfl : s.turns = rest := h
    rfl
  | succ n ih =>
    rw [run_succ n s _ (step_rd h), ih rfl, List.replicate_succ', List.append_assoc]
    rfl

end

/-- `WAIT` (spec/30_encoding.md R94) while a command is in flight: the polls see it, the engine's turn completes it, and
the last poll sees what it left. -/
theorem run_waitTurns {s t : State} {v : Word} {snap : Snapshot} {i : Instr} {polls : Nat} {rest : List Turn}
    (hp : s.phase = .busy v snap) (hd : decode v = .ok i) (hexec : exec i s = .next t)
    (h : s.turns = waitTurns polls ++ rest) :
    Sys2Proof.core.run (polls + 2) s =
      .next { t with
        turns := rest
        returned := t.readReg .status :: (List.replicate polls (s.readReg .status) ++ s.returned) } := by
  rw [waitTurns, List.append_assoc] at h
  have hengine := fun returned => (step_engine (s := { s with turns := _, returned := returned }) hp hd rfl).trans
    (exec_withTurns hexec ((HostStmt.rd .status).turn :: rest) returned)
  have hlast := fun returned =>
    step_rd (s := { t with turns := _, returned := returned }) (r := .status) (rest := rest) rfl
  exact (run_add _ _ _ _ (run_rds polls h)).trans ((run_succ 1 _ _ (hengine _)).trans (run_succ 0 _ _ (hlast _)))

/-- `RUN` (spec/30_encoding.md R94) on an Idle block: the command is accepted, and then waited for. -/
theorem run_runTurns {s t : State} {i : Instr} {polls : Nat} {rest : List Turn} (hi : s.phase = .idle)
    (hexec : exec i (s.accept (encode i)) = .next t) (h : s.turns = runTurns i polls ++ rest) :
    Sys2Proof.core.run (polls + 3) s =
      .next { t with
        turns := rest
        returned := t.readReg .status ::
          (List.replicate polls ((s.accept (encode i)).readReg .status) ++ s.returned) } := by
  have hcmd := step_cmd (rest := waitTurns polls ++ rest) hi h
  have hwait := run_waitTurns (s := State.accept { s with turns := waitTurns polls ++ rest } (encode i)) rfl
    (decode_encode i) (exec_withTurns hexec _ _) rfl
  exact (run_succ (polls + 2) _ _ hcmd).trans hwait

/-- Settles O58: the written inputs let the command complete, so the run of RUN's turns ends at its commit, and the
polls read the accepted state and the committed one. -/
theorem runAndWaitSeesCompletion : Obligations.RunAndWaitSeesCompletion := by
  intro s i polls rest hi hin hturns
  obtain ⟨t, hexec⟩ := exec_completes (inputsWritten_accept hi hin (encode i))
  obtain ⟨hidle, hdone⟩ := exec_ends hexec
  have haccepted : (s.accept (encode i)).busy = true := rfl
  have hcommitted : t.busy = false := t.busy_eq_false_iff.2 hidle
  refine ⟨_, t, (s.accept (encode i)).readReg .status, t.readReg .status, run_runTurns hi hexec hturns, rfl, hexec,
    rfl, rfl, hidle, rfl, ?_, ?_, ?_, ?_, rfl⟩
  · rw [State.readReg_status_getElem_zero, haccepted]
  · rw [State.readReg_status_getElem_one, State.accept_regs, Status.accepted_done]
  · rw [State.readReg_status_getElem_zero, hcommitted]
  · rw [State.readReg_status_getElem_one, hdone]

end Sys2Proof.Machine

namespace Sys2Proof.Machine

/-! ### The decoder (spec/30_encoding.md R80 to R83) -/

theorem opField_toNat (v : Word) : (opField v).toNat = v.toNat % 16 := by
  simp [opField, BitVec.extractLsb'_toNat]

theorem rsvdField_eq_zero_iff (v : Word) : rsvdField v = 0 ↔ v.toNat < 16 := by
  have hv := v.isLt
  rw [← BitVec.toNat_inj, rsvdField, BitVec.extractLsb'_toNat, Nat.shiftRight_eq_div_pow]
  show v.toNat / 2 ^ 4 % 2 ^ 28 = 0 ↔ _
  omega

/-- With a reserved bit set the OP field is not looked at. -/
theorem decode_of_ge {v : Word} (h : 16 ≤ v.toNat) : decode v = .error .reservedBits := by
  have hr : rsvdField v ≠ 0 := by
    rw [Ne, rsvdField_eq_zero_iff]
    omega
  rw [decode, if_pos hr]

/-- The encoder is the decoder's only preimage. -/
theorem decode_eq_ok_iff (v : Word) (i : Instr) : decode v = .ok i ↔ v = encode i := by
  constructor
  · intro h
    have hlt : v.toNat < 16 := by
      by_contra hge
      rw [decode_of_ge (by omega)] at h
      cases h
    have hop : (opField v).toNat = v.toNat := by rw [opField_toNat, Nat.mod_eq_of_lt hlt]
    rw [decode, if_neg (not_not.2 ((rsvdField_eq_zero_iff v).2 hlt)), hop] at h
    apply BitVec.eq_of_toNat_eq
    split at h <;> cases h <;> assumption
  · rintro rfl
    exact decode_encode i

/-- The command words are the numbers 1 to 7 (R81's table). -/
theorem exists_encode_iff (v : Word) : (∃ i, v = encode i) ↔ 1 ≤ v.toNat ∧ v.toNat ≤ 7 := by
  constructor
  · rintro ⟨i, rfl⟩
    cases i <;> decide
  · rintro ⟨h1, h7⟩
    have hv : v = BitVec.ofNat 32 v.toNat := by simp
    generalize v.toNat = n at h1 h7 hv
    subst hv
    match n with
    | 1 => exact ⟨.build, rfl⟩
    | 2 => exact ⟨.sfEncode, rfl⟩
    | 3 => exact ⟨.sfDecode, rfl⟩
    | 4 => exact ⟨.lzEncode, rfl⟩
    | 5 => exact ⟨.lzDecode, rfl⟩
    | 6 => exact ⟨.compress, rfl⟩
    | 7 => exact ⟨.decompress, rfl⟩

/-- Settles O2: a word that decodes is an encoding, and the encodings are the words 1 to 7. -/
theorem decodeAndEncodeAgree : Obligations.DecodeAndEncodeAgree := by
  refine ⟨decode_eq_ok_iff, fun v => ?_, fun i => ?_⟩
  · simp only [decode_eq_ok_iff, exists_encode_iff]
    omega
  · have hword : BitVec.ofNat 32 ((encode i).toNat % 2 ^ 32) = encode i := by
      rw [Nat.mod_eq_of_lt (encode i).isLt, BitVec.ofNat_toNat, BitVec.setWidth_eq]
    rw [decodeTableWord, if_pos le_rfl, hword, decode_encode]

/-- Settles O1: the seven words are the encodings; no other word with RSVD = 0 has a row; RSVD ≠ 0 is checked first. -/
theorem commandWordsDecode : Obligations.CommandWordsDecode := by
  refine ⟨decode_encode .build, decode_encode .sfEncode, decode_encode .sfDecode, decode_encode .lzEncode,
    decode_encode .lzDecode, decode_encode .compress, decode_encode .decompress, ?_, fun _ => decode_of_ge⟩
  simp only [List.forall_mem_cons, List.not_mem_nil, IsEmpty.forall_iff, implies_true]
  decide

end Sys2Proof.Machine

namespace Sys2Proof.Machine

/-! ### Codes and CODE_BITS (spec/30_encoding.md R85) -/

/-- The number a code string stands for, first character most significant: CODE_BITS before it is cut to 32 bits. -/
def codeValue (c : List Word) : Nat := c.foldl (fun acc x => 2 * acc + charBit x) 0

theorem codeBitsOf_eq (c : List Word) : codeBitsOf c = BitVec.ofNat 32 (codeValue c) := rfl

theorem codeValue_snoc (c : List Word) (x : Word) : codeValue (c ++ [x]) = 2 * codeValue c + charBit x := by
  simp [codeValue]

theorem charBit_lt_two (x : Word) : charBit x < 2 := by
  unfold charBit
  split <;> decide

theorem codeValue_lt (c : List Word) : codeValue c < 2 ^ c.length := by
  induction c using List.reverseRecOn with
  | nil => decide
  | append_singleton c x ih =>
    have hx := charBit_lt_two x
    rw [codeValue_snoc, List.length_append, List.length_singleton, Nat.pow_succ]
    omega

/-- The weighted sum of R85. -/
theorem codeValue_eq_sum (c : List Word) :
    codeValue c = ∑ k ∈ Finset.range c.length, charBit (c.getD k 0) * 2 ^ (c.length - 1 - k) := by
  induction c using List.reverseRecOn with
  | nil => rfl
  | append_singleton c x ih =>
    have hinit : ∀ k ∈ Finset.range c.length,
        charBit ((c ++ [x]).getD k 0) * 2 ^ (c.length - k) = 2 * (charBit (c.getD k 0) * 2 ^ (c.length - 1 - k)) := by
      intro k hk
      have hk : k < c.length := Finset.mem_range.1 hk
      rw [List.getD_append _ _ _ _ hk, show c.length - k = c.length - 1 - k + 1 by omega, Nat.pow_succ]
      ring
    rw [codeValue_snoc, List.length_append, List.length_singleton, Finset.sum_range_succ, Nat.add_sub_cancel,
      Finset.sum_congr rfl hinit, ← Finset.mul_sum, ← ih]
    simp

/-- A code of at most 32 characters fits CODE_BITS. -/
theorem codeBitsOf_toNat {c : List Word} (h : c.length ≤ 32) : (codeBitsOf c).toNat = codeValue c := by
  rw [codeBitsOf_eq, BitVec.toNat_ofNat]
  exact Nat.mod_eq_of_lt ((codeValue_lt c).trans_le (Nat.pow_le_pow_right (by decide) h))

/-- The last character of a code is its bit 0, and the characters before it are read from the bits above. -/
theorem codeString_succ (l : Nat) (b : Word) :
    codeString (l + 1) b = codeString l (b >>> 1) ++ [bitChar (b.getLsbD 0)] := by
  have hinit : ∀ t ∈ List.range l, bitChar (b.getLsbD (l - t)) = bitChar ((b >>> 1).getLsbD (l - 1 - t)) := by
    intro t ht
    have ht : t < l := List.mem_range.1 ht
    rw [BitVec.getLsbD_ushiftRight, show 1 + (l - 1 - t) = l - t by omega]
  simp only [codeString, List.range_succ, List.map_append, List.map_singleton, Nat.add_sub_cancel, Nat.sub_self]
  rw [List.map_congr_left hinit]

theorem codeBitsOf_snoc_shift {c : List Word} {x : Word} (h : (c ++ [x]).length ≤ 32) :
    codeBitsOf (c ++ [x]) >>> 1 = codeBitsOf c := by
  have hx := charBit_lt_two x
  apply BitVec.eq_of_toNat_eq
  rw [List.length_append, List.length_singleton] at h
  rw [BitVec.toNat_ushiftRight, codeBitsOf_toNat (by simpa using h), codeBitsOf_toNat (by omega), codeValue_snoc,
    Nat.shiftRight_eq_div_pow]
  omega

theorem bitChar_codeBitsOf_snoc {c : List Word} {x : Word} (h : (c ++ [x]).length ≤ 32) (hx : x = chZero ∨ x = chOne) :
    bitChar ((codeBitsOf (c ++ [x])).getLsbD 0) = x := by
  rw [BitVec.getLsbD, codeBitsOf_toNat h, codeValue_snoc, Nat.testBit_zero]
  rcases hx with rfl | rfl
  · simp [charBit, bitChar, chZero, chOne]
  · simp [charBit, bitChar, chOne]

theorem codeString_codeBitsOf {c : List Word} (hc : ∀ x ∈ c, x = chZero ∨ x = chOne) (h : c.length ≤ 32) :
    codeString c.length (codeBitsOf c) = c := by
  induction c using List.reverseRecOn with
  | nil => rfl
  | append_singleton c x ih =>
    obtain ⟨hinit, hlast⟩ := List.forall_mem_append.1 hc
    have hle : c.length ≤ 32 := by
      rw [List.length_append] at h
      omega
    have hcode := codeString_succ c.length (codeBitsOf (c ++ [x]))
    rw [codeBitsOf_snoc_shift h, bitChar_codeBitsOf_snoc h (hlast x (List.mem_singleton_self x)), ih hinit hle] at hcode
    rwa [List.length_append, List.length_singleton]

/-- Bits [31:L] are ignored. -/
theorem codeString_congr {l : Nat} {v w : Word} (h : v.toNat % 2 ^ l = w.toNat % 2 ^ l) :
    codeString l v = codeString l w := by
  refine List.map_congr_left fun t ht => congrArg bitChar ?_
  have hlt : l - 1 - t < l := by
    have := List.mem_range.1 ht
    omega
  have hbit := congrArg (Nat.testBit · (l - 1 - t)) h
  simpa [Nat.testBit_mod_two_pow, hlt, BitVec.getLsbD] using hbit

/-- Settles O13: a code is read back character by character from its last, and its value is the weighted sum. -/
theorem codesReadBack : Obligations.CodesReadBack := by
  refine ⟨fun c hc hlen => ⟨codeString_codeBitsOf hc hlen, ?_, ?_⟩, fun _ _ _ => codeString_congr⟩
  · rw [codeBitsOf_toNat hlen, codeValue_eq_sum]
  · rw [codeBitsOf_toNat hlen]
    exact codeValue_lt c

end Sys2Proof.Machine

namespace Sys2Proof.Machine

/-! ### Host programs of writes (spec/30_encoding.md R93, R94) -/

/-- The statement that writes a location a host program may write. -/
def Loc.stmt (v : Word) : Loc → HostStmt
  | .cell c => .wrm c v
  | .txtLen => .wr .txtLen v
  | .bstrLen => .wr .bstrLen v
  | .tokLen => .wr .tokLen v
  | .alphaN => .wr .alphaN v

/-- M_LEN of a text memory, as a location. -/
def TextMem.lenLoc : TextMem → Loc
  | .txt => .txtLen
  | .bstr => .bstrLen
  | .tok => .tokLen

theorem storesFrom_eq (m : TextMem) (k : Nat) (text : List Word) :
    storesFrom m k text = (seqWrites m.cell k text).map fun w => w.1.stmt w.2 := by
  induction text generalizing k with
  | nil => rfl
  | cons c text ih => rw [storesFrom, seqWrites, List.map_cons, ih]; rfl

/-- A text put at the start of its memory, and its length in its length register: what LOADS writes, and what a command
commits of an output text (R119). -/
def textWrites (m : TextMem) (text : List Word) : List (Loc × Word) :=
  seqWrites m.cell 0 text ++ [(m.lenLoc, BitVec.ofNat 32 text.length)]

/-- The locations LOADCT writes. -/
def loadCtWrites (k : Nat) (sym : Word) (code : List Word) : List (Loc × Word) :=
  [(.cell (.ctSym k), sym), (.cell (.ctLen k), BitVec.ofNat 32 code.length), (.cell (.ctBits k), codeBitsOf code)]

theorem loads_eq (m : TextMem) (text : List Word) :
    loads m text = (textWrites m text).map fun w => w.1.stmt w.2 := by
  rw [loads, storesFrom_eq, textWrites, List.map_append]
  cases m <;> rfl

theorem loadCt_eq (k : Nat) (sym : Word) (code : List Word) :
    loadCt k sym code = (loadCtWrites k sym code).map fun w => w.1.stmt w.2 := rfl

theorem seqWrites_length (mk : Nat → Cell) (k : Nat) (xs : List Word) : (seqWrites mk k xs).length = xs.length := by
  induction xs generalizing k with
  | nil => rfl
  | cons x xs ih => rw [seqWrites, List.length_cons, ih, List.length_cons]

theorem State.configWrite_of_idle {s : State} (hi : s.phase = .idle) (r : Regs) :
    s.configWrite r = { s with regs := r } := by
  rw [State.configWrite, s.busy_eq_false_iff.2 hi, if_neg Bool.false_ne_true]

/-- On an Idle block the transaction of a write statement writes its location, as a commit would. -/
theorem State.take_stmt {s : State} (hp : s.params.wf = true) (hi : s.phase = .idle) {l : Loc}
    (hl : l.InRange s.params) (v : Word) : s.take (l.stmt v).turn = .next (s.writeLoc l v) := by
  have hreg : ∀ r regs, s.writeReg r v = s.configWrite regs → s.busWrite r.offset 0xF v = { s with regs := regs } := by
    intro r regs h
    rw [State.busWrite_reg, h, State.configWrite_of_idle hi]
  cases l with
  | cell c => exact congrArg _ (State.busWrite_cell_idle hp hl hi v)
  | txtLen => exact congrArg _ (hreg .txtLen _ rfl)
  | bstrLen => exact congrArg _ (hreg .bstrLen _ rfl)
  | tokLen => exact congrArg _ (hreg .tokLen _ rfl)
  | alphaN => exact congrArg _ (hreg .alphaN _ rfl)

/-- A run of write statements on an Idle block writes their locations in order. -/
theorem run_stmts {s : State} {rest : List Turn} (hp : s.params.wf = true) (hi : s.phase = .idle)
    {ws : List (Loc × Word)} (hws : WritesInRange s.params ws)
    (h : s.turns = (ws.map fun w => w.1.stmt w.2).map HostStmt.turn ++ rest) :
    Sys2Proof.core.run ws.length s = .next (State.applyWrites { s with turns := rest } ws) := by
  induction ws generalizing s with
  | nil =>
    obtain rfl : s.turns = rest := h
    rfl
  | cons w ws ih =>
    obtain ⟨l, v⟩ := w
    obtain ⟨hl, hrest⟩ := List.forall_mem_cons.1 hws
    let later := (ws.map fun w => w.1.stmt w.2).map HostStmt.turn ++ rest
    have hstep : step s = .next (State.writeLoc { s with turns := later } l v) :=
      (step_of_turns_cons h).trans (State.take_stmt (s := { s with turns := later }) hp hi hl v)
    have hturns : { State.writeLoc { s with turns := later } l v with turns := rest } =
        State.writeLoc { s with turns := rest } l v := by
      cases l <;> rfl
    rw [List.length_cons, run_succ ws.length s _ hstep, State.applyWrites_cons, ← hturns]
    exact ih (by rwa [State.writeLoc_params]) (by rwa [State.writeLoc_phase]) (by rwa [State.writeLoc_params])
      (State.writeLoc_turns _ _ _)

@[simp] theorem State.applyWrites_phase (s : State) (ws : List (Loc × Word)) : (s.applyWrites ws).phase = s.phase := by
  induction ws generalizing s with
  | nil => rfl
  | cons w ws ih => rw [State.applyWrites_cons, ih, State.writeLoc_phase]

section
variable (s : State) (v : Word)

@[simp] theorem State.writeLoc_txtLen_regs : (s.writeLoc .txtLen v).regs = { s.regs with txtLen := v } := rfl
@[simp] theorem State.writeLoc_bstrLen_regs : (s.writeLoc .bstrLen v).regs = { s.regs with bstrLen := v } := rfl
@[simp] theorem State.writeLoc_tokLen_regs : (s.writeLoc .tokLen v).regs = { s.regs with tokLen := v } := rfl
@[simp] theorem State.writeLoc_alphaN_regs : (s.writeLoc .alphaN v).regs = { s.regs with alphaN := v } := rfl

end

/-! ### LOADS and LOADCT -/

theorem TextMem.cell_injective (m : TextMem) : Function.Injective m.cell := by
  intro j k h
  cases m <;> exact congrArg Cell.index h

theorem TextMem.cell_inRange {p : Params} (m : TextMem) {k : Nat} (h : k < (m.cell 0).depth p) :
    (m.cell k).index < (m.cell k).depth p := by
  cases m <;> exact h

theorem textWrites_inRange {p : Params} {m : TextMem} {text : List Word} (h : text.length ≤ (m.cell 0).depth p) :
    WritesInRange p (textWrites m text) :=
  writesInRange_append.2 ⟨seqWrites_inRange (fun _ hk => m.cell_inRange hk) h,
    writesInRange_singleton.2 (by cases m <;> trivial)⟩

section
variable (s : State) (m : TextMem) (text : List Word)

theorem State.applyWrites_text :
    s.applyWrites (textWrites m text) =
      (s.applyWrites (seqWrites m.cell 0 text)).writeLoc m.lenLoc (BitVec.ofNat 32 text.length) := by
  rw [textWrites, State.applyWrites_append, State.applyWrites_cons, State.applyWrites_nil]

theorem State.applyWrites_text_mems :
    (s.applyWrites (textWrites m text)).mems = (s.applyWrites (seqWrites m.cell 0 text)).mems := by
  rw [State.applyWrites_text]
  cases m <;> rfl

theorem State.readReg_applyWrites_text :
    (s.applyWrites (textWrites m text)).readReg m.len = BitVec.ofNat 32 text.length := by
  rw [State.applyWrites_text]
  cases m <;> rfl

theorem State.applyWrites_text_wrote :
    (s.applyWrites (textWrites m text)).Wrote m.cell text ((s.applyWrites (textWrites m text)).readReg m.len) := by
  refine ⟨s.readReg_applyWrites_text m text, fun k x hx => ?_⟩
  rw [State.applyWrites_text_mems, State.applyWrites_params]
  exact s.read_applyWrites_seq m.cell m.cell_injective text k x hx

theorem State.applyWrites_text_frame :
    s.MemoryFrame (s.applyWrites (textWrites m text)) [(m.cell, text.length)] := by
  intro c hc
  rw [State.applyWrites_text_mems]
  exact s.read_applyWrites_seq_other m.cell text c (hc _ (List.mem_singleton_self _))

end

theorem loadCtWrites_inRange {p : Params} {k : Nat} (hk : k < p.ctDepth) (sym : Word) (code : List Word) :
    WritesInRange p (loadCtWrites k sym code) := by
  simp only [WritesInRange, loadCtWrites, List.forall_mem_cons]
  exact ⟨hk, hk, hk, by simp⟩

/-- The row LOADCT leaves in CT. -/
def loadedRow (p : Params) (k : Nat) (sym : Word) (code : List Word) : TableRow :=
  ⟨storedBits p (.ctSym k) sym, BitVec.ofNat 32 code.length, codeBitsOf code⟩

theorem loadedRow_code (p : Params) (k : Nat) (sym : Word) {code : List Word} (hlen : code.length ≤ 32)
    (hc : ∀ x ∈ code, x = chZero ∨ x = chOne) : (loadedRow p k sym code).code = code := by
  have hl : (BitVec.ofNat 32 code.length).toNat = code.length := by
    rw [BitVec.toNat_ofNat]
    omega
  rw [TableRow.code, loadedRow, hl, codeString_codeBitsOf hc hlen]

/-- CODE_LEN's 6 bits keep a length of at most 32 (R40). -/
theorem storedBits_ctLen (p : Params) (k : Nat) {n : Nat} (h : n ≤ 32) :
    storedBits p (.ctLen k) (BitVec.ofNat 32 n) = BitVec.ofNat 32 n := by
  refine storedBits_of_lt p _ _ ?_
  rw [BitVec.toNat_ofNat]
  show _ < 2 ^ 6
  omega

/-- LOADCT leaves its row. -/
theorem State.read_applyWrites_loadCt (s : State) (k : Nat) (sym : Word) {code : List Word} (hlen : code.length ≤ 32) :
    (s.applyWrites (loadCtWrites k sym code)).mems.read (.ctSym k) = some (loadedRow s.params k sym code).sym ∧
    (s.applyWrites (loadCtWrites k sym code)).mems.read (.ctLen k) = some (loadedRow s.params k sym code).len ∧
    (s.applyWrites (loadCtWrites k sym code)).mems.read (.ctBits k) = some (loadedRow s.params k sym code).bits := by
  have hwritten : ∀ c v, (Loc.cell c, v) ∈ loadCtWrites k sym code →
      (s.applyWrites (loadCtWrites k sym code)).mems.read c = some (storedBits s.params c v) :=
    fun c v => s.readLoc_applyWrites_written _ (.cell c) v (by simp [loadCtWrites])
  refine ⟨hwritten _ _ (by simp [loadCtWrites]), ?_, ?_⟩
  · rw [hwritten (.ctLen k) (BitVec.ofNat 32 code.length) (by simp [loadCtWrites]), storedBits_ctLen _ _ hlen]
    rfl
  · rw [hwritten (.ctBits k) (codeBitsOf code) (by simp [loadCtWrites]),
      storedBits_of_lt _ (.ctBits k) _ (codeBitsOf code).isLt]
    rfl

theorem State.read_applyWrites_loadCt_other (s : State) (k : Nat) (sym : Word) (code : List Word) {c : Cell}
    (h1 : c ≠ .ctSym k) (h2 : c ≠ .ctLen k) (h3 : c ≠ .ctBits k) :
    (s.applyWrites (loadCtWrites k sym code)).mems.read c = s.mems.read c :=
  s.readLoc_applyWrites_other (loadCtWrites k sym code) (.cell c) (by simp [loadCtWrites, h1, h2, h3])

/-- Settles O57: both host programs are runs of write statements. -/
theorem loadsPlacesTheText : Obligations.LoadsPlacesTheText := by
  intro s rest hp hi
  refine ⟨fun m text hfit hturns => ?_, fun k sym code hk _ hlen hcode hturns => ?_⟩
  · rw [loads_eq] at hturns
    have hrun := run_stmts hp hi (textWrites_inRange hfit) hturns
    rw [show (textWrites m text).length = text.length + 1 by simp [textWrites, seqWrites_length]] at hrun
    refine ⟨_, hrun, State.applyWrites_turns _ _, (State.applyWrites_phase _ _).trans hi,
      State.applyWrites_text_wrote _ _ _, State.applyWrites_text_frame { s with turns := rest } _ _, ?_⟩
    rw [State.applyWrites_text]
    cases m <;> simp [TextMem.lenLoc]
  · rw [loadCt_eq] at hturns
    have hrun := run_stmts hp hi (loadCtWrites_inRange hk sym code) hturns
    obtain ⟨hsym, hclen, hbits⟩ := State.read_applyWrites_loadCt { s with turns := rest } k sym hlen
    exact ⟨_, loadedRow s.params k sym code, hrun, State.applyWrites_turns _ _, (State.applyWrites_phase _ _).trans hi,
      rfl, hsym, hclen, hbits, loadedRow_code _ _ _ hlen hcode,
      fun c => State.read_applyWrites_loadCt_other { s with turns := rest } k sym code⟩

end Sys2Proof.Machine

namespace Sys2Proof.Machine

/-! ### A command depends on its operands alone (spec/30_encoding.md R84) -/

theorem bind_congr_of_ok {α β : Type} {x : Except Stop α} {f g : α → Except Stop β} (h : ∀ a, x = .ok a → f a = g a) :
    (x >>= f) = (x >>= g) := by
  cases x with
  | error e => rfl
  | ok a => exact h a rfl

theorem Snapshot.cell_congr {snap snap' : Snapshot} {c : Cell} (h : snap.mems.read c = snap'.mems.read c) :
    snap.cell c = snap'.cell c := by
  rw [Snapshot.cell, Snapshot.cell, h]

theorem Snapshot.seqFrom_congr {snap snap' : Snapshot} {mk : Nat → Cell} {k n : Nat}
    (h : ∀ j < n, snap.mems.read (mk (k + j)) = snap'.mems.read (mk (k + j))) :
    snap.seqFrom mk k n = snap'.seqFrom mk k n := by
  induction n generalizing k with
  | zero => rfl
  | succ n ih =>
    have hhead : snap.cell (mk k) = snap'.cell (mk k) := Snapshot.cell_congr (h 0 (by omega))
    have hrest : snap.seqFrom mk (k + 1) n = snap'.seqFrom mk (k + 1) n := by
      refine ih fun j hj => ?_
      rw [Nat.add_assoc, Nat.add_comm 1 j]
      exact h (j + 1) (by omega)
    rw [Snapshot.seqFrom, Snapshot.seqFrom, hhead, hrest]

theorem Snapshot.seq_congr {snap snap' : Snapshot} {mk : Nat → Cell} {n : Nat}
    (h : ∀ k < n, snap.mems.read (mk k) = snap'.mems.read (mk k)) : snap.seq mk n = snap'.seq mk n :=
  Snapshot.seqFrom_congr (by simpa using h)

/-- Two snapshots that hold the same SYM, CODE_LEN and CODE_BITS in the first `n` entries of CT. -/
def Snapshot.TableAlike (snap snap' : Snapshot) (n : Nat) : Prop :=
  ∀ c, TableEntryField n c → snap.mems.read c = snap'.mems.read c

section
variable {snap snap' : Snapshot} {n : Nat} (h : snap.TableAlike snap' n)
include h

theorem Snapshot.TableAlike.sym {k : Nat} (hk : k < n) : snap.sym k = snap'.sym k :=
  Snapshot.cell_congr (h _ ⟨k, hk, .inl rfl⟩)

theorem Snapshot.TableAlike.codeLen {k : Nat} (hk : k < n) : snap.codeLen k = snap'.codeLen k := by
  rw [Snapshot.codeLen, Snapshot.codeLen, Snapshot.cell_congr (h _ ⟨k, hk, .inr (.inl rfl)⟩)]

theorem Snapshot.TableAlike.codeStr {k : Nat} (hk : k < n) : snap.codeStr k = snap'.codeStr k := by
  rw [Snapshot.codeStr, Snapshot.codeStr, h.codeLen hk, Snapshot.cell_congr (h _ ⟨k, hk, .inr (.inr rfl)⟩)]

theorem Snapshot.TableAlike.clash {j k : Nat} (hj : j < n) (hk : k < n) : snap.clash j k = snap'.clash j k := by
  rw [Snapshot.clash, Snapshot.clash, h.sym hj, h.sym hk, h.codeStr hj, h.codeStr hk]

theorem Snapshot.TableAlike.checkPairs {k : Nat} (hk : k < n) {l : List Nat} (hl : ∀ j ∈ l, j < n) :
    snap.checkPairs k l = snap'.checkPairs k l := by
  induction l with
  | nil => rfl
  | cons j l ih =>
    obtain ⟨hj, hl⟩ := List.forall_mem_cons.1 hl
    rw [Snapshot.checkPairs, Snapshot.checkPairs, h.clash hj hk, ih hl]

theorem Snapshot.TableAlike.checkEntry {k : Nat} (hk : k < n) : snap.checkEntry k = snap'.checkEntry k := by
  have hlow : ∀ j ∈ List.range k, j < n := fun j hj => (List.mem_range.1 hj).trans hk
  rw [Snapshot.checkEntry, Snapshot.checkEntry, h.codeLen hk, h.checkPairs hk hlow]

theorem Snapshot.TableAlike.checkEntries {l : List Nat} (hl : ∀ j ∈ l, j < n) :
    snap.checkEntries l = snap'.checkEntries l := by
  induction l with
  | nil => rfl
  | cons k l ih =>
    obtain ⟨hk, hl⟩ := List.forall_mem_cons.1 hl
    rw [Snapshot.checkEntries, Snapshot.checkEntries, h.checkEntry hk, ih hl]

theorem Snapshot.TableAlike.matching (x : Word) {l : List Nat} (hl : ∀ j ∈ l, j < n) :
    snap.matching x l = snap'.matching x l := by
  induction l with
  | nil => rfl
  | cons k l ih =>
    obtain ⟨hk, hl⟩ := List.forall_mem_cons.1 hl
    rw [Snapshot.matching, Snapshot.matching, h.sym hk, ih hl]

theorem Snapshot.TableAlike.encodeFrom (q : Nat) (t : List Word) :
    snap.encodeFrom n q t = snap'.encodeFrom n q t := by
  induction t generalizing q with
  | nil => rfl
  | cons x t ih =>
    rw [Snapshot.encodeFrom, Snapshot.encodeFrom, h.matching x fun _ => List.mem_range.1]
    refine bind_congr_of_ok fun ks hks => ?_
    cases ks with
    | nil => rfl
    | cons k ks =>
      have hk : k < n := List.mem_range.1 (snap'.matching_mem x _ _ hks k List.mem_cons_self)
      simp only [h.codeStr hk, ih]

theorem Snapshot.TableAlike.findCode (cand : List Word) {l : List Nat} (hl : ∀ j ∈ l, j < n) :
    snap.findCode cand l = snap'.findCode cand l := by
  induction l with
  | nil => rfl
  | cons k l ih =>
    obtain ⟨hk, hl⟩ := List.forall_mem_cons.1 hl
    rw [Snapshot.findCode, Snapshot.findCode, h.codeStr hk, ih hl]

theorem Snapshot.TableAlike.scanBits (cand b : List Word) : snap.scanBits n cand b = snap'.scanBits n cand b := by
  induction b generalizing cand with
  | nil => rfl
  | cons c b ih =>
    rw [Snapshot.scanBits, Snapshot.scanBits, h.findCode _ fun _ => List.mem_range.1]
    refine bind_congr_of_ok fun hit hhit => ?_
    cases hit with
    | none => exact ih _
    | some k =>
      have hk : k < n := List.mem_range.1 (snap'.findCode_mem _ _ _ hhit)
      simp only [h.sym hk, ih]

end

theorem Snapshot.TableAlike.tableOk {snap snap' : Snapshot} (h : snap.TableAlike snap' snap.regs.alphaN.toNat)
    (hn : snap.regs.alphaN = snap'.regs.alphaN) (p : Params) : snap.tableOk p = snap'.tableOk p := by
  rw [Snapshot.tableOk, Snapshot.tableOk, h.checkEntries fun _ => List.mem_range.1, hn]

/-- A command's result is a function of the registers and memory words R84 lists as read. -/
theorem resultOf_congr {i : Instr} {snap snap' : Snapshot} (p : Params) (hregs : CommandRegsAlike snap.regs snap'.regs i)
    (hmem : ∀ c, CommandReads snap.regs i c → snap.mems.read c = snap'.mems.read c) :
    resultOf i p snap = resultOf i p snap' := by
  cases i with
  | build =>
    have hlen : snap.regs.txtLen = snap'.regs.txtLen := hregs
    have hseq := Snapshot.seq_congr fun k hk => hmem (.txt k) ⟨k, hk, rfl⟩
    simp only [resultOf, fBuild, hseq, ← hlen]
  | sfEncode =>
    obtain ⟨hlen, hn⟩ := hregs
    have hseq := Snapshot.seq_congr fun k hk => hmem (.txt k) (.inl ⟨k, hk, rfl⟩)
    have htable : snap.TableAlike snap' snap.regs.alphaN.toNat := fun c hc => hmem c (.inr hc)
    simp only [resultOf, fSfEncode, hseq, htable.tableOk hn, htable.encodeFrom, ← hlen, ← hn]
  | sfDecode =>
    obtain ⟨hlen, hn⟩ := hregs
    have hseq := Snapshot.seq_congr fun k hk => hmem (.bstr k) (.inl ⟨k, hk, rfl⟩)
    have htable : snap.TableAlike snap' snap.regs.alphaN.toNat := fun c hc => hmem c (.inr hc)
    simp only [resultOf, fSfDecode, hseq, htable.tableOk hn, htable.scanBits, ← hlen, ← hn]
  | lzEncode =>
    obtain ⟨hlen, hw⟩ := hregs
    have hseq := Snapshot.seq_congr fun k hk => hmem (.bstr k) ⟨k, hk, rfl⟩
    simp only [resultOf, fLzEncode, hseq, ← hlen, ← hw]
  | lzDecode =>
    have hlen : snap.regs.tokLen = snap'.regs.tokLen := hregs
    have hseq := Snapshot.seq_congr fun k hk => hmem (.tok k) ⟨k, hk, rfl⟩
    simp only [resultOf, fLzDecode, hseq, ← hlen]
  | compress =>
    obtain ⟨hlen, hw⟩ := hregs
    have hseq := Snapshot.seq_congr fun k hk => hmem (.txt k) ⟨k, hk, rfl⟩
    simp only [resultOf, fCompress, hseq, ← hlen, ← hw]
  | decompress =>
    obtain ⟨hlen, hn⟩ := hregs
    have hseq := Snapshot.seq_congr fun k hk => hmem (.tok k) (.inl ⟨k, hk, rfl⟩)
    have htable : snap.TableAlike snap' snap.regs.alphaN.toNat := fun c hc => hmem c (.inr hc)
    simp only [resultOf, fDecompress, hseq, htable.tableOk hn, htable.scanBits, ← hlen, ← hn]

/-! A commit depends on the phase in nothing. -/

section
variable (s : State) (phase : Phase)

theorem State.applyWrites_withPhase (ws : List (Loc × Word)) :
    State.applyWrites { s with phase := phase } ws = { s.applyWrites ws with phase := phase } := by
  induction ws generalizing s with
  | nil => rfl
  | cons w ws ih =>
    have hw : State.writeLoc { s with phase := phase } w.1 w.2 = { s.writeLoc w.1 w.2 with phase := phase } := by
      cases w.1 <;> rfl
    rw [State.applyWrites_cons, State.applyWrites_cons, hw, ih]

theorem State.complete_withPhase (r : Except Stop Outputs) : State.complete { s with phase := phase } r = s.complete r := by
  match r with
  | .ok out => simp only [State.complete, State.commitOk, State.applyWrites_withPhase]
  | .error (.raised code info) => rfl
  | .error (.unwritten c) => rfl

end

/-- Settles O38: the two snapshots give the same result, and its commit does not look at the phase. -/
theorem commandsReadOnlyTheirOperands : Obligations.CommandsReadOnlyTheirOperands := by
  intro i s v v' snap snap' hregs hmem
  calc exec i { s with phase := .busy v snap }
      = s.complete (resultOf i s.params snap) := (exec_eq i _).trans (s.complete_withPhase (.busy v snap) _)
    _ = s.complete (resultOf i s.params snap') := by rw [resultOf_congr s.params hregs hmem]
    _ = exec i { s with phase := .busy v' snap' } := ((exec_eq i _).trans (s.complete_withPhase (.busy v' snap') _)).symm

end Sys2Proof.Machine

namespace Sys2Proof.Machine

/-! ### A command writes its outputs alone (spec/30_encoding.md R84) -/

/-- Every memory word a list of writes names is one of `P`. -/
def WritesOnly (P : Cell → Prop) (ws : List (Loc × Word)) : Prop := ∀ c v, (Loc.cell c, v) ∈ ws → P c

section
variable {P : Cell → Prop}

theorem WritesOnly.append {us ws : List (Loc × Word)} (hu : WritesOnly P us) (hw : WritesOnly P ws) :
    WritesOnly P (us ++ ws) :=
  fun c v h => (List.mem_append.1 h).elim (hu c v) (hw c v)

/-- A register write names no memory word. -/
theorem WritesOnly.register {l : Loc} (h : ∀ c, l ≠ .cell c) (v : Word) : WritesOnly P [(l, v)] := by
  intro c u hm
  cases List.mem_singleton.1 hm
  exact absurd rfl (h c)

theorem WritesOnly.seq {mk : Nat → Cell} {xs : List Word} (h : ∀ k < xs.length, P (mk k)) :
    WritesOnly P (seqWrites mk 0 xs) := by
  intro c v hm
  obtain ⟨j, hj, e⟩ := (mem_seqWrites mk 0 xs _).1 hm
  rw [Nat.zero_add] at e
  cases e
  exact h j hj

theorem WritesOnly.table {tbl : List TableEntry}
    (h : ∀ k < tbl.length, P (.ctSym k) ∧ P (.ctFreq k) ∧ P (.ctLen k) ∧ P (.ctBits k)) :
    WritesOnly P (tableWrites 0 tbl) := by
  intro c v hm
  obtain ⟨j, hj, e⟩ := (mem_tableWrites 0 tbl _).1 hm
  obtain ⟨hsym, hfreq, hlen, hbits⟩ := h j hj
  rw [Nat.zero_add] at e
  rcases e with e | e | e | e <;> cases e <;> assumption

theorem WritesOnly.read_commitOk {out : Outputs} (h : WritesOnly P out.writes) (s : State) {c : Cell} (hc : ¬ P c) :
    (s.commitOk out).mems.read c = s.mems.read c :=
  s.readLoc_applyWrites_other out.writes (.cell c) fun v hm => hc (h c v hm)

end

/-! The output registers of a commit are those its writes leave. -/

section
variable (s : State) (out : Outputs)

@[simp] theorem State.commitOk_txtLen : (s.commitOk out).regs.txtLen = (s.applyWrites out.writes).regs.txtLen := rfl
@[simp] theorem State.commitOk_bstrLen : (s.commitOk out).regs.bstrLen = (s.applyWrites out.writes).regs.bstrLen := rfl
@[simp] theorem State.commitOk_tokLen : (s.commitOk out).regs.tokLen = (s.applyWrites out.writes).regs.tokLen := rfl
@[simp] theorem State.commitOk_alphaN : (s.commitOk out).regs.alphaN = (s.applyWrites out.writes).regs.alphaN := rfl

end

/-- What a success of the command `i` commits: it keeps the registers R84 does not list, and writes only the entries below
the output lengths it commits. -/
structure Outputs.Listed (s : State) (i : Instr) (out : Outputs) : Prop where
  regs : OutputRegsKept s.regs (s.commitOk out).regs i
  mems : WritesOnly (CommandWrites (s.commitOk out).regs i) out.writes

/-- A length within R6's bounds on the depths is what its length register reads once it is committed. -/
theorem toNat_of_committed {r : Word} {n depth : Nat} (hr : r = BitVec.ofNat 32 n) (hn : n ≤ depth)
    (hd : depth ≤ 262144) : r.toNat = n := by
  rw [hr, BitVec.toNat_ofNat]
  omega

/-- What M_LEN reads. -/
def TextMem.lenOf (r : Regs) : TextMem → Word
  | .txt => r.txtLen
  | .bstr => r.bstrLen
  | .tok => r.tokLen

theorem TextMem.depth_le {p : Params} (hp : p.wf = true) (m : TextMem) : (m.cell 0).depth p ≤ 262144 := by
  have hb := Params.wf_bounds hp
  cases m <;> simp only [TextMem.cell, Cell.depth] <;> omega

theorem WritesOnly.text {P : Cell → Prop} {r : Regs} {m : TextMem} {xs : List Word}
    (hlen : (m.lenOf r).toNat = xs.length) (h : ∀ k < (m.lenOf r).toNat, P (m.cell k)) :
    WritesOnly P (textWrites m xs) :=
  .append (.seq (hlen ▸ h)) (.register (by cases m <;> simp [TextMem.lenLoc]) _)

/-- A command whose one output is a text. -/
theorem Outputs.Listed.of_text {p : Params} (hp : p.wf = true) {s : State} {i : Instr} {out : Outputs} (m : TextMem)
    {xs : List Word} (hw : out.writes = textWrites m xs) (hfit : xs.length ≤ (m.cell 0).depth p)
    (hregs : OutputRegsKept s.regs (s.commitOk out).regs i)
    (hmem : ∀ r, ∀ k < (m.lenOf r).toNat, CommandWrites r i (m.cell k)) : out.Listed s i := by
  have hlen : m.lenOf (s.commitOk out).regs = BitVec.ofNat 32 xs.length := by
    cases m <;> simp [TextMem.lenOf, hw, State.applyWrites_text, TextMem.lenLoc]
  exact ⟨hregs, hw ▸ .text (toNat_of_committed hlen hfit (m.depth_le hp)) (hmem _)⟩

theorem tableWrites_fields {r : Regs} {k : Nat} (hk : k < r.alphaN.toNat) :
    TableWrites r (.ctSym k) ∧ TableWrites r (.ctFreq k) ∧ TableWrites r (.ctLen k) ∧ TableWrites r (.ctBits k) := by
  simp [TableWrites, hk]

section
variable {p : Params} {snap : Snapshot} {out : Outputs} (hp : p.wf = true) (s : State)
include hp

theorem fBuild_listed (h : fBuild p snap = .ok out) : out.Listed s .build := by
  obtain ⟨_, _, t, _, hct, hout⟩ := (fBuild_eq_ok _ _ _).1 h
  have hb := Params.wf_bounds hp
  have hw := congrArg Outputs.writes hout
  have halpha : (s.commitOk out).regs.alphaN.toNat = (tally t).length :=
    toNat_of_committed (by simp [hw, State.applyWrites_append]) hct (by omega)
  refine ⟨by simp [OutputRegsKept, hw, State.applyWrites_append], hw ▸ ?_⟩
  rw [← buildTable_length] at halpha
  exact .append (.table fun k hk => tableWrites_fields (halpha.symm ▸ hk)) (.register (by simp) _)

theorem fSfEncode_listed (h : fSfEncode p snap = .ok out) : out.Listed s .sfEncode := by
  obtain ⟨_, _, t, _, b, _, hfit, rfl⟩ := (fSfEncode_eq_ok _ _ _).1 h
  exact .of_text hp .bstr rfl hfit (by simp [OutputRegsKept, State.applyWrites_append]) fun _ k hk => ⟨k, hk, rfl⟩

theorem fSfDecode_listed (h : fSfDecode p snap = .ok out) : out.Listed s .sfDecode := by
  obtain ⟨_, _, b, _, r, _, hfit, rfl⟩ := (fSfDecode_eq_ok _ _ _).1 h
  exact .of_text hp .txt rfl hfit (by simp [OutputRegsKept, State.applyWrites_append]) fun _ k hk => ⟨k, hk, rfl⟩

theorem fLzEncode_listed (h : fLzEncode p snap = .ok out) : out.Listed s .lzEncode := by
  obtain ⟨_, b, _, hfit, rfl⟩ := (fLzEncode_eq_ok _ _ _).1 h
  exact .of_text hp .tok rfl hfit (by simp [OutputRegsKept, State.applyWrites_append]) fun _ k hk => ⟨k, hk, rfl⟩

theorem fLzDecode_listed (h : fLzDecode p snap = .ok out) : out.Listed s .lzDecode := by
  obtain ⟨_, t, _, hfit, rfl⟩ := (fLzDecode_eq_ok _ _ _).1 h
  exact .of_text hp .bstr rfl hfit (by simp [OutputRegsKept, State.applyWrites_append]) fun _ k hk => ⟨k, hk, rfl⟩

theorem fCompress_listed (h : fCompress p snap = .ok out) : out.Listed s .compress := by
  obtain ⟨_, _, t, _, hct, hbfit, htfit, hout⟩ := (fCompress_eq_ok _ _ _).1 h
  have hb := Params.wf_bounds hp
  have hw := congrArg Outputs.writes hout
  rw [compressWrites] at hw
  have halpha : (s.commitOk out).regs.alphaN.toNat = (tally t).length :=
    toNat_of_committed (by simp [hw, State.applyWrites_append]) hct (by omega)
  have hblen : (s.commitOk out).regs.bstrLen.toNat = (encodeWith (buildTable t) t).length :=
    toNat_of_committed (by simp [hw, State.applyWrites_append]) hbfit (by omega)
  have htlen : (s.commitOk out).regs.tokLen.toNat = (lzText (encodeWith (buildTable t) t) snap.regs.window.toNat).length :=
    toNat_of_committed (by simp [hw, State.applyWrites_append]) htfit (by omega)
  rw [← buildTable_length] at halpha
  refine ⟨by simp [OutputRegsKept, hw, State.applyWrites_append], hw ▸ .append (.append ?table ?bstr) ?tok⟩
  case table =>
    refine .append (.table fun k hk => ?_) (.register (by simp) _)
    obtain ⟨hsym, hfreq, hclen, hbits⟩ := tableWrites_fields (halpha.symm ▸ hk)
    exact ⟨.inl hsym, .inl hfreq, .inl hclen, .inl hbits⟩
  case bstr => exact .text (m := .bstr) hblen fun k hk => .inr (.inl ⟨k, hk, rfl⟩)
  case tok => exact .text (m := .tok) htlen fun k hk => .inr (.inr ⟨k, hk, rfl⟩)

theorem fDecompress_listed (h : fDecompress p snap = .ok out) : out.Listed s .decompress := by
  obtain ⟨_, _, t, _, hbfit, r, _, htfit, hout⟩ := (fDecompress_eq_ok _ _ _).1 h
  have hb := Params.wf_bounds hp
  have hw := congrArg Outputs.writes hout
  have hblen : (s.commitOk out).regs.bstrLen.toNat = (lzDecode p.bstrDepth t).1.length :=
    toNat_of_committed (by simp [hw, State.applyWrites_append]) hbfit (by omega)
  have htlen : (s.commitOk out).regs.txtLen.toNat = r.1.length :=
    toNat_of_committed (by simp [hw, State.applyWrites_append]) htfit (by omega)
  refine ⟨by simp [OutputRegsKept, hw, State.applyWrites_append], hw ▸ .append ?bstr ?txt⟩
  case bstr => exact .text (m := .bstr) hblen fun k hk => .inl ⟨k, hk, rfl⟩
  case txt => exact .text (m := .txt) htlen fun k hk => .inr ⟨k, hk, rfl⟩

/-- Every command's success commits the outputs R84 lists for it, and no others. -/
theorem resultOf_listed {i : Instr} (h : resultOf i p snap = .ok out) : out.Listed s i := by
  cases i with
  | build => exact fBuild_listed hp s h
  | sfEncode => exact fSfEncode_listed hp s h
  | sfDecode => exact fSfDecode_listed hp s h
  | lzEncode => exact fLzEncode_listed hp s h
  | lzDecode => exact fLzDecode_listed hp s h
  | compress => exact fCompress_listed hp s h
  | decompress => exact fDecompress_listed hp s h

end

theorem not_commandWrites_of_commandReads {r r' : Regs} {i : Instr} {c : Cell} (h : CommandReads r i c) :
    ¬ CommandWrites r' i c := by
  have htable : TableReads r c → (∀ k, c ≠ .txt k) ∧ ∀ k, c ≠ .bstr k := by
    rintro ⟨k, _, rfl | rfl | rfl⟩ <;> simp
  cases i with
  | build => obtain ⟨k, _, rfl⟩ := h; simp [CommandWrites, TableWrites]
  | sfEncode =>
    rcases h with ⟨k, _, rfl⟩ | h
    · simp [CommandWrites]
    · simp [CommandWrites, htable h]
  | sfDecode =>
    rcases h with ⟨k, _, rfl⟩ | h
    · simp [CommandWrites]
    · simp [CommandWrites, htable h]
  | lzEncode => obtain ⟨k, _, rfl⟩ := h; simp [CommandWrites]
  | lzDecode => obtain ⟨k, _, rfl⟩ := h; simp [CommandWrites]
  | compress => obtain ⟨k, _, rfl⟩ := h; simp [CommandWrites, TableWrites]
  | decompress =>
    rcases h with ⟨k, _, rfl⟩ | h
    · simp [CommandWrites]
    · simp [CommandWrites, htable h]

theorem State.commitFail_frame (s : State) (code : ErrCode) (info : Word) : s.CommitFrame (s.commitFail code info) := by
  constructor <;> simp

theorem OutputRegsKept.commitFail (s : State) (code : ErrCode) (info : Word) (i : Instr) :
    OutputRegsKept s.regs (s.commitFail code info).regs i := by
  cases i <;> simp [OutputRegsKept]

/-- Settles O39: a success commits the listed outputs, which are no inputs; a failure commits none. -/
theorem commandsWriteOnlyTheirOutputs : Obligations.CommandsWriteOnlyTheirOutputs := by
  intro i s t hp h
  rcases (exec_eq_next i s t).1 h with ⟨out, hout, rfl⟩ | ⟨code, info, _, rfl⟩
  · obtain ⟨hregs, hmems⟩ := resultOf_listed hp s hout
    have hkept : ∀ c, ¬ CommandWrites (s.commitOk out).regs i c → (s.commitOk out).mems.read c = s.mems.read c :=
      fun _ => hmems.read_commitOk s
    exact ⟨s.commitOk_frame out, hregs, hkept, fun c hc => hkept c (not_commandWrites_of_commandReads hc)⟩
  · exact ⟨s.commitFail_frame code info, .commitFail s code info i, fun _ _ => rfl, fun _ _ => rfl⟩

end Sys2Proof.Machine

namespace Sys2Proof.Machine

/-! ### How a command ends (spec/40_host_interface.md R119, R120, R123) -/

/-- A failing commit changes nothing but the completion record and the phase (R120). -/
theorem State.commitFail_nothingCommitted (s : State) (code : ErrCode) (info : Word) :
    s.NothingCommitted (s.commitFail code info) :=
  ⟨s.commitFail_frame code info, rfl, rfl, rfl, rfl, rfl⟩

/-- A command that answers a next state commits a success, or an error that is not 0 and commits nothing. -/
theorem exec_succeeds_or_fails {i : Instr} {s t : State} (h : exec i s = .next t) :
    (∃ tail trunc, t.Succeeded tail trunc) ∨
    ∃ code info, code ≠ .ok ∧ t.Failed code info ∧ s.NothingCommitted t := by
  rcases (exec_eq_next i s t).1 h with ⟨out, _, rfl⟩ | ⟨code, info, hraise, rfl⟩
  · exact .inl ⟨out.tail, out.trunc, s.commitOk_succeeded out⟩
  · exact .inr ⟨code, info, resultOf_raises_ne_ok hraise, s.commitFail_failed code info,
      s.commitFail_nothingCommitted code info⟩

/-- Settles O36: written inputs stop no command, and whatever completes commits a success or an error. -/
theorem commandsCompleteOnWrittenInputs : Obligations.CommandsCompleteOnWrittenInputs := by
  intro i s hin
  obtain ⟨t, ht⟩ := exec_completes hin
  refine ⟨t, ht, (exec_succeeds_or_fails ht).imp id ?_⟩
  rintro ⟨code, info, hcode, hfailed, hnothing⟩
  exact ⟨code, info, hcode, t, ht, hfailed, hnothing⟩

/-- Settles O40: the error code read after the commit says which of the two commits it was. -/
theorem failingCommandCommitsNothing : Obligations.FailingCommandCommitsNothing := by
  intro i s t h
  obtain ⟨hidle, hdone⟩ := exec_ends h
  rcases exec_succeeds_or_fails h with ⟨_, _, hok⟩ | ⟨code, info, hcode, hfailed, hnothing⟩
  · exact ⟨hidle, hdone, fun hne => absurd hok.err hne, fun _ => hok.errInfo⟩
  · have herr := hfailed.err
    have hinfo := hfailed.errInfo
    subst herr hinfo
    exact ⟨hidle, hdone, fun _ => ⟨hfailed, hnothing⟩, fun hok => absurd hok hcode⟩

/-! ### The engine's turn (spec/40_host_interface.md R118; spec/60_exceptions.md R256) -/

section
variable {s : State} {v : Word} {snap : Snapshot}

theorem State.engineStep_of_idle (hi : s.phase = .idle) : s.engineStep = .next s := by
  rw [State.engineStep, hi]

theorem State.engineStep_of_legal (hp : s.phase = .busy v snap) {i : Instr} (hd : decode v = .ok i) :
    s.engineStep = exec i s := by
  simp only [State.engineStep, hp, hd]

theorem State.engineStep_of_illegal (hp : s.phase = .busy v snap) {r : Reject} (hd : decode v = .error r) :
    s.engineStep = .next (s.commitFail .illegalCmd v) := by
  simp only [State.engineStep, hp, hd]
  rfl

end

/-- Settles O4: a listed engine turn and an empty list both take the engine's step, which the phase and the decoder
settle. -/
theorem engineStepRunsTheDecodedCommand : Obligations.EngineStepRunsTheDecodedCommand := by
  intro s rest
  have hlisted : step { s with turns := .engine :: rest } = State.engineStep { s with turns := rest } := rfl
  have hempty : step { s with turns := [] } = State.engineStep { s with turns := [] } := rfl
  rw [hlisted, hempty]
  refine ⟨fun v snap i hp hd => ⟨?_, ?_, s.inputs_of_busy v snap hp⟩, fun v snap r hp hd => ?_, fun hi => ⟨?_, ?_⟩⟩
  · exact State.engineStep_of_legal (s := { s with turns := rest }) hp hd
  · exact State.engineStep_of_legal (s := { s with turns := [] }) hp hd
  · exact State.engineStep_of_illegal (s := { s with turns := rest }) hp hd
  · exact State.engineStep_of_idle (s := { s with turns := rest }) hi
  · exact State.engineStep_of_idle (s := { s with turns := [] }) hi

/-- A table word that decodes is the command word of the instruction it decodes to. -/
theorem eq_encode_of_decodeTableWord {nbits w : Nat} {i : Instr} (h : decodeTableWord nbits w = some i) :
    BitVec.ofNat 32 (w % 2 ^ nbits) = encode i := by
  rw [← decode_eq_ok_iff]
  unfold decodeTableWord at h
  split at h
  · split at h
    · next hd => cases h; exact hd
    · cases h
  · cases h

/-- Settles O5: the word placed is the command word `encode i`, in flight with the engine's turn first. -/
theorem loadedWordRunsNext : Obligations.LoadedWordRunsNext := by
  intro s nbits w i h
  rw [State.withFetchWord, eq_encode_of_decodeTableWord h]
  exact ⟨step_engine (s := s.load (encode i)) rfl (decode_encode i) rfl,
    fun hi => step_cmd (s := { s with turns := (HostStmt.cmd i).turn :: .engine :: s.turns }) hi rfl⟩

/-! ### Register writes, by the phase (spec/40_host_interface.md R112 to R117) -/

section
variable {s : State}

theorem State.configWrite_of_busy (hb : s.busy = true) (r : Regs) : s.configWrite r = s.setAcc := if_pos hb

theorem State.writeCmd_of_busy (hb : s.busy = true) (v : Word) : s.writeCmd v = s.setOvr := if_pos hb

theorem State.writeCmd_of_idle (hi : s.phase = .idle) (v : Word) : s.writeCmd v = s.accept v := by
  rw [State.writeCmd, s.busy_eq_false_iff.2 hi, if_neg Bool.false_ne_true]

variable (s) {v : Word}

theorem State.writeCtrl_of_no_reset (h : v[1] = false) :
    s.writeCtrl v = { s with regs := { s.regs with irqEn := v[0] } } := by
  rw [State.writeCtrl, h, if_neg Bool.false_ne_true]

/-- The new IRQ_EN is reset with the rest of the registers. -/
theorem State.writeCtrl_of_reset (h : v[1] = true) : s.writeCtrl v = s.softReset := by
  rw [State.writeCtrl, h, if_pos rfl]
  rfl

/-- The transaction that writes a register. -/
theorem State.busStep_write_reg (r : Reg) (v : Word) : s.busStep (.write r.offset 0xF v) = .next (s.writeReg r v) :=
  congrArg _ (s.busWrite_reg r v)

/-- The transaction that reads a register. -/
theorem State.busStep_read_reg (r : Reg) : s.busStep (.read r.offset 0xF) = .next (s.answer (s.readReg r)) :=
  s.busRead_reg r

end

/-- Settles O42: on an Idle block the write is the acceptance. -/
theorem cmdWriteWhileIdleIsAccepted : Obligations.CmdWriteWhileIdleIsAccepted := by
  intro s v hi
  refine ⟨s.accept v, (s.busStep_write_reg .cmd v).trans (congrArg _ (State.writeCmd_of_idle hi v)), rfl, ?_, ?_⟩
  · rw [State.readReg_status_getElem_zero]
    rfl
  · exact ⟨rfl, rfl, rfl, rfl, rfl, rfl, rfl, rfl, rfl, rfl, rfl, rfl, rfl⟩

/-- A register offset that R21 does not name has no target, whatever the parameters. -/
theorem targetOf_of_unnamedOffset (p : Params) {a : Addr} (hlow : 0x44 ≤ a.toNat) (hhigh : a.toNat < 0x10000) :
    targetOf p a = .unmapped := by
  have hregion : regionOf a = 0 := by
    rw [(region_offset_eq a).1]
    omega
  have hnone : regAt (offsetOf a) = none := by
    rw [Option.eq_none_iff_forall_ne_some]
    intro r hr
    have hoffset := regAt_some _ _ hr
    have hlt := r.offset_lt
    rw [(region_offset_eq a).2] at hoffset
    omega
  simp only [targetOf, hregion, hnone]

/-- Settles O43: each named address is a register's, and an unnamed offset is a stray access. -/
theorem registerWritesWhileBusyAreDropped : Obligations.RegisterWritesWhileBusyAreDropped := by
  intro s v
  refine ⟨fun hb => ?_, fun hb => ?_, ?_, fun a hlow hhigh => ?_⟩
  · exact (s.busStep_write_reg .cmd v).trans (congrArg _ (State.writeCmd_of_busy hb v))
  · have hacc : ∀ r regs, s.writeReg r v = s.configWrite regs → s.busStep (.write r.offset 0xF v) = .next s.setAcc :=
      fun r regs h => by rw [s.busStep_write_reg, h, State.configWrite_of_busy hb]
    simp only [List.forall_mem_cons, List.not_mem_nil, IsEmpty.forall_iff, implies_true, and_true]
    exact ⟨hacc .window _ rfl, hacc .txtLen _ rfl, hacc .bstrLen _ rfl, hacc .tokLen _ rfl, hacc .alphaN _ rfl⟩
  · simp only [List.forall_mem_cons, List.not_mem_nil, IsEmpty.forall_iff, implies_true, and_true]
    exact ⟨s.busStep_write_reg .id v, s.busStep_write_reg .errInfo v, s.busStep_write_reg .tailBits v,
      s.busStep_write_reg .truncPos v, s.busStep_write_reg .capTxtDepth v, s.busStep_write_reg .capBstrDepth v,
      s.busStep_write_reg .capTokDepth v, s.busStep_write_reg .capCtDepth v, s.busStep_write_reg .capCharW v⟩
  · have hstray : s.Stray a 0xF := .inr (targetOf_of_unnamedOffset s.params hlow hhigh)
    exact congrArg _ (hstray.busWrite v)

/-- WINDOW stores the low 8 bits. -/
theorem State.writeReg_window (s : State) (v : Word) :
    s.writeReg .window v = s.configWrite { s.regs with window := v.extractLsb' 0 8 } := by
  rw [State.writeReg, BitVec.setWidth_eq_extractLsb' (by decide)]

/-- What WINDOW reads back after a write. -/
theorem setWidth_extractLsb'_eq_and (v : Word) : (v.extractLsb' 0 8).setWidth 32 = v &&& 0xFF := by
  have hmask : v.toNat &&& 255 = v.toNat % 256 := Nat.and_two_pow_sub_one_eq_mod v.toNat 8
  apply BitVec.eq_of_toNat_eq
  rw [BitVec.toNat_setWidth, BitVec.extractLsb'_toNat, BitVec.toNat_and, Nat.shiftRight_zero]
  exact (Nat.mod_eq_of_lt (by omega)).trans hmask.symm

/-- Settles O44: on an Idle block each of these writes stores its register, which a read then returns. -/
theorem registerWritesWhileIdleAreStored : Obligations.RegisterWritesWhileIdleAreStored := by
  intro s v hi
  have hstored : ∀ r regs, s.writeReg r v = s.configWrite regs →
      s.busStep (.write r.offset 0xF v) = .next { s with regs := regs } :=
    fun r regs h => by rw [s.busStep_write_reg, h, State.configWrite_of_idle hi]
  have hwindow := hstored .window _ (s.writeReg_window v)
  have htxtLen := hstored .txtLen _ rfl
  refine ⟨hwindow, htxtLen, hstored .bstrLen _ rfl, hstored .tokLen _ rfl, hstored .alphaN _ rfl,
    fun t ht => ?_, fun t ht => ?_⟩
  · cases hwindow.symm.trans ht
    refine (State.busStep_read_reg _ .window).trans ?_
    rw [State.readReg, setWidth_extractLsb'_eq_and]
  · cases htxtLen.symm.trans ht
    exact State.busStep_read_reg _ .txtLen

/-- Settles O55: IRQ_EN alone is written, or everything but the memories and parameters is reset. -/
theorem ctrlWriteAndSoftReset : Obligations.CtrlWriteAndSoftReset := by
  intro s v
  refine ⟨fun h => (s.busStep_write_reg .ctrl v).trans (congrArg _ (s.writeCtrl_of_no_reset h)), fun h => ?_⟩
  exact ⟨s.softReset, (s.busStep_write_reg .ctrl v).trans (congrArg _ (s.writeCtrl_of_reset h)),
    rfl, rfl, rfl, rfl, rfl, rfl, rfl, (by decide : Status.reset.word false = 0), rfl, rfl, rfl, rfl, rfl, rfl, rfl, rfl⟩

/-! ### STATUS writes (spec/40_host_interface.md R116) -/

/-- A write of STATUS clears bits 1, 4 and 5 of the STATUS word where the word written has a 1. -/
theorem Status.word_w1c (st : Status) (b : Bool) (v : Word) :
    (st.w1c v).word b = st.word b &&& ~~~(v &&& 0x32) := by
  refine BitVec.eq_of_getLsbD_eq fun i hi => ?_
  simp only [BitVec.getLsbD_and, BitVec.getLsbD_not, Status.getLsbD_word, hi, decide_true, Bool.true_and]
  match i with
  | 0 | 1 | 2 | 3 | 4 | 5 => simp
  | i + 6 =>
    have hmask : (0x32#32).getLsbD (i + 6) = false :=
      Nat.testBit_lt_two_pow ((show 0x32 < 2 ^ 6 by decide).trans_le (Nat.pow_le_pow_right (by decide) (by omega)))
    simp [hmask]

/-- Settles O45: the write is W1C on STATUS alone. -/
theorem statusWriteClearsOnlyW1cBits : Obligations.StatusWriteClearsOnlyW1cBits := by
  intro s v
  refine ⟨_, s.busStep_write_reg .status v, rfl, Status.word_w1c _ _ v, fun hv => ?_, fun hinv hb => ?_⟩
  · simp [State.irq, State.writeReg, hv]
  · obtain ⟨w, snap, hp⟩ := s.busy_eq_true_iff.1 hb
    rw [State.readReg_status_getElem_one, (hinv.inFlight w snap hp).done]

/-! ### Register reads, and the parameters (spec/10_state.md R34; spec/40_host_interface.md R111) -/

section
variable (s : State) (v : Word)

@[simp] theorem State.writeCtrl_params : (s.writeCtrl v).params = s.params := by
  unfold State.writeCtrl
  split <;> rfl

@[simp] theorem State.writeReg_params (r : Reg) : (s.writeReg r v).params = s.params := by
  rcases s.writeReg_cases r v with e | e | ⟨_, e⟩ | ⟨_, e⟩ | e | ⟨_, e⟩ | ⟨_, e⟩ | ⟨_, l, _, e⟩ <;> rw [e]
  · exact s.writeCtrl_params v
  · rfl
  · rfl
  · rfl
  · exact s.writeLoc_params l v

@[simp] theorem State.busWrite_params (a : Addr) (lanes : BitVec 4) : (s.busWrite a lanes v).params = s.params := by
  rcases s.busWrite_cases a lanes v with e | ⟨r, e⟩ | ⟨_, e⟩ | ⟨_, c, _, e⟩ <;> rw [e]
  · exact s.writeReg_params v r
  · rfl
  · exact s.writeLoc_params (.cell c) v

end

theorem State.busRead_params {s t : State} {a : Addr} {lanes : BitVec 4} (h : s.busRead a lanes = .next t) :
    t.params = s.params := by
  rcases s.busRead_cases t a lanes h with ⟨v, rfl⟩ | ⟨_, rfl⟩
  · rfl
  · rfl

/-- What no commit changes. -/
theorem exec_frame {i : Instr} {s t : State} (h : exec i s = .next t) : s.CommitFrame t := by
  rcases (exec_eq_next i s t).1 h with ⟨out, _, rfl⟩ | ⟨code, info, _, rfl⟩
  · exact s.commitOk_frame out
  · exact s.commitFail_frame code info

/-- No step changes the parameters (R34). -/
theorem step_params {s t : State} (h : step s = .next t) : t.params = s.params := by
  rcases step_cases s t h with ⟨_, rfl⟩ | ⟨_, _, _, _, _, he⟩ | ⟨_, _, _, _, _, rfl⟩ | ⟨_, _, _, hr⟩ |
    ⟨a, lanes, v, _, rfl⟩ | ⟨_, rfl⟩
  · rfl
  · exact (exec_frame he).params
  · rfl
  · exact State.busRead_params (s := s.turnTaken) hr
  · exact s.turnTaken.busWrite_params v a lanes
  · rfl

/-- While a command is in flight STATUS reads BUSY and, of the other fields, at most OVR and ACC. -/
theorem State.InFlightOk.readReg_status {s : State} {v : Word} {snap : Snapshot} (h : s.InFlightOk v snap)
    (hp : s.phase = .busy v snap) : s.readReg .status &&& 0xFFFFFFCF = 1 := by
  rw [State.readReg, s.busy_eq_true_iff.2 ⟨v, snap, hp⟩, Status.word, h.done, h.wTail, h.wTrunc, h.err, h.truncCause]
  generalize s.regs.status.ovr = ovr
  generalize s.regs.status.acc = acc
  revert ovr acc
  decide

/-- Settles O46: a read returns `readReg`, whose value is a field of the state. -/
theorem registerReadsReturnTheRegister : Obligations.RegisterReadsReturnTheRegister := by
  intro s
  refine ⟨s.busStep_read_reg, ⟨rfl, ?_, (BitVec.ofNat_toNat 32 s.regs.window).symm, rfl, rfl, rfl, rfl, rfl, rfl, rfl, rfl⟩,
    ⟨rfl, rfl, rfl, rfl, rfl, fun _ => step_params⟩, fun v snap hinv hp => ?_⟩
  · rw [State.readReg]
    cases s.regs.irqEn <;> rfl
  · have h := hinv.inFlight v snap hp
    exact ⟨h.readReg_status hp, h.errInfo, h.tailBits, h.truncPos, h.txtLen.symm, h.bstrLen.symm, h.tokLen.symm,
      h.alphaN.symm⟩

/-! ### Host traffic while a command is in flight (spec/40_host_interface.md R122; spec/70_reset_and_hazards.md R277,
R278) -/

/-- What host transactions other than a soft reset leave of a state in which a command is in flight: everything but
IRQ_EN, STATUS, and the model's record of reads. -/
structure State.Undisturbed (s u : State) : Prop where
  params : u.params = s.params
  mems : u.mems = s.mems
  phase : u.phase = s.phase
  turns : u.turns = s.turns
  regs : u.regs = { s.regs with irqEn := u.regs.irqEn, status := u.regs.status }

/-- A transaction that is no soft reset (R117). -/
def BusTxn.NoReset (txn : BusTxn) : Prop := ∀ w : Word, w[1] = true → txn ≠ .write 0x000004 0xF w

theorem State.Undisturbed.refl (s : State) : s.Undisturbed s := ⟨rfl, rfl, rfl, rfl, rfl⟩

section
variable {s t u : State}

theorem State.Undisturbed.trans (h : s.Undisturbed t) (h' : t.Undisturbed u) : s.Undisturbed u where
  params := h'.params.trans h.params
  mems := h'.mems.trans h.mems
  phase := h'.phase.trans h.phase
  turns := h'.turns.trans h.turns
  regs := by rw [h'.regs, h.regs]

theorem State.Undisturbed.withTurns (h : s.Undisturbed u) (turns : List Turn) :
    State.Undisturbed { s with turns := turns } { u with turns := turns } :=
  ⟨h.params, h.mems, h.phase, rfl, h.regs⟩

/-- CMD and the registers a command reads or writes. -/
theorem State.Undisturbed.inputRegs (h : s.Undisturbed u) :
    u.regs.cmd = s.regs.cmd ∧ u.regs.window = s.regs.window ∧ u.regs.txtLen = s.regs.txtLen ∧
      u.regs.bstrLen = s.regs.bstrLen ∧ u.regs.tokLen = s.regs.tokLen ∧ u.regs.alphaN = s.regs.alphaN := by
  rw [h.regs]
  exact ⟨rfl, rfl, rfl, rfl, rfl, rfl⟩

/-! One transaction. -/

/-- While Busy a register write that is no soft reset sets IRQ_EN or a flag of STATUS, or is dropped. -/
theorem State.Undisturbed.writeReg (hb : s.busy = true) {r : Reg} {v : Word} (h : r = .ctrl → v[1] = false) :
    s.Undisturbed (s.writeReg r v) := by
  cases r with
  | ctrl =>
    rw [State.writeReg, s.writeCtrl_of_no_reset (h rfl)]
    exact ⟨rfl, rfl, rfl, rfl, rfl⟩
  | cmd =>
    rw [State.writeReg, State.writeCmd_of_busy hb]
    exact ⟨rfl, rfl, rfl, rfl, rfl⟩
  | status => exact ⟨rfl, rfl, rfl, rfl, rfl⟩
  | window | txtLen | bstrLen | tokLen | alphaN =>
    rw [State.writeReg, State.configWrite_of_busy hb]
    exact ⟨rfl, rfl, rfl, rfl, rfl⟩
  | _ => exact .refl s

theorem State.Undisturbed.busWrite (hb : s.busy = true) {a : Addr} {lanes : BitVec 4} {v : Word}
    (h : (BusTxn.write a lanes v).NoReset) : s.Undisturbed (s.busWrite a lanes v) := by
  rcases s.busWrite_target_cases a lanes v with e | ⟨rfl, r, rfl, e⟩ | ⟨_, c, _, ⟨_, e⟩ | ⟨hi, _⟩⟩
  · exact e.symm ▸ .refl s
  · rw [e]
    refine .writeReg hb ?_
    rintro rfl
    exact Bool.eq_false_iff.2 fun hv => h v hv rfl
  · exact e.symm ▸ ⟨rfl, rfl, rfl, rfl, rfl⟩
  · simp [s.busy_eq_false_iff.2 hi] at hb

theorem State.Undisturbed.busRead {a : Addr} {lanes : BitVec 4} (h : s.busRead a lanes = .next u) :
    s.Undisturbed u := by
  rcases s.busRead_cases u a lanes h with ⟨v, rfl⟩ | ⟨_, rfl⟩
  · exact ⟨rfl, rfl, rfl, rfl, rfl⟩
  · exact ⟨rfl, rfl, rfl, rfl, rfl⟩

/-- A read while Busy does not look at the memories, so it cannot fault (spec/20_memory.md R74). -/
theorem State.busRead_answers_of_busy (hb : s.busy = true) (a : Addr) (lanes : BitVec 4) :
    ∃ u, s.busRead a lanes = .next u := by
  simp only [State.busRead, if_pos hb]
  split
  · split <;> exact ⟨_, rfl⟩
  · exact ⟨_, rfl⟩

theorem State.Undisturbed.busStep (hb : s.busy = true) {txn : BusTxn} (h : txn.NoReset) :
    ∃ u, s.busStep txn = .next u ∧ s.Undisturbed u := by
  cases txn with
  | read a lanes =>
    obtain ⟨u, hu⟩ := State.busRead_answers_of_busy hb a lanes
    exact ⟨u, hu, .busRead hu⟩
  | write a lanes v => exact ⟨_, rfl, .busWrite hb h⟩

/-! The commit. -/

theorem State.Undisturbed.writeLoc (h : s.Undisturbed u) (l : Loc) (v : Word) :
    (s.writeLoc l v).Undisturbed (u.writeLoc l v) where
  params := by rw [State.writeLoc_params, State.writeLoc_params, h.params]
  mems := by cases l <;> simp only [State.writeLoc, h.mems, h.params]
  phase := by rw [State.writeLoc_phase, State.writeLoc_phase, h.phase]
  turns := by rw [State.writeLoc_turns, State.writeLoc_turns, h.turns]
  regs := by cases l <;> rw [State.writeLoc, State.writeLoc, h.regs]

theorem State.Undisturbed.applyWrites (h : s.Undisturbed u) (ws : List (Loc × Word)) :
    (s.applyWrites ws).Undisturbed (u.applyWrites ws) := by
  induction ws generalizing s u with
  | nil => exact h
  | cons w ws ih => exact ih (h.writeLoc w.1 w.2)

theorem State.Undisturbed.commitOk (h : s.Undisturbed u) (out : Outputs) :
    (s.commitOk out).Undisturbed (u.commitOk out) := by
  have hw := h.applyWrites out.writes
  exact ⟨hw.params, hw.mems, rfl, hw.turns, by rw [State.commitOk, State.commitOk, hw.regs]⟩

theorem State.Undisturbed.commitFail (h : s.Undisturbed u) (code : ErrCode) (info : Word) :
    (s.commitFail code info).Undisturbed (u.commitFail code info) :=
  ⟨h.params, h.mems, rfl, h.turns, by rw [State.commitFail_regs, State.commitFail_regs, h.regs]⟩

/-- A command on an undisturbed state reads the same snapshot and commits the same outputs, and its commit sets every field
of STATUS but OVR and ACC. -/
theorem State.Undisturbed.exec (h : s.Undisturbed u) {v : Word} {snap : Snapshot} (hp : s.phase = .busy v snap)
    {i : Instr} (hexec : exec i s = .next t) :
    ∃ t', exec i u = .next t' ∧ t.Undisturbed t' ∧
      t'.regs.status = { t.regs.status with ovr := t'.regs.status.ovr, acc := t'.regs.status.acc } := by
  have hresult : resultOf i u.params u.inputs = resultOf i s.params s.inputs := by
    rw [h.params, u.inputs_of_busy v snap (h.phase.trans hp), s.inputs_of_busy v snap hp]
  rcases (exec_eq_next i s t).1 hexec with ⟨out, hout, rfl⟩ | ⟨code, info, hraise, rfl⟩
  · refine ⟨_, (exec_eq_next _ _ _).2 (.inl ⟨out, hresult.trans hout, rfl⟩), h.commitOk out, ?_⟩
    rw [State.commitOk_status, State.commitOk_status]
    rfl
  · exact ⟨_, (exec_eq_next _ _ _).2 (.inr ⟨code, info, hresult.trans hraise, rfl⟩), h.commitFail code info, rfl⟩

end

/-- A run of transactions without a soft reset, while a command is in flight, disturbs nothing. -/
theorem run_busTurns {s : State} (hb : s.busy = true) {txns : List BusTxn} (hno : ∀ txn ∈ txns, txn.NoReset)
    {later : List Turn} (h : s.turns = txns.map Turn.bus ++ later) :
    ∃ u, Sys2Proof.core.run txns.length s = .next u ∧ State.Undisturbed { s with turns := later } u := by
  induction txns generalizing s with
  | nil =>
    obtain rfl : s.turns = later := h
    exact ⟨s, rfl, .refl s⟩
  | cons txn txns ih =>
    obtain ⟨hfirst, hrest⟩ := List.forall_mem_cons.1 hno
    obtain ⟨s', hs', hkept⟩ :=
      State.Undisturbed.busStep (s := { s with turns := txns.map Turn.bus ++ later }) hb hfirst
    have hb' : s'.busy = true := by
      rw [State.busy, hkept.phase]
      exact hb
    obtain ⟨u, hu, hkept'⟩ := ih hb' hrest hkept.turns
    exact ⟨u, (run_succ _ s s' ((step_of_turns_cons h).trans hs')).trans hu, (hkept.withTurns later).trans hkept'⟩

/-- Settles O41: the transactions leave the state undisturbed, and the command cannot tell it from the state without
them. -/
theorem hostTrafficDoesNotDisturbACommand : Obligations.HostTrafficDoesNotDisturbACommand := by
  intro s t0 v snap i txns rest hp hd hturns hno hexec
  have hb : s.busy = true := s.busy_eq_true_iff.2 ⟨v, snap, hp⟩
  have hno' : ∀ txn ∈ txns, txn.NoReset := fun txn hm w hw e => hno w hw (e ▸ hm)
  refine ⟨fun n hn => ?_, ?_⟩
  · have hsplit : s.turns = (txns.take n).map Turn.bus ++ ((txns.drop n).map Turn.bus ++ .engine :: rest) := by
      rw [hturns, ← List.append_assoc, ← List.map_append, List.take_append_drop]
    obtain ⟨u, hu, h⟩ := run_busTurns hb (fun txn hm => hno' txn (List.mem_of_mem_take hm)) hsplit
    rw [List.length_take_of_le hn] at hu
    exact ⟨u, hu, h.phase, h.mems, h.inputRegs⟩
  · obtain ⟨u, hu, h⟩ := run_busTurns hb hno' hturns
    obtain ⟨t, ht, hkept, hstatus⟩ := (h.withTurns rest).exec hp hexec
    have hengine : step u = .next t := (step_engine (h.phase.trans hp) hd h.turns).trans ht
    refine ⟨t, (run_add _ 1 s u hu).trans (run_succ 0 u t hengine), hkept.mems, (exec_ends ht).1,
      (exec_frame ht).turns, hkept.params, ?_⟩
    rw [← hstatus]
    exact hkept.regs

end Sys2Proof.Machine

namespace Sys2Proof.Machine

/-! ### The frequency model (spec/41_shannon_fano.md R141) -/

theorem mem_tally_fst (t : List Word) (x : Word) : x ∈ (tally t).map Prod.fst ↔ x ∈ t := by
  induction t using List.reverseRecOn with
  | nil => rfl
  | append_singleton t y ih =>
    rw [tally_snoc, bump_fst, List.mem_append, List.mem_singleton]
    split
    · next hy =>
      have hyt : x = y → x ∈ (tally t).map Prod.fst := fun e => e ▸ hy
      rw [← ih]
      exact ⟨.inl, fun h => h.elim id hyt⟩
    · rw [List.mem_append, List.mem_singleton, ih]

/-- The model lists its symbols in the order of their first occurrence in the text. -/
theorem tally_first_occurrence (t : List Word) :
    ((tally t).map Prod.fst).Pairwise fun a b => t.idxOf a < t.idxOf b := by
  induction t using List.reverseRecOn with
  | nil => exact List.Pairwise.nil
  | append_singleton t x ih =>
    have hidx : ∀ a ∈ (tally t).map Prod.fst, (t ++ [x]).idxOf a = t.idxOf a := fun a ha =>
      List.idxOf_append_of_mem ((mem_tally_fst t a).1 ha)
    have hold : ((tally t).map Prod.fst).Pairwise fun a b => (t ++ [x]).idxOf a < (t ++ [x]).idxOf b :=
      ih.imp_of_mem fun ha hb h => by rwa [hidx _ ha, hidx _ hb]
    rw [tally_snoc, bump_fst]
    split
    · exact hold
    · next hx =>
      refine List.pairwise_append.2 ⟨hold, List.pairwise_singleton _ _, fun a ha b hb => ?_⟩
      have hxt : x ∉ t := mt (mem_tally_fst t x).2 hx
      rw [List.mem_singleton.1 hb, hidx a ha, List.idxOf_append_of_notMem hxt, List.idxOf_cons_self, Nat.add_zero]
      exact List.idxOf_lt_length_iff.2 ((mem_tally_fst t a).1 ha)

theorem tally_nodup (t : List Word) : ((tally t).map Prod.fst).Nodup :=
  (tally_first_occurrence t).imp fun h e => by simp [e] at h

theorem snd_eq_count_of_mem_tally (t : List Word) : ∀ e ∈ tally t, e.2 = t.count e.1 := by
  induction t using List.reverseRecOn with
  | nil => simp [tally]
  | append_singleton t x ih =>
    intro e he
    rw [tally_snoc] at he
    rw [List.count_append]
    rcases mem_bump x (tally t) (tally_nodup t) e he with ⟨hne, he⟩ | ⟨rfl, ⟨hone, hnew⟩ | ⟨f, hf, hsucc⟩⟩
    · rw [ih e he, List.count_singleton, if_neg (by simpa using hne.symm), Nat.add_zero]
    · have hnot : e.1 ∉ t := mt (mem_tally_fst t e.1).2 hnew
      rw [hone, List.count_eq_zero_of_not_mem hnot, List.count_singleton_self]
    · rw [hsucc, List.count_singleton_self, ← ih _ hf]

theorem bump_sum (x : Word) (m : List (Word × Nat)) : ((bump x m).map Prod.snd).sum = (m.map Prod.snd).sum + 1 := by
  induction m with
  | nil => rfl
  | cons e m ih =>
    simp only [bump]
    split
    · simp only [List.map_cons, List.sum_cons]
      omega
    · simp only [List.map_cons, List.sum_cons, ih]
      omega

theorem tally_sum (t : List Word) : ((tally t).map Prod.snd).sum = t.length := by
  induction t using List.reverseRecOn with
  | nil => rfl
  | append_singleton t x ih => rw [tally_snoc, bump_sum, ih, List.length_append, List.length_singleton]

/-- Settles O8: each part is an induction over the text's last character. -/
theorem frequencyModelCountsTheText : Obligations.FrequencyModelCountsTheText := fun text =>
  ⟨tally_first_occurrence text, mem_tally_fst text,
    fun e he => ⟨snd_eq_count_of_mem_tally text e he, snd_eq_count_of_mem_tally text e he ▸ List.count_le_length⟩,
    tally_sum text⟩

/-! ### Ranking (R142) -/

/-- R142's order of two entries of the model of a text. -/
def RankedBefore (text : List Word) (a b : Word × Nat) : Prop :=
  b.2 < a.2 ∨ (a.2 = b.2 ∧ text.idxOf a.1 < text.idxOf b.1)

/-- An entry that occurs before all of a ranked list is put at its rank. -/
theorem insertRanked_ranked {text : List Word} {e : Word × Nat} {l : List (Word × Nat)}
    (hl : l.Pairwise (RankedBefore text)) (he : ∀ r ∈ l, text.idxOf e.1 < text.idxOf r.1) :
    (insertRanked e l).Pairwise (RankedBefore text) := by
  induction l with
  | nil => exact List.pairwise_singleton _ _
  | cons r rest ih =>
    obtain ⟨hr, hrest⟩ := List.pairwise_cons.1 hl
    obtain ⟨her, herest⟩ := List.forall_mem_cons.1 he
    simp only [insertRanked]
    split
    · next hle =>
      refine List.pairwise_cons.2 ⟨fun b hb => ?_, hl⟩
      have hbr : b.2 ≤ r.2 := by
        rcases List.mem_cons.1 hb with rfl | hb
        · exact le_rfl
        · rcases hr b hb with h | ⟨h, _⟩ <;> omega
      have heb := he b hb
      unfold RankedBefore
      omega
    · next hlt =>
      refine List.pairwise_cons.2 ⟨fun b hb => ?_, ih hrest herest⟩
      rcases List.mem_cons.1 ((insertRanked_perm e rest).mem_iff.1 hb) with rfl | hb
      · exact .inl (not_le.1 hlt)
      · exact hr b hb

theorem rank_ranked {text : List Word} {m : List (Word × Nat)}
    (hm : m.Pairwise fun a b => text.idxOf a.1 < text.idxOf b.1) : (rank m).Pairwise (RankedBefore text) := by
  induction m with
  | nil => exact List.Pairwise.nil
  | cons e m ih =>
    obtain ⟨he, hm⟩ := List.pairwise_cons.1 hm
    exact insertRanked_ranked (ih hm) fun r hr => he r ((rank_perm m).mem_iff.1 hr)

/-- Settles O9: the model is ranked from its last entry on, so each entry put in occurs before those it meets. -/
theorem rankingIsStableDescending : Obligations.RankingIsStableDescending := fun text =>
  ⟨rank_perm _, rank_ranked (List.pairwise_map (f := Prod.fst) |>.1 (tally_first_occurrence text))⟩

/-! ### The tree (R143 to R145) -/

@[simp] theorem tree_nil (e : Word × Nat) : tree e [] = .leaf e.1 e.2 := rfl

/-- R144: a slice splits where its first part has half of its entries, rounded down. -/
theorem tree_split {a b : Word × Nat} {as bs : List (Word × Nat)}
    (h : as.length + 1 = (as.length + 1 + (bs.length + 1)) / 2) :
    tree a (as ++ b :: bs) =
      .internal ((tree a as).freq + (tree b bs).freq) (tree a as) (tree b bs) := by
  have hlen : (as ++ b :: bs).length = as.length + bs.length + 1 := by
    rw [List.length_append, List.length_cons]
    omega
  have hm : (as.length + bs.length + 1 + 1) / 2 = as.length + 1 := by omega
  have hleft := treeFrom_fuel (as.length + bs.length) as.length a as (by omega) le_rfl
  have hright := treeFrom_fuel (as.length + bs.length) bs.length b bs (by omega) le_rfl
  simp [tree, hlen, treeFrom, hm, hleft, hright]

/-- Induction over slices as R144 splits them. -/
theorem slice_induction {motive : (e : Word × Nat) → (rest : List (Word × Nat)) → Prop}
    (single : ∀ e, motive e [])
    (split : ∀ a as b bs, as.length + 1 = (as.length + 1 + (bs.length + 1)) / 2 → motive a as → motive b bs →
      motive a (as ++ b :: bs))
    (e : Word × Nat) (rest : List (Word × Nat)) : motive e rest := by
  induction hn : rest.length using Nat.strong_induction_on generalizing e rest with
  | _ n ih =>
    by_cases h0 : rest = []
    · exact h0 ▸ single e
    · have hpos : 0 < rest.length := List.length_pos_iff.2 h0
      have hcut := List.take_append_drop ((rest.length + 1) / 2 - 1) rest
      cases hd : rest.drop ((rest.length + 1) / 2 - 1) with
      | nil =>
        have := List.drop_eq_nil_iff.1 hd
        omega
      | cons b bs =>
        have htake : (rest.take ((rest.length + 1) / 2 - 1)).length = (rest.length + 1) / 2 - 1 := by
          rw [List.length_take]
          omega
        have hdrop := congrArg List.length hd
        rw [List.length_drop, List.length_cons] at hdrop
        rw [← hcut, hd]
        exact split e _ b bs (by omega) (ih _ (by omega) e _ htake) (ih bs.length (by omega) b bs rfl)

theorem tree_conserved (e : Word × Nat) (rest : List (Word × Nat)) : (tree e rest).Conserved := by
  induction e, rest using slice_induction with
  | single e => trivial
  | split a as b bs h iha ihb =>
    rw [tree_split h]
    exact ⟨rfl, iha, ihb⟩

theorem tree_freq (e : Word × Nat) (rest : List (Word × Nat)) :
    (tree e rest).freq = ((e :: rest).map Prod.snd).sum := by
  induction e, rest using slice_induction with
  | single e => simp [Node.freq]
  | split a as b bs h iha ihb =>
    rw [tree_split h, Node.freq, iha, ihb, ← List.sum_append, ← List.map_append, List.cons_append]

/-! ### The codes of the leaves (R146 to R148) -/

/-- The first half of an alphabet, one step down the tree. -/
theorem pathCode_left {k n : Nat} (hn : 2 ≤ n) (hk : k < n / 2) :
    pathCode n k n = chZero :: pathCode (n / 2) k (n / 2) := by
  obtain ⟨m, rfl⟩ : ∃ m, n = m + 1 := ⟨n - 1, by omega⟩
  rw [pathCode, if_neg (by omega)]
  simp only [if_pos hk]
  rw [pathCode_fuel m ((m + 1) / 2) k _ (by omega) le_rfl]

theorem pathCode_right {k n : Nat} (hn : 2 ≤ n) (hk : n / 2 ≤ k) :
    pathCode n k n = chOne :: pathCode (n - n / 2) (k - n / 2) (n - n / 2) := by
  obtain ⟨m, rfl⟩ : ∃ m, n = m + 1 := ⟨n - 1, by omega⟩
  rw [pathCode, if_neg (by omega)]
  simp only [if_neg (not_lt.2 hk)]
  rw [pathCode_fuel m (m + 1 - (m + 1) / 2) _ _ (by omega) le_rfl]

/-- The table entry of rank `k` of `n` ranked symbols, below a node with the given path. -/
def leafEntry (path : List Word) (n k : Nat) (e : Word × Nat) : TableEntry := ⟨e.1, e.2, path ++ pathCode n k n⟩

theorem leafEntry_left (path : List Word) {n k : Nat} (hn : 2 ≤ n) (hk : k < n / 2) (e : Word × Nat) :
    leafEntry (path ++ [chZero]) (n / 2) k e = leafEntry path n k e := by
  simp [leafEntry, pathCode_left hn hk]

theorem leafEntry_right (path : List Word) {n : Nat} (hn : 2 ≤ n) (k : Nat) (e : Word × Nat) :
    leafEntry (path ++ [chOne]) (n - n / 2) k e = leafEntry path n (k + n / 2) e := by
  simp [leafEntry, pathCode_right hn (Nat.le_add_left (n / 2) k)]

theorem tree_leaves (e : Word × Nat) (rest : List (Word × Nat)) (path : List Word) :
    (tree e rest).leaves path = (e :: rest).mapIdx (leafEntry path (rest.length + 1)) := by
  induction e, rest using slice_induction generalizing path with
  | single e => simp [Node.leaves, leafEntry, pathCode]
  | split a as b bs h iha ihb =>
    rw [tree_split h, Node.leaves, iha, ihb, ← List.cons_append, List.mapIdx_append, List.length_cons,
      show (as ++ b :: bs).length + 1 = as.length + 1 + (bs.length + 1) by simp; omega]
    have hn : 2 ≤ as.length + 1 + (bs.length + 1) := by omega
    have hright : bs.length + 1 = as.length + 1 + (bs.length + 1) - (as.length + 1) := by omega
    generalize as.length + 1 + (bs.length + 1) = n at h hn hright ⊢
    congr 1
    · refine List.mapIdx_eq_mapIdx_iff.2 fun i hi => ?_
      rw [h, leafEntry_left path hn (by simpa [h] using hi)]
    · refine List.mapIdx_eq_mapIdx_iff.2 fun i hi => ?_
      rw [hright, h, leafEntry_right path hn]

/-- Settles O10: a slice splits as `tree_split` says, and the rest follows by induction over the splits. -/
theorem treeSplitsAtTheMidpoint : Obligations.TreeSplitsAtTheMidpoint := by
  refine ⟨tree_nil, fun a as b bs h => tree_split ?_, fun e rest => ⟨tree_conserved e rest, tree_freq e rest, ?_⟩⟩
  · rwa [List.length_append, List.length_cons, List.length_cons] at h
  · rw [tree_leaves]
    refine List.map_eq_iff.2 fun i => ?_
    rw [List.getElem?_mapIdx]
    cases (e :: rest)[i]? <;> rfl

/-- The table entry of rank `k` of `n` ranked symbols. -/
def rankedEntry (n k : Nat) (e : Word × Nat) : TableEntry := ⟨e.1, e.2, closedCode k n⟩

theorem closedCode_of_two_le {n : Nat} (hn : 2 ≤ n) (k : Nat) : closedCode k n = pathCode n k n :=
  if_neg (by omega)

theorem tree_table (e : Word × Nat) (rest : List (Word × Nat)) :
    (tree e rest).table = (e :: rest).mapIdx (rankedEntry (rest.length + 1)) := by
  induction e, rest using slice_induction with
  | single e => rfl
  | split a as b bs h _ _ =>
    have htable : (tree a (as ++ b :: bs)).table = (tree a (as ++ b :: bs)).leaves [] := by
      rw [tree_split h, Node.table]
    rw [htable, tree_leaves]
    refine List.mapIdx_eq_mapIdx_iff.2 fun i _ => ?_
    rw [leafEntry, rankedEntry, closedCode_of_two_le (by simp; omega), List.nil_append]

theorem buildTable_eq (t : List Word) :
    buildTable t = (rank (tally t)).mapIdx (rankedEntry (rank (tally t)).length) := by
  unfold buildTable
  cases hr : rank (tally t) with
  | nil => rfl
  | cons e rest => exact tree_table e rest

/-! ### The closed form (R148) -/

/-- Induction over the sizes of alphabets as R148 halves them. -/
theorem alphabet_induction {motive : Nat → Prop} (small : ∀ n ≤ 1, motive n)
    (halve : ∀ n, 2 ≤ n → motive (n / 2) → motive (n - n / 2) → motive n) (n : Nat) : motive n := by
  induction n using Nat.strong_induction_on with
  | _ n ih =>
    by_cases hn : n ≤ 1
    · exact small n hn
    · exact halve n (by omega) (ih _ (by omega)) (ih _ (by omega))

theorem pathCode_of_le_one {n : Nat} (hn : n ≤ 1) (k : Nat) : pathCode n k n = [] := by
  cases n with
  | zero => rfl
  | succ n => rw [pathCode, if_pos hn]

theorem clog_two_halve {n : Nat} (hn : 2 ≤ n) : Nat.clog 2 n = Nat.clog 2 (n - n / 2) + 1 := by
  rw [Nat.clog_of_two_le (by decide) hn, show (n + 2 - 1) / 2 = n - n / 2 by omega]

theorem length_pathCode_le (k n : Nat) : (pathCode n k n).length ≤ Nat.clog 2 n := by
  induction n using alphabet_induction generalizing k with
  | small n hn => simp [pathCode_of_le_one hn]
  | halve n hn ihl ihr =>
    rw [clog_two_halve hn]
    rcases Nat.lt_or_ge k (n / 2) with hk | hk
    · rw [pathCode_left hn hk, List.length_cons]
      exact Nat.succ_le_succ ((ihl k).trans (Nat.clog_mono_right 2 (by omega)))
    · rw [pathCode_right hn hk, List.length_cons]
      exact Nat.succ_le_succ (ihr _)

/-- Settles O11: the entries of the tree's leaves are those of the ranks, and halving an alphabet costs one character. -/
theorem treeCodesAreTheClosedForm : Obligations.TreeCodesAreTheClosedForm :=
  ⟨buildTable_eq, fun n k hn _ => closedCode_of_two_le hn k ▸ length_pathCode_le k n, rfl⟩

end Sys2Proof.Machine

namespace Sys2Proof.Machine

/-! ### A command's end from its result (spec/40_host_interface.md R119, R120) -/

section
variable {s : State} {i : Instr}

theorem exec_of_ok {out : Outputs} (h : resultOf i s.params s.inputs = .ok out) : exec i s = .next (s.commitOk out) :=
  (exec_eq_next i s _).2 (.inl ⟨out, h, rfl⟩)

theorem failsWith_of_raised {code : ErrCode} {info : Word}
    (h : resultOf i s.params s.inputs = .error (.raised code info)) : s.FailsWith i code info :=
  ⟨_, (exec_eq_next i s _).2 (.inr ⟨code, info, h, rfl⟩), s.commitFail_failed code info,
    s.commitFail_nothingCommitted code info⟩

theorem raisesOnly_of_raises {codes : List ErrCode}
    (h : ∀ code info, resultOf i s.params s.inputs = .error (.raised code info) → code ∈ codes) :
    s.RaisesOnly i codes := by
  intro t ht
  rcases (exec_eq_next i s t).1 ht with ⟨out, _, rfl⟩ | ⟨code, info, hraise, rfl⟩
  · exact .inl (by simp)
  · exact .inr (by simpa using h code info hraise)

/-- A command that ends without an error has an `Ok` result, which it commits. -/
theorem exists_ok_of_err_ok {t : State} (h : exec i s = .next t) (herr : t.regs.status.err = .ok) :
    ∃ out, resultOf i s.params s.inputs = .ok out ∧ t = s.commitOk out := by
  rcases (exec_eq_next i s t).1 h with h | ⟨code, info, hraise, rfl⟩
  · exact h
  · exact absurd (by simpa using herr) (resultOf_raises_ne_ok hraise)

end

/-- What a command that outputs the text `xs` to the memory `m` commits, and what it leaves. -/
structure State.CommitsText (s t : State) (m : TextMem) (xs : List Word) : Prop where
  wrote : t.Wrote m.cell xs (m.lenOf t.regs)
  frame : s.CommitFrame t
  mems : s.MemoryFrame t [(m.cell, xs.length)]
  lens : ∀ m', m' ≠ m → m'.lenOf t.regs = m'.lenOf s.regs
  alphaN : t.regs.alphaN = s.regs.alphaN

theorem State.commitOk_commitsText (s : State) {out : Outputs} {m : TextMem} {xs : List Word}
    (hw : out.writes = textWrites m xs) : s.CommitsText (s.commitOk out) m xs where
  wrote := by
    have h := s.applyWrites_text_wrote m xs
    rw [← hw] at h
    obtain ⟨hlen, hread⟩ := h
    refine ⟨?_, by simpa using hread⟩
    rw [← hlen]
    cases m <;> rfl
  frame := s.commitOk_frame out
  mems := by
    have h := s.applyWrites_text_frame m xs
    rwa [← hw] at h
  lens := by
    intro m' hne
    cases m <;> cases m' <;> simp [TextMem.lenOf, hw, State.applyWrites_text, TextMem.lenLoc] at hne ⊢
  alphaN := by
    rw [State.commitOk_alphaN, hw, State.applyWrites_text]
    cases m <;> simp [TextMem.lenLoc]

/-- A command with one output text succeeds and commits it. -/
theorem exec_commitsText {s : State} {i : Instr} {m : TextMem} {xs : List Word} {tail : Nat}
    {trunc : Option (TruncCause × Nat)}
    (h : resultOf i s.params s.inputs = .ok { writes := textWrites m xs, tail := tail, trunc := trunc }) :
    ∃ t, exec i s = .next t ∧ t.Succeeded tail trunc ∧ s.CommitsText t m xs :=
  ⟨_, exec_of_ok h, s.commitOk_succeeded _, s.commitOk_commitsText rfl⟩

/-! ### Bad tables (spec/41_shannon_fano.md R152) -/

/-- Rows that break the table have a first row that does. -/
theorem exists_first_broken {rows : List TableRow} (h : ¬ RowsValid rows) :
    ∃ pre last post, rows = pre ++ [last] ++ post ∧ RowsValid pre ∧ ¬ RowsValid (pre ++ [last]) := by
  induction rows using List.reverseRecOn with
  | nil => exact absurd rowsValid_nil h
  | append_singleton pre b ih =>
    by_cases hv : RowsValid pre
    · exact ⟨pre, b, [], by simp, hv, h⟩
    · obtain ⟨pre', last, post, rfl, hpre, hlast⟩ := ih hv
      exact ⟨pre', last, post ++ [b], by simp, hpre, hlast⟩

/-- A table of written entries is valid or bad. -/
theorem Snapshot.HoldsTable.exists_badTable {p : Params} {snap : Snapshot} {rows : List TableRow}
    (h : snap.HoldsTable rows) (hv : ¬ TableValid p rows) : ∃ info, snap.BadTable p info := by
  by_cases hsize : snap.regs.alphaN.toNat = 0 ∨ p.ctDepth < snap.regs.alphaN.toNat
  · exact ⟨0xFFFFFFFF, .inl ⟨hsize, rfl⟩⟩
  · rw [h.size] at hsize
    have hrows : ¬ RowsValid rows := fun hr =>
      hv ⟨fun e => hsize (.inl (by simp [e])), by omega, hr⟩
    obtain ⟨pre, last, post, rfl, hpre, hlast⟩ := exists_first_broken hrows
    refine ⟨_, .inr ⟨by rw [h.size]; omega, pre, last, ?_, h.entries.of_append, hpre, hlast, rfl⟩⟩
    rw [h.size]
    simp only [List.length_append, List.length_singleton]
    omega

section
variable {p : Params} {snap : Snapshot} {info : Word}

theorem fSfEncode_raises_badTable (h : fSfEncode p snap = .error (.raised .badTable info)) :
    snap.tableOk p = .error (.raised .badTable info) := by
  rcases (fSfEncode_eq_error _ _ _).1 h with ⟨_, h⟩ | ⟨_, h | ⟨_, h | ⟨_, _, h | ⟨_, _, _, h⟩⟩⟩⟩
  · cases h
  · exact h
  · exact absurd h (snap.seq_never_raises _ _ _ _)
  · cases snap.encodeFrom_raises _ _ _ _ _ h
  · cases h

theorem fSfDecode_raises_badTable (h : fSfDecode p snap = .error (.raised .badTable info)) :
    snap.tableOk p = .error (.raised .badTable info) := by
  rcases (fSfDecode_eq_error _ _ _).1 h with ⟨_, h⟩ | ⟨_, h | ⟨_, h | ⟨_, _, h | ⟨_, _, _, h⟩⟩⟩⟩
  · cases h
  · exact h
  · exact absurd h (snap.seq_never_raises _ _ _ _)
  · exact absurd h (snap.scanBits_never_raises _ _ _ _ _)
  · cases h

theorem fDecompress_raises_badTable (h : fDecompress p snap = .error (.raised .badTable info)) :
    snap.tableOk p = .error (.raised .badTable info) := by
  rcases (fDecompress_eq_error _ _ _).1 h with
    ⟨_, h⟩ | ⟨_, h | ⟨_, h | ⟨_, _, ⟨_, h⟩ | ⟨_, h | ⟨_, _, _, h⟩⟩⟩⟩⟩
  · cases h
  · exact h
  · exact absurd h (snap.seq_never_raises _ _ _ _)
  · cases h
  · exact absurd h (snap.scanBits_never_raises _ _ _ _ _)
  · cases h

end

section
variable {s : State} {info : Word} (h : s.inputs.BadTable s.params info)
include h

theorem sfEncode_failsWith_badTable (hlen : s.inputs.regs.txtLen.toNat ≤ s.params.txtDepth) :
    s.FailsWith .sfEncode .badTable info :=
  failsWith_of_raised ((fSfEncode_eq_error _ _ _).2 (.inr ⟨hlen, .inl h.tableOk_eq⟩))

theorem sfDecode_failsWith_badTable (hlen : s.inputs.regs.bstrLen.toNat ≤ s.params.bstrDepth) :
    s.FailsWith .sfDecode .badTable info :=
  failsWith_of_raised ((fSfDecode_eq_error _ _ _).2 (.inr ⟨hlen, .inl h.tableOk_eq⟩))

theorem decompress_failsWith_badTable (hlen : s.inputs.regs.tokLen.toNat ≤ s.params.tokDepth) :
    s.FailsWith .decompress .badTable info :=
  failsWith_of_raised ((fDecompress_eq_error _ _ _).2 (.inr ⟨hlen, .inl h.tableOk_eq⟩))

end

/-- With a table that passes TableOK, a command that can raise BAD_TABLE only through it raises its other errors. -/
theorem raisesOnly_of_tableOk {s : State} {i : Instr} {codes : List ErrCode}
    (hok : s.inputs.tableOk s.params = .ok ())
    (hraises : ∀ {code info}, resultOf i s.params s.inputs = .error (.raised code info) → code ∈ codes)
    (hbad : ∀ {info}, resultOf i s.params s.inputs = .error (.raised .badTable info) →
      s.inputs.tableOk s.params = .error (.raised .badTable info)) :
    s.RaisesOnly i (codes.filter (· ≠ .badTable)) := by
  refine raisesOnly_of_raises fun code info h => List.mem_filter.2 ⟨hraises h, ?_⟩
  refine decide_eq_true fun e => ?_
  subst e
  rw [hok] at hbad
  cases hbad h

/-- Settles O14: BAD_TABLE comes from TableOK alone, and rows that are not valid have a first row that breaks them. -/
theorem badTablesAreReported : Obligations.BadTablesAreReported := by
  refine fun s => ⟨fun info h => ⟨sfEncode_failsWith_badTable h, sfDecode_failsWith_badTable h,
    decompress_failsWith_badTable h⟩, fun rows hrows hv => ?_, fun rows hrows => hrows.exists_badTable⟩
  have hok := hrows.tableOk_ok hv
  exact ⟨raisesOnly_of_tableOk (i := .sfEncode) hok fSfEncode_raises fSfEncode_raises_badTable,
    raisesOnly_of_tableOk (i := .sfDecode) hok fSfDecode_raises fSfDecode_raises_badTable,
    raisesOnly_of_tableOk (i := .decompress) hok fDecompress_raises fDecompress_raises_badTable⟩

/-! ### SF_ENCODE (R156 to R158) -/

section
variable {snap : Snapshot} {rows : List TableRow} (h : snap.HoldsTable rows) (hv : RowsValid rows) {text : List Word}
include h hv

theorem Snapshot.HoldsTable.encodeFrom_ok (hknown : ∀ x ∈ text, ∃ r ∈ rows, r.sym = x) :
    snap.encodeFrom snap.regs.alphaN.toNat 0 text = .ok (text.flatMap (rowCode rows)) := by
  rw [h.size]
  exact h.entries.encodeFrom_ok hv text 0 hknown

/-- The loop stops at the lowest index whose symbol has no entry. -/
theorem Snapshot.HoldsTable.encodeFrom_unknown {q : Nat} (hq : q < text.length)
    (hunknown : ∀ r ∈ rows, text[q]? ≠ some r.sym) (hknown : ∀ p < q, ∃ r ∈ rows, text[p]? = some r.sym) :
    snap.encodeFrom snap.regs.alphaN.toNat 0 text = .error (.raised .unknownSymbol (BitVec.ofNat 32 q)) := by
  have hbefore : ∀ y ∈ text.take q, ∃ r ∈ rows, r.sym = y := fun y hy => by
    obtain ⟨j, hj, rfl⟩ := List.mem_take_iff_getElem.1 hy
    obtain ⟨r, hr, hsym⟩ := hknown j (by omega)
    rw [List.getElem?_eq_getElem (by omega), Option.some_inj] at hsym
    exact ⟨r, hr, hsym.symm⟩
  have hat : ∀ r ∈ rows, r.sym ≠ text[q] := fun r hr e =>
    hunknown r hr (by rw [e, List.getElem?_eq_getElem hq])
  have hloop := h.entries.encodeFrom_unknown hv (text.take q) (text.drop (q + 1)) text[q] 0 hbefore hat
  rwa [← h.size, List.cons_getElem_drop_succ, List.take_append_drop, List.length_take_of_le hq.le,
    Nat.zero_add] at hloop

end

/-- Settles O15: TableOK passes, and the loop over the text answers its codes. -/
theorem sfEncodeConcatenatesTheCodes : Obligations.SfEncodeConcatenatesTheCodes := by
  intro s rows text hrows hv hlen htext hfit hknown hroom
  have hseq := (s.inputs.seq_eq_ok .txt _ text).2 ⟨hlen.symm, htext⟩
  have hresult := (fSfEncode_eq_ok s.params s.inputs _).2
    ⟨hlen ▸ hfit, hrows.tableOk_ok hv, text, hseq, _, hrows.encodeFrom_ok hv.valid hknown, hroom, rfl⟩
  obtain ⟨t, ht, hok, hout⟩ := exec_commitsText (i := .sfEncode) (m := .bstr) hresult
  exact ⟨t, ht, hok, hout.wrote, hout.frame, hout.mems, hout.lens .txt (by decide), hout.lens .tok (by decide),
    hout.alphaN⟩

/-- Settles O16: each condition picks its disjunct of what stops the result. -/
theorem sfEncodeErrors : Obligations.SfEncodeErrors := by
  refine fun s => ⟨fun hlong => ?_, fun info hlen h => sfEncode_failsWith_badTable h hlen,
    fun rows text q hrows hv hlen htext hfit hq hunknown hknown => ?_,
    fun rows text hrows hv hlen htext hfit hknown hfull => ?_, raisesOnly_of_raises fun _ _ => fSfEncode_raises⟩
  · exact failsWith_of_raised ((fSfEncode_eq_error _ _ _).2 (.inl ⟨hlong, rfl⟩))
  · have hseq := (s.inputs.seq_eq_ok .txt _ text).2 ⟨hlen.symm, htext⟩
    exact failsWith_of_raised ((fSfEncode_eq_error _ _ _).2 (.inr ⟨hlen ▸ hfit, .inr ⟨hrows.tableOk_ok hv,
      .inr ⟨text, hseq, .inl (hrows.encodeFrom_unknown hv.valid hq hunknown hknown)⟩⟩⟩))
  · have hseq := (s.inputs.seq_eq_ok .txt _ text).2 ⟨hlen.symm, htext⟩
    exact failsWith_of_raised ((fSfEncode_eq_error _ _ _).2 (.inr ⟨hlen ▸ hfit, .inr ⟨hrows.tableOk_ok hv,
      .inr ⟨text, hseq, .inr ⟨_, hrows.encodeFrom_ok hv.valid hknown, hfull, rfl⟩⟩⟩⟩))

/-! ### Parses of a bitstring (R167 to R169) -/

/-- Under a valid table every text has a parse: read a code as long as the text starts with one. -/
theorem RowsValid.exists_bitParse {rows : List TableRow} (hv : RowsValid rows) (b : List Word) :
    ∃ rs tl, BitParse rows b rs tl := by
  induction hn : b.length using Nat.strong_induction_on generalizing b with
  | _ n ih =>
    by_cases hcode : ∃ r ∈ rows, r.code <+: b
    · obtain ⟨r, hr, rest, rfl⟩ := hcode
      have hpos := List.length_pos_iff.2 (hv.code_ne_nil hr)
      rw [List.length_append] at hn
      obtain ⟨rs, tl, hp⟩ := ih rest.length (by omega) rest rfl
      exact ⟨r :: rs, tl, List.forall_mem_cons.2 ⟨hr, hp.entries⟩, by rw [hp.text]; simp, hp.tail⟩
    · exact ⟨[], b, by simp, rfl, fun r hr h => hcode ⟨r, hr, h⟩⟩

/-- Two parses of one text agree code by code. -/
theorem BitParse.unique {rows : List TableRow} (hv : RowsValid rows) {b tl tl' : List Word} {rs rs' : List TableRow}
    (h : BitParse rows b rs tl) (h' : BitParse rows b rs' tl') : rs' = rs ∧ tl' = tl := by
  induction rs generalizing b rs' with
  | nil =>
    obtain rfl : b = tl := h.text
    cases rs' with
    | nil => exact ⟨rfl, h'.text.symm⟩
    | cons r' rs' =>
      have hpre : r'.code <+: b := ⟨_, by rw [h'.text, List.flatMap_cons, List.append_assoc]⟩
      exact absurd hpre (h.tail r' (h'.entries r' List.mem_cons_self))
  | cons r rs ih =>
    obtain ⟨hr, hrs⟩ := List.forall_mem_cons.1 h.entries
    have htext := h.text
    rw [List.flatMap_cons, List.append_assoc] at htext
    cases rs' with
    | nil =>
      obtain rfl : b = tl' := h'.text
      exact absurd ⟨_, htext.symm⟩ (h'.tail r hr)
    | cons r' rs' =>
      obtain ⟨hr', hrs'⟩ := List.forall_mem_cons.1 h'.entries
      have htext' := h'.text
      rw [List.flatMap_cons, List.append_assoc] at htext'
      have hclash : RowsClash r r' :=
        .inr (List.prefix_or_prefix_of_prefix ⟨_, htext.symm⟩ ⟨_, htext'.symm⟩)
      obtain rfl := hv.eq_of_clash hr hr' hclash
      have hrest := List.append_cancel_left (htext.symm.trans htext')
      obtain ⟨rfl, rfl⟩ := ih ⟨hrs, rfl, h.tail⟩ ⟨hrs', hrest, h'.tail⟩
      exact ⟨rfl, rfl⟩

/-- Settles O17: a parse exists, and two parses of one text agree. -/
theorem everyBitstringParsesOneWay : Obligations.EveryBitstringParsesOneWay := by
  intro rows hv b
  obtain ⟨rs, tl, h⟩ := hv.exists_bitParse b
  exact ⟨rs, tl, h, fun _ _ h' => h.unique hv h'⟩

/-! ### SF_DECODE (R166 to R171) -/

/-- Settles O18: TableOK passes, and the loop over the bitstring answers its parse. -/
theorem sfDecodeEmitsTheParsedSymbols : Obligations.SfDecodeEmitsTheParsedSymbols := by
  intro s rows b rs tl hrows hv hlen hb hfit hparse hroom
  have hseq := (s.inputs.seq_eq_ok .bstr _ b).2 ⟨hlen.symm, hb⟩
  have hsyms : (rs.map TableRow.sym).length = rs.length := List.length_map _
  have hresult := (fSfDecode_eq_ok s.params s.inputs _).2
    ⟨hlen ▸ hfit, hrows.tableOk_ok hv, b, hseq, _, hrows.scanBits_eq hv.valid hparse, hsyms.trans_le hroom, rfl⟩
  obtain ⟨t, ht, hok, hout⟩ := exec_commitsText (i := .sfDecode) (m := .txt) hresult
  exact ⟨t, ht, hok, hout.wrote, hout.frame, hsyms ▸ hout.mems, hout.lens .bstr (by decide),
    hout.lens .tok (by decide), hout.alphaN⟩

/-- Settles O19: each condition picks its disjunct of what stops the result. -/
theorem sfDecodeErrors : Obligations.SfDecodeErrors := by
  refine fun s => ⟨fun hlong => ?_, fun info hlen h => sfDecode_failsWith_badTable h hlen,
    fun rows b rs tl hrows hv hlen hb hfit hparse hfull => ?_, raisesOnly_of_raises fun _ _ => fSfDecode_raises⟩
  · exact failsWith_of_raised ((fSfDecode_eq_error _ _ _).2 (.inl ⟨hlong, rfl⟩))
  · have hseq := (s.inputs.seq_eq_ok .bstr _ b).2 ⟨hlen.symm, hb⟩
    have hsyms : (rs.map TableRow.sym).length = rs.length := List.length_map _
    exact failsWith_of_raised ((fSfDecode_eq_error _ _ _).2 (.inr ⟨hlen ▸ hfit, .inr ⟨hrows.tableOk_ok hv,
      .inr ⟨b, hseq, .inr ⟨_, hrows.scanBits_eq hv.valid hparse, hfull.trans_eq hsyms.symm, rfl⟩⟩⟩⟩))

end Sys2Proof.Machine

namespace Sys2Proof.Machine

/-! ### BUILD's errors (spec/41_shannon_fano.md R150) -/

/-- The model has one entry for each distinct symbol. -/
theorem tally_length (t : List Word) : (tally t).length = t.dedup.length := by
  have hperm : ((tally t).map Prod.fst).Perm t.dedup :=
    (List.perm_ext_iff_of_nodup (tally_nodup t) t.nodup_dedup).2 fun x => by rw [mem_tally_fst, List.mem_dedup]
  rw [← hperm.length_eq, List.length_map]

/-- The characters a command reads are within CHAR_W bits (spec/20_memory.md R65). -/
theorem State.Inv.text_lt {s : State} (h : s.Inv) {m : TextMem} {n : Nat} {t : List Word}
    (ht : s.inputs.seq m.cell n = .ok t) : ∀ x ∈ t, x.toNat < 2 ^ s.params.charW := by
  intro x hx
  obtain ⟨k, hk, rfl⟩ := List.getElem_of_mem hx
  have hread := ((s.inputs.seq_eq_ok m.cell n t).1 ht).2 k hk
  rw [List.getElem?_eq_getElem hk, h.inputs_mems] at hread
  have hlt := toNat_lt_of_storedBits_eq (h.fits _ _ hread).2
  cases m <;> exact hlt

/-- There are at most 2^w distinct words of w bits. -/
theorem length_le_of_nodup_lt {l : List Word} {w : Nat} (hl : l.Nodup) (h : ∀ x ∈ l, x.toNat < 2 ^ w) :
    l.length ≤ 2 ^ w := by
  have hnodup : (l.map BitVec.toNat).Nodup := hl.map fun _ _ => BitVec.eq_of_toNat_eq
  have hsub : l.map BitVec.toNat ⊆ List.range (2 ^ w) := fun n hn => by
    obtain ⟨x, hx, rfl⟩ := List.mem_map.1 hn
    exact List.mem_range.2 (h x hx)
  simpa using (hnodup.subperm hsub).length_le

/-- With CT_DEPTH at least 2^CHAR_W the alphabet always fits (R150). -/
theorem State.Inv.build_never_capacity {s : State} (h : s.Inv) (hct : 2 ^ s.params.charW ≤ s.params.ctDepth)
    (info : Word) : fBuild s.params s.inputs ≠ .error (.raised .capacity info) := by
  intro he
  rcases (fBuild_eq_error _ _ _).1 he with ⟨_, e⟩ | ⟨_, ⟨_, e⟩ | ⟨_, e | ⟨t, ht, hlarge, _⟩⟩⟩
  · cases e
  · cases e
  · exact s.inputs.seq_never_raises _ _ _ _ e
  · have hle := length_le_of_nodup_lt t.nodup_dedup fun x hx =>
      h.text_lt (m := .txt) ht x (List.mem_dedup.1 hx)
    rw [tally_length] at hlarge
    omega

/-- Settles O7: each condition picks its disjunct of what stops the result, and a text within CHAR_W bits has at most
2^CHAR_W distinct symbols. -/
theorem buildErrors : Obligations.BuildErrors := by
  refine fun s => ⟨fun hlong => ?_, fun hempty => ?_, fun text hlen htext hfit hlarge => ?_,
    raisesOnly_of_raises fun _ _ => fBuild_raises, fun h hct => raisesOnly_of_raises fun code info he => ?_,
    fun t ht herr => ?_⟩
  · exact failsWith_of_raised ((fBuild_eq_error _ _ _).2 (.inl ⟨hlong, rfl⟩))
  · exact failsWith_of_raised ((fBuild_eq_error _ _ _).2 (.inr ⟨by omega, .inl ⟨hempty, rfl⟩⟩))
  · have hle := (List.dedup_sublist text).length_le
    have hseq := (s.inputs.seq_eq_ok .txt _ text).2 ⟨hlen.symm, htext⟩
    exact failsWith_of_raised ((fBuild_eq_error _ _ _).2 (.inr ⟨hlen ▸ hfit,
      .inr ⟨by omega, .inr ⟨text, hseq, hlarge.trans_eq (tally_length text).symm, rfl⟩⟩⟩))
  · have hne : code ≠ .capacity := fun e => h.build_never_capacity hct info (e ▸ he)
    simpa [hne] using fBuild_raises he
  · obtain ⟨out, hout, rfl⟩ := exists_ok_of_err_ok ht herr
    obtain ⟨_, _, _, _, _, rfl⟩ := (fBuild_eq_ok _ _ _).1 hout
    exact s.commitOk_succeeded _

/-! ### Lengths and characters of the codes (R148) -/

theorem length_closedCode_le {n m : Nat} (hm : 1 ≤ m) (hn : n ≤ 2 ^ m) (k : Nat) : (closedCode k n).length ≤ m := by
  unfold closedCode
  split
  · exact hm
  · exact (length_pathCode_le k n).trans (Nat.clog_le_of_le_pow hn)

theorem closedCode_ne_nil {n : Nat} (hn : 1 ≤ n) (k : Nat) : closedCode k n ≠ [] := by
  unfold closedCode
  split
  · simp
  · rcases Nat.lt_or_ge k (n / 2) with hk | hk
    · simp [pathCode_left (by omega) hk]
    · simp [pathCode_right (by omega) hk]

theorem pathCode_chars (k n : Nat) : ∀ x ∈ pathCode n k n, x = chZero ∨ x = chOne := by
  induction n using alphabet_induction generalizing k with
  | small n hn => simp [pathCode_of_le_one hn]
  | halve n hn ihl ihr =>
    rcases Nat.lt_or_ge k (n / 2) with hk | hk
    · rw [pathCode_left hn hk]
      exact List.forall_mem_cons.2 ⟨.inl rfl, ihl k⟩
    · rw [pathCode_right hn hk]
      exact List.forall_mem_cons.2 ⟨.inr rfl, ihr _⟩

theorem closedCode_chars (k n : Nat) : ∀ x ∈ closedCode k n, x = chZero ∨ x = chOne := by
  unfold closedCode
  split
  · simp
  · exact pathCode_chars k n

/-- Leaves of one tree: no path begins with another. -/
theorem pathCode_not_prefix {n j k : Nat} (hj : j < n) (hk : k < n) (hne : j ≠ k) :
    ¬ pathCode n j n <+: pathCode n k n := by
  induction n using alphabet_induction generalizing j k with
  | small n hn => omega
  | halve n hn ihl ihr =>
    rcases Nat.lt_or_ge j (n / 2) with hjl | hjr <;> rcases Nat.lt_or_ge k (n / 2) with hkl | hkr
    · rw [pathCode_left hn hjl, pathCode_left hn hkl, List.cons_prefix_cons]
      exact fun h => ihl hjl hkl hne h.2
    · rw [pathCode_left hn hjl, pathCode_right hn hkr, List.cons_prefix_cons]
      exact fun h => absurd h.1 (by decide)
    · rw [pathCode_right hn hjr, pathCode_left hn hkl, List.cons_prefix_cons]
      exact fun h => absurd h.1 (by decide)
    · rw [pathCode_right hn hjr, pathCode_right hn hkr, List.cons_prefix_cons]
      exact fun h => ihr (by omega) (by omega) (by omega) h.2

theorem closedCode_not_prefix {n j k : Nat} (hj : j < n) (hk : k < n) (hne : j ≠ k) :
    ¬ closedCode j n <+: closedCode k n := by
  rw [closedCode_of_two_le (by omega), closedCode_of_two_le (by omega)]
  exact pathCode_not_prefix hj hk hne

/-! ### The commit of a built table (R149) -/

/-- The code table of a text and its size, as BUILD writes them. -/
def buildWrites (t : List Word) : List (Loc × Word) :=
  tableWrites 0 (buildTable t) ++ [(.alphaN, BitVec.ofNat 32 (tally t).length)]

theorem State.applyWrites_build (s : State) (t : List Word) :
    s.applyWrites (buildWrites t) =
      (s.applyWrites (tableWrites 0 (buildTable t))).writeLoc .alphaN (BitVec.ofNat 32 (tally t).length) := by
  rw [buildWrites, State.applyWrites_append, State.applyWrites_cons, State.applyWrites_nil]

theorem State.applyWrites_build_mems (s : State) (t : List Word) :
    (s.applyWrites (buildWrites t)).mems = (s.applyWrites (tableWrites 0 (buildTable t))).mems := by
  rw [State.applyWrites_build]
  rfl

theorem State.applyWrites_build_regs (s : State) (t : List Word) :
    (s.applyWrites (buildWrites t)).regs = { s.regs with alphaN := BitVec.ofNat 32 (tally t).length } := by
  rw [State.applyWrites_build, State.writeLoc_alphaN_regs, State.applyWrites_table_regs]

/-- A 32-bit field keeps every word. -/
theorem storedBits_of_width_eq {p : Params} {c : Cell} (h : c.width p = 32) (v : Word) : storedBits p c v = v :=
  storedBits_of_lt p c v (by rw [h]; exact v.isLt)

section
variable (s : State) {out : Outputs} {t : List Word} (hw : out.writes = buildWrites t)
include hw

/-- The table is that of the ranked alphabet: the codes of an alphabet of at most 2^32 symbols fit CODE_LEN. -/
theorem State.commitOk_build_wroteTable (hsize : (tally t).length ≤ 2 ^ 32) :
    (s.commitOk out).WroteTable (rank (tally t)) := by
  rw [← rank_length] at hsize
  refine ⟨by rw [State.commitOk_alphaN, hw, State.applyWrites_build_regs, rank_length], fun k e hk => ?_⟩
  have hentry : (buildTable t)[k]? = some (rankedEntry (rank (tally t)).length k e) := by
    rw [buildTable_eq, List.getElem?_mapIdx, hk]
    rfl
  obtain ⟨hsym, hfreq, hlen, hbits⟩ := s.read_applyWrites_table (buildTable t) k _ hentry
  rw [storedBits_of_width_eq rfl] at hfreq hbits
  rw [rankedEntry, storedBits_ctLen _ _ (length_closedCode_le (by decide) hsize k)] at hlen
  rw [State.commitOk_mems, State.commitOk_params, hw, State.applyWrites_build_mems]
  exact ⟨hsym, hfreq, hlen, hbits⟩

theorem State.commitOk_build_frame {c : Cell}
    (hc : ∀ k < t.dedup.length, c ≠ .ctSym k ∧ c ≠ .ctFreq k ∧ c ≠ .ctLen k ∧ c ≠ .ctBits k) :
    (s.commitOk out).mems.read c = s.mems.read c := by
  rw [← tally_length, ← buildTable_length] at hc
  rw [State.commitOk_mems, hw, State.applyWrites_build_mems]
  exact s.read_applyWrites_table_other (buildTable t) c hc

end

/-- Settles O6: the result's writes are those of the built table, whose commit is that of the ranked alphabet. -/
theorem buildWritesTheCodeTable : Obligations.BuildWritesTheCodeTable := by
  intro s text hlen htext hne hfit hct
  have hseq := (s.inputs.seq_eq_ok .txt _ text).2 ⟨hlen.symm, htext⟩
  have hpos := List.length_pos_iff.2 hne
  have hsize : (tally text).length ≤ 2 ^ 32 := by
    have hle := (List.dedup_sublist text).length_le
    have hlt := s.inputs.regs.txtLen.isLt
    rw [tally_length]
    omega
  have hresult := (fBuild_eq_ok s.params s.inputs _).2
    ⟨hlen ▸ hfit, by omega, text, hseq, (tally_length text).trans_le hct, rfl⟩
  have hregs := s.applyWrites_build_regs text
  rw [tally_length] at hregs
  have halpha := congrArg Regs.alphaN hregs
  have htxt := congrArg Regs.txtLen hregs
  have hbstr := congrArg Regs.bstrLen hregs
  have htok := congrArg Regs.tokLen hregs
  refine ⟨_, exec_of_ok (i := .build) hresult, s.commitOk_succeeded _, s.commitOk_build_wroteTable rfl hsize, halpha,
    s.commitOk_frame _, fun c hc => s.commitOk_build_frame (t := text) rfl fun k hk => ?_, htxt, hbstr, htok⟩
  simp only [List.forall_mem_cons] at hc
  obtain ⟨hsym, hfreq, hclen, hbits, _⟩ := hc
  exact ⟨hsym k hk, hfreq k hk, hclen k hk, hbits k hk⟩

/-! ### The table BUILD leaves passes TableOK (R153) -/

/-- The row of CT for rank `k` of `n` ranked symbols. -/
def builtRow (p : Params) (n k : Nat) (e : Word × Nat) : TableRow := loadedRow p k e.1 (closedCode k n)

/-- The rows of CT for a ranked alphabet. -/
def builtRows (p : Params) (ranked : List (Word × Nat)) : List TableRow := ranked.mapIdx (builtRow p ranked.length)

section
variable {p : Params} {ranked : List (Word × Nat)} (hsize : ranked.length ≤ 2 ^ 16)
include hsize

theorem builtRow_code (k : Nat) (e : Word × Nat) :
    (builtRow p ranked.length k e).code = closedCode k ranked.length :=
  loadedRow_code p k e.1 ((length_closedCode_le (by decide) hsize k).trans (by decide)) (closedCode_chars k _)

theorem builtRow_len (k : Nat) (e : Word × Nat) :
    (builtRow p ranked.length k e).len.toNat = (closedCode k ranked.length).length := by
  rw [← TableRow.code_length, builtRow_code hsize]

theorem builtRows_len : ∀ r ∈ builtRows p ranked, 1 ≤ r.len.toNat ∧ r.len.toNat ≤ 16 := by
  intro r hr
  obtain ⟨k, hk, rfl⟩ := List.mem_mapIdx.1 hr
  rw [builtRow_len hsize]
  exact ⟨List.length_pos_iff.2 (closedCode_ne_nil (by omega) k), length_closedCode_le (by decide) hsize k⟩

theorem rowsValid_builtRows (hnodup : (ranked.map Prod.fst).Nodup)
    (hsyms : ∀ e ∈ ranked, e.1.toNat < 2 ^ p.charW) : RowsValid (builtRows p ranked) := by
  refine ⟨fun r hr => (builtRows_len hsize r hr).imp id fun h => h.trans (by decide),
    List.pairwise_iff_getElem.2 fun j k hj hk hjk => ?_⟩
  have hsym : ∀ i (hi : i < ranked.length), (builtRow p ranked.length i ranked[i]).sym = ranked[i].1 := fun i hi =>
    storedBits_of_lt p (.ctSym i) _ (hsyms _ (List.getElem_mem hi))
  rw [builtRows, List.length_mapIdx] at hj hk
  simp only [builtRows, List.getElem_mapIdx, hsym, builtRow_code hsize]
  refine ⟨fun e => ?_, closedCode_not_prefix hj hk hjk.ne, closedCode_not_prefix hk hj hjk.ne'⟩
  have hne := List.pairwise_iff_getElem.1 hnodup j k (by simpa using hj) (by simpa using hk) hjk
  simp only [List.getElem_map] at hne
  exact hne e

theorem State.WroteTable.holdsTable {t : State} (h : t.WroteTable ranked) :
    t.capture.HoldsTable (builtRows t.params ranked) := by
  obtain ⟨halpha, hentries⟩ := h
  refine ⟨?_, fun k r hr => ?_⟩
  · rw [State.capture_regs, halpha, BitVec.toNat_ofNat, builtRows, List.length_mapIdx]
    omega
  · rw [builtRows, List.getElem?_mapIdx, Option.map_eq_some_iff] at hr
    obtain ⟨e, he, rfl⟩ := hr
    obtain ⟨hsym, _, hlen, hbits⟩ := hentries k e he
    exact ⟨hsym, hlen, hbits⟩

end

/-- The frequencies of a ranked alphabet, as CT holds them, sum to the text's length. -/
theorem ranked_freq_sum {t : List Word} (ht : t.length < 2 ^ 32) :
    (((rank (tally t)).map fun e => BitVec.ofNat 32 e.2).map BitVec.toNat).sum = t.length := by
  have hval : ∀ e ∈ rank (tally t), (BitVec.toNat ∘ fun e => BitVec.ofNat 32 e.2) e = e.2 := by
    intro e he
    rw [Function.comp_apply, BitVec.toNat_ofNat, snd_eq_count_of_mem_tally t e ((rank_perm _).mem_iff.1 he)]
    exact Nat.mod_eq_of_lt (List.count_le_length.trans_lt ht)
  rw [List.map_map, List.map_congr_left hval, ((rank_perm _).map _).sum_eq, tally_sum]

/-- The rows BUILD leaves for a text of CHAR_W-bit characters are a valid table. -/
theorem tableValid_builtRows {p : Params} (hp : p.wf = true) {t : List Word} (hne : t ≠ [])
    (hct : (tally t).length ≤ p.ctDepth) (ht : ∀ x ∈ t, x.toNat < 2 ^ p.charW) :
    TableValid p (builtRows p (rank (tally t))) := by
  have hbounds := Params.wf_bounds hp
  have hrows : (builtRows p (rank (tally t))).length = t.dedup.length := by
    rw [builtRows, List.length_mapIdx, rank_length, tally_length]
  refine ⟨fun e => ?_, by rwa [hrows, ← tally_length], rowsValid_builtRows ?_ ?_ fun e he => ?_⟩
  · rw [e, List.length_nil, eq_comm, List.length_eq_zero_iff, List.dedup_eq_nil] at hrows
    exact hne hrows
  · rw [rank_length]
    omega
  · exact ((rank_perm _).map _).nodup_iff.2 (tally_nodup t)
  · exact ht _ ((mem_tally_fst t e.1).1 (List.mem_map_of_mem ((rank_perm _).mem_iff.1 he)))

/-- Settles O12: the rows in CT are those of the ranked alphabet, whose codes are paths to different leaves. -/
theorem builtTablePassesTableOk : Obligations.BuiltTablePassesTableOk := by
  intro s t h hexec herr
  obtain ⟨out, hout, rfl⟩ := exists_ok_of_err_ok hexec herr
  obtain ⟨_, hne, text, hseq, hct, hw⟩ := (fBuild_eq_ok _ _ _).1 hout
  have hlen := ((s.inputs.seq_eq_ok .txt _ text).1 hseq).1
  have hbounds := Params.wf_bounds h.params
  have hsize : (rank (tally text)).length ≤ 2 ^ 16 := by
    rw [rank_length]
    omega
  have hwrote := s.commitOk_build_wroteTable (congrArg Outputs.writes hw) (by omega)
  have htable := hwrote.holdsTable hsize
  have hvalid := tableValid_builtRows h.params (List.ne_nil_of_length_pos (by omega)) hct (h.text_lt (m := .txt) hseq)
  rw [← s.commitOk_params out] at hvalid
  rw [State.inputs_of_idle _ (s.commitOk_phase out)]
  refine ⟨htable.tableOk_ok hvalid, _, htable, hvalid, builtRows_len hsize, _, ?_, fun k f hf => ?_,
    (ranked_freq_sum (hlen ▸ s.inputs.regs.txtLen.isLt)).trans hlen⟩
  · rw [builtRows, List.length_mapIdx, List.length_map]
  · rw [List.getElem?_map, Option.map_eq_some_iff] at hf
    obtain ⟨e, he, rfl⟩ := hf
    exact (hwrote.2 k e he).2.1

end Sys2Proof.Machine

namespace Sys2Proof.Machine

/-! ### SF_DECODE after SF_ENCODE (spec/41_shannon_fano.md R172) -/

theorem codeString_chars (len : Nat) (bits : Word) : ∀ x ∈ codeString len bits, x = chZero ∨ x = chOne := by
  intro x hx
  obtain ⟨k, _, rfl⟩ := List.mem_map.1 hx
  unfold bitChar
  split
  · exact .inr rfl
  · exact .inl rfl

section
variable {snap : Snapshot}

/-- One known symbol of SF_ENCODE's loop: the code it appends, and the rest of the text. -/
theorem Snapshot.encodeFrom_cons_eq_ok {n q : Nat} {x : Word} {t b : List Word} :
    snap.encodeFrom n q (x :: t) = .ok b ↔
      ∃ k ks code more, snap.matching x (List.range n) = .ok (k :: ks) ∧ snap.codeStr k = .ok code ∧
        snap.encodeFrom n (q + 1) t = .ok more ∧ b = code ++ more := by
  simp only [Snapshot.encodeFrom, bind_eq_ok]
  constructor
  · rintro ⟨_ | ⟨k, ks⟩, hks, h⟩
    · cases h
    · simp only [bind_eq_ok] at h
      obtain ⟨code, hcode, more, hmore, h⟩ := h
      cases h
      exact ⟨k, ks, code, more, hks, hcode, hmore, rfl⟩
  · rintro ⟨k, ks, code, more, hks, hcode, hmore, rfl⟩
    exact ⟨k :: ks, hks, by simp [hcode, hmore]⟩

theorem Snapshot.codeStr_chars {k : Nat} {code : List Word} (h : snap.codeStr k = .ok code) :
    ∀ x ∈ code, x = chZero ∨ x = chOne := by
  simp only [Snapshot.codeStr, bind_eq_ok, Except.ok.injEq] at h
  obtain ⟨len, _, bits, _, rfl⟩ := h
  exact codeString_chars len bits

theorem Snapshot.encodeFrom_chars {n q : Nat} {t b : List Word} (h : snap.encodeFrom n q t = .ok b) :
    ∀ x ∈ b, x = chZero ∨ x = chOne := by
  induction t generalizing q b with
  | nil =>
    cases h
    simp
  | cons x t ih =>
    obtain ⟨_, _, code, more, _, hcode, hmore, rfl⟩ := Snapshot.encodeFrom_cons_eq_ok.1 h
    exact List.forall_mem_append.2 ⟨Snapshot.codeStr_chars hcode, ih hmore⟩

/-- SF_ENCODE's lookup of a symbol reads every SYM of the table. -/
theorem Snapshot.matching_written {x : Word} {l ks : List Nat} (h : snap.matching x l = .ok ks) :
    ∀ k ∈ l, (snap.mems.read (.ctSym k)).isSome := by
  induction l generalizing ks with
  | nil => simp
  | cons j l ih =>
    simp only [Snapshot.matching, bind_eq_ok, Snapshot.sym, Snapshot.cell_eq_ok] at h
    obtain ⟨v, hv, more, hmore, _⟩ := h
    exact List.forall_mem_cons.2 ⟨by simp [hv], ih hmore⟩

theorem Snapshot.codeStr_written {k : Nat} {code : List Word} (h : snap.codeStr k = .ok code) :
    (snap.mems.read (.ctBits k)).isSome := by
  simp only [Snapshot.codeStr, bind_eq_ok, Snapshot.cell_eq_ok] at h
  obtain ⟨_, _, bits, hbits, _⟩ := h
  simp [hbits]

/-- The table SF_ENCODE used on a text of at least one character is a valid table of written entries. -/
theorem Snapshot.exists_tableValid {p : Params} {q : Nat} {x : Word} {t b : List Word} (hok : snap.tableOk p = .ok ())
    (h : snap.encodeFrom snap.regs.alphaN.toNat q (x :: t) = .ok b) :
    ∃ rows, snap.HoldsTable rows ∧ TableValid p rows := by
  obtain ⟨_, _, hlens, htwo⟩ := snap.tableOk_written p hok
  obtain ⟨k, ks, code, _, hks, hcode, _⟩ := Snapshot.encodeFrom_cons_eq_ok.1 h
  have hk := List.mem_range.1 (snap.matching_mem x _ _ hks k List.mem_cons_self)
  have hbits : ∀ j < snap.regs.alphaN.toNat, (snap.mems.read (.ctBits j)).isSome := by
    intro j hj
    rcases Nat.lt_or_ge snap.regs.alphaN.toNat 2 with hone | htwo'
    · obtain rfl : j = k := by omega
      exact Snapshot.codeStr_written hcode
    · exact (htwo htwo' j hj).2
  obtain ⟨rows, hrows⟩ := snap.exists_rows fun j hj =>
    ⟨Snapshot.matching_written hks j (List.mem_range.2 hj), hlens j hj, hbits j hj⟩
  refine ⟨rows, hrows, ?_⟩
  by_contra hv
  obtain ⟨info, hbad⟩ := hrows.exists_badTable hv
  rw [hbad.tableOk_eq] at hok
  cases hok

/-- SF_ENCODE's loop answers only when the table has every symbol. -/
theorem Snapshot.HoldsRows.known_of_encodeFrom {rows : List TableRow} (hrows : snap.HoldsRows rows)
    (hv : RowsValid rows) {q : Nat} {t b : List Word} (h : snap.encodeFrom rows.length q t = .ok b) :
    ∀ x ∈ t, ∃ r ∈ rows, r.sym = x := by
  induction t generalizing q b with
  | nil => simp
  | cons x t ih =>
    obtain ⟨_, _, _, more, _, _, hmore, _⟩ := Snapshot.encodeFrom_cons_eq_ok.1 h
    refine List.forall_mem_cons.2 ⟨?_, ih hmore⟩
    by_contra hx
    have hunknown := hrows.encodeFrom_unknown hv [] t x q (by simp) fun r hr e => hx ⟨r, hr, e⟩
    rw [List.nil_append, h] at hunknown
    cases hunknown

/-- The codes of a text of known symbols parse into the rows of its symbols, with no tail. -/
theorem RowsValid.bitParse_codes {rows : List TableRow} (hv : RowsValid rows) {t : List Word}
    (ht : ∀ x ∈ t, ∃ r ∈ rows, r.sym = x) :
    ∃ rs, BitParse rows (t.flatMap (rowCode rows)) rs [] ∧ rs.map TableRow.sym = t := by
  have htail : ∀ r ∈ rows, ¬ r.code <+: [] := fun r hr h => hv.code_ne_nil hr (List.prefix_nil.1 h)
  induction t with
  | nil => exact ⟨[], ⟨by simp, rfl, htail⟩, rfl⟩
  | cons x t ih =>
    obtain ⟨⟨r, hr, rfl⟩, hrest⟩ := List.forall_mem_cons.1 ht
    obtain ⟨rs, hp, rfl⟩ := ih hrest
    refine ⟨r :: rs, ⟨List.forall_mem_cons.2 ⟨hr, hp.entries⟩, ?_, htail⟩, rfl⟩
    rw [List.flatMap_cons, rowCode_of_mem hv hr, hp.text, List.flatMap_cons, List.append_assoc]

/-- SF_DECODE's loop inverts SF_ENCODE's under a table that passes TableOK. -/
theorem Snapshot.scanBits_of_encodeFrom {p : Params} {t b : List Word} (hok : snap.tableOk p = .ok ())
    (h : snap.encodeFrom snap.regs.alphaN.toNat 0 t = .ok b) :
    snap.scanBits snap.regs.alphaN.toNat [] b = .ok (t, 0) := by
  cases t with
  | nil =>
    cases h
    rfl
  | cons x t =>
    obtain ⟨rows, hrows, hvalid⟩ := Snapshot.exists_tableValid hok h
    have hv := hvalid.valid
    have hknown := hrows.entries.known_of_encodeFrom hv (hrows.size ▸ h)
    obtain rfl := Except.ok.inj (h.symm.trans (hrows.encodeFrom_ok hv hknown))
    obtain ⟨rs, hp, hsyms⟩ := hv.bitParse_codes hknown
    rw [hrows.scanBits_eq hv hp, hsyms, List.length_nil]

end

theorem State.Inv.inputs_alphaN {s : State} (h : s.Inv) : s.inputs.regs.alphaN = s.regs.alphaN := by
  cases hphase : s.phase with
  | idle => rw [s.inputs_of_idle hphase, s.capture_regs]
  | busy v snap => rw [s.inputs_of_busy v snap hphase, (h.inFlight v snap hphase).alphaN]

/-- A text of CHAR_W-bit characters stands in its memory as it was written. -/
theorem State.Wrote.holds {t : State} {m : TextMem} {xs : List Word} {len : Word} (h : t.Wrote m.cell xs len)
    (hxs : ∀ x ∈ xs, x.toNat < 2 ^ t.params.charW) : t.capture.Holds m.cell xs := by
  intro k hk
  rw [List.getElem?_eq_getElem hk, State.capture_mems, h.2 k _ (List.getElem?_eq_getElem hk),
    storedBits_of_lt _ _ _ (by cases m <;> exact hxs _ (List.getElem_mem hk))]

/-- The characters '0' and '1' fit every CHAR_W. -/
theorem bitChars_lt {p : Params} (hp : p.wf = true) {b : List Word} (hb : ∀ x ∈ b, x = chZero ∨ x = chOne) :
    ∀ x ∈ b, x.toNat < 2 ^ p.charW := by
  intro x hx
  have hwide : 2 ^ 8 ≤ 2 ^ p.charW := Nat.pow_le_pow_right (by decide) (Params.wf_bounds hp).1
  rcases hb x hx with rfl | rfl
  · exact lt_of_lt_of_le (by decide) hwide
  · exact lt_of_lt_of_le (by decide) hwide

/-- What SF_DECODE computes right after SF_ENCODE's commit: the table is as it was, BSTR holds the codes, and the loop
inverts SF_ENCODE's. -/
theorem fSfDecode_after_sfEncode {s t : State} {text b : List Word} (h : s.Inv)
    (hfit : s.inputs.regs.txtLen.toNat ≤ s.params.txtDepth) (hok : s.inputs.tableOk s.params = .ok ())
    (hseq : s.inputs.seq .txt s.inputs.regs.txtLen.toNat = .ok text)
    (hb : s.inputs.encodeFrom s.inputs.regs.alphaN.toNat 0 text = .ok b) (hroom : b.length ≤ s.params.bstrDepth)
    (ht : s.CommitsText t .bstr b) (v : Word) :
    fSfDecode s.params (t.accept v).inputs = .ok { writes := textWrites .txt text, tail := 0, trunc := none } := by
  have halpha : s.inputs.regs.alphaN = t.regs.alphaN := h.inputs_alphaN.trans ht.alphaN.symm
  have htable : s.inputs.TableAlike (t.accept v).inputs s.inputs.regs.alphaN.toNat := by
    rintro c ⟨k, _, hc⟩
    rw [h.inputs_mems]
    refine (ht.mems c fun m hm j _ => ?_).symm
    obtain rfl := List.mem_singleton.1 hm
    rcases hc with rfl | rfl | rfl <;> exact fun e => by cases e
  have hblen : t.regs.bstrLen.toNat = b.length :=
    toNat_of_committed ht.wrote.1 hroom (TextMem.depth_le h.params .bstr)
  have hbits : t.capture.Holds .bstr b :=
    ht.wrote.holds (bitChars_lt (ht.frame.params.symm ▸ h.params) (Snapshot.encodeFrom_chars hb))
  have hlen := ((s.inputs.seq_eq_ok .txt _ text).1 hseq).1
  have hscan := Snapshot.scanBits_of_encodeFrom hok hb
  rw [htable.scanBits, halpha] at hscan
  rw [htable.tableOk halpha] at hok
  exact (fSfDecode_eq_ok _ _ _).2 ⟨hblen.trans_le hroom, hok, b,
    (Snapshot.seq_eq_ok _ _ _ _).2 ⟨hblen.symm, hbits⟩, _, hscan, hlen.trans_le hfit, rfl⟩

/-- Settles O20: SF_DECODE's result is the text, whose characters TXT holds unchanged. -/
theorem shannonFanoRoundTrip : Obligations.ShannonFanoRoundTrip := by
  intro s t h hexec herr
  obtain ⟨out, hout, rfl⟩ := exists_ok_of_err_ok hexec herr
  obtain ⟨hfit, hok, text, hseq, b, hb, hroom, hw⟩ := (fSfEncode_eq_ok _ _ _).1 hout
  have henc : s.CommitsText (s.commitOk out) .bstr b := s.commitOk_commitsText (congrArg Outputs.writes hw)
  have hresult := fSfDecode_after_sfEncode h hfit hok hseq hb hroom henc (encode .sfDecode)
  rw [← henc.frame.params] at hresult
  obtain ⟨u, hu, hsucc, hdec⟩ := exec_commitsText (i := .sfDecode) hresult
  have hparams : u.params = s.params := hdec.frame.params.trans henc.frame.params
  obtain ⟨hlen, htext⟩ := (s.inputs.seq_eq_ok .txt _ text).1 hseq
  have hheld : u.capture.Holds .txt text :=
    hdec.wrote.holds (hparams.symm ▸ h.text_lt (m := .txt) hseq)
  refine ⟨u, hu, hsucc, ?_, fun k hk => ?_⟩
  · have htxtLen : u.regs.txtLen = BitVec.ofNat 32 text.length := hdec.wrote.1
    rw [htxtLen, hlen, BitVec.ofNat_toNat, BitVec.setWidth_eq]
  · exact (hheld k (hlen ▸ hk)).trans (htext k (hlen ▸ hk)).symm

end Sys2Proof.Machine

namespace Sys2Proof.Machine

/-! ### The search at one cursor finds the recorded match (spec/42_lz77.md R182 to R184) -/

section
variable {s : List Word} {w i : Nat}

/-- A match is never longer than the block's `Lmax`. -/
theorem MatchAt.length_le {p j : Nat} (h : MatchAt s w i p j) : j ≤ min w (min i (s.length - i)) := by
  have hwindow := h.window
  have hbefore := h.before
  have hinside := h.inside
  omega

/-- R181's `P` at length j is the set of matches of that length. -/
theorem mem_occurrences_iff_matchAt {p j : Nat} (hj : i + j ≤ s.length) :
    p ∈ occurrences s (i - w) i j ↔ MatchAt s w i p j := by
  rw [mem_occurrences]
  exact ⟨fun ⟨hwindow, hbefore, hequal⟩ => ⟨hwindow, hbefore, hj, hequal⟩,
    fun h => ⟨h.window, h.before, h.equal⟩⟩

/-- The search loop up to length m: it has found nothing, or the last occurrence of the greatest length that occurs. -/
theorem foldl_searchStep_cases (m : Nat) :
    ((List.range' 1 m).foldl (searchStep s (i - w) i) (0, 0) = (0, 0) ∧
      ∀ j, 1 ≤ j → j ≤ m → occurrences s (i - w) i j = []) ∨
    ∃ p j, 1 ≤ j ∧ j ≤ m ∧ (occurrences s (i - w) i j).max? = some p ∧
      (List.range' 1 m).foldl (searchStep s (i - w) i) (0, 0) = (i - p, j) ∧
      ∀ k, j < k → k ≤ m → occurrences s (i - w) i k = [] := by
  induction m with
  | zero => exact .inl ⟨rfl, fun j _ _ => by omega⟩
  | succ m ih =>
    rw [List.range'_1_concat, List.foldl_concat, Nat.add_comm 1 m]
    cases hmax : (occurrences s (i - w) i (m + 1)).max? with
    | some p =>
      exact .inr ⟨p, m + 1, by omega, Nat.le_refl _, hmax, by simp [searchStep, hmax], fun k _ _ => by omega⟩
    | none =>
      have hempty := List.max?_eq_none_iff.1 hmax
      have hkeep (best : Nat × Nat) : searchStep s (i - w) i best (m + 1) = best := by simp [searchStep, hmax]
      rw [hkeep]
      have hupto {k : Nat} (hk : k ≤ m + 1) : k = m + 1 ∨ k ≤ m := by omega
      rcases ih with ⟨hbest, hnone⟩ | ⟨p, j, hj, hjm, hp, hbest, hnone⟩
      · exact .inl ⟨hbest, fun k hk hkm => (hupto hkm).elim (fun e => e ▸ hempty) (hnone k hk)⟩
      · exact .inr ⟨p, j, hj, by omega, hp, hbest,
          fun k hk hkm => (hupto hkm).elim (fun e => e ▸ hempty) (hnone k hk)⟩

/-- The search answers (0, 0) where nothing matches, and the recorded match elsewhere. -/
theorem search_cases (s : List Word) (w i : Nat) :
    (search s w i = (0, 0) ∧ ∀ p j, MatchAt s w i p j → j = 0) ∨
    RecordedMatch s w i (search s w i).1 (search s w i).2 := by
  have hnone {p k : Nat} (hempty : occurrences s (i - w) i k = []) : ¬ MatchAt s w i p k := fun h => by
    simpa [hempty] using (mem_occurrences_iff_matchAt h.inside).2 h
  rcases foldl_searchStep_cases (s := s) (w := w) (i := i) (min w (min i (s.length - i))) with
    ⟨hbest, hall⟩ | ⟨p, j, hj, hjm, hp, hbest, hall⟩
  · refine .inl ⟨hbest, fun p j h => ?_⟩
    by_contra hpos
    exact hnone (hall j (by omega) h.length_le) h
  · obtain ⟨hmem, hlast⟩ := List.max?_eq_some_iff.1 hp
    have hfound := (mem_occurrences_iff_matchAt (by omega)).1 hmem
    have hback : i - (i - p) = p := by
      have := hfound.before
      omega
    rw [search, hbest]
    refine .inr ⟨hj, Nat.sub_le _ _, ?_, fun q k h => ?_, fun q h => ?_⟩
    · rwa [hback]
    · by_contra hlonger
      exact hnone (hall k (by omega) h.length_le) h
    · rw [hback]
      exact hlast q ((mem_occurrences_iff_matchAt h.inside).2 h)

/-- A cursor has one recorded match. -/
theorem RecordedMatch.unique {off len off' len' : Nat} (h : RecordedMatch s w i off len)
    (h' : RecordedMatch s w i off' len') : off' = off ∧ len' = len := by
  obtain rfl : len' = len := Nat.le_antisymm (h.longest _ _ h'.found) (h'.longest _ _ h.found)
  have hlast := h.last _ h'.found
  have hlast' := h'.last _ h.found
  have hback := h.back
  have hback' := h'.back
  exact ⟨by omega, rfl⟩

/-- Where a match is recorded there is a character that begins it. -/
theorem RecordedMatch.lt_length {off len : Nat} (h : RecordedMatch s w i off len) : i < s.length := by
  have hpos := h.positive
  have hinside := h.found.inside
  omega

/-- A recorded match refutes the literal's premise. -/
theorem RecordedMatch.not_literal {off len : Nat} (h : RecordedMatch s w i off len)
    (hnone : ∀ p j, MatchAt s w i p j → j = 0) : False :=
  absurd (hnone _ _ h.found) (Nat.one_le_iff_ne_zero.1 h.positive)

/-- The offset and the length of a match lie within the window (R182). -/
theorem RecordedMatch.le_window {off len : Nat} (h : RecordedMatch s w i off len) : off ≤ w ∧ len ≤ w := by
  have hwindow := h.found.window
  have hlen := h.found.length_le
  have hback := h.back
  omega

/-! ### The token text by the rules (R185 to R187) -/

/-- There is no token from the end of the text on. -/
theorem EncodesFrom.eq_nil {out : List Word} (h : EncodesFrom s w i out) (hi : s.length ≤ i) : out = [] := by
  cases h with
  | done _ => rfl
  | literal hc _ _ => rw [List.getElem?_eq_none hi] at hc; cases hc
  | backReference hm _ => exact absurd hm.lt_length (by omega)

/-- The rules give one token text. -/
theorem EncodesFrom.unique {out out' : List Word} (h : EncodesFrom s w i out) (h' : EncodesFrom s w i out') :
    out' = out := by
  induction h generalizing out' with
  | done hi => exact h'.eq_nil hi
  | literal hc hnone _ ih =>
    cases h' with
    | done hi => rw [List.getElem?_eq_none hi] at hc; cases hc
    | literal hc' _ hrest =>
      obtain rfl := Option.some_inj.1 (hc.symm.trans hc')
      rw [ih hrest]
    | backReference hm _ => exact (hm.not_literal hnone).elim
  | backReference hm _ ih =>
    cases h' with
    | done hi => exact absurd hm.lt_length (by omega)
    | literal _ hnone _ => exact (hm.not_literal hnone).elim
    | backReference hm' hrest =>
      obtain ⟨rfl, rfl⟩ := hm.unique hm'
      rw [ih hrest]

theorem slice_one (s : List Word) (p : Nat) : slice s p 1 = s[p]?.toList := by
  rw [slice, List.take_one, List.head?_drop]

/-- The text of the loop's tokens from cursor i on is a token text by the rules. -/
theorem tokensFrom_encodes (s : List Word) (w fuel i : Nat) (hfuel : s.length - i ≤ fuel) :
    EncodesFrom s w i ((tokensFrom s w fuel i).flatMap Token.text) := by
  induction fuel generalizing i with
  | zero => exact .done (by omega)
  | succ fuel ih =>
    rw [tokensFrom]
    split
    · next hi =>
      have hrest := ih (i + (search s w i).2 + 1) (by omega)
      rw [List.flatMap_cons, slice_one]
      rcases search_cases s w i with ⟨hzero, hnone⟩ | hm
      · simp only [hzero, Nat.add_zero, List.getElem?_eq_getElem hi] at hrest ⊢
        exact .literal (List.getElem?_eq_getElem hi) hnone hrest
      · exact .backReference hm hrest
    · exact .done (by omega)

theorem lzText_encodes (s : List Word) (w : Nat) : EncodesFrom s w 0 (lzText s w) :=
  tokensFrom_encodes s w s.length 0 (by omega)

end

/-- Settles O22: the loop's text is one by the rules, and the rules give one text. -/
theorem tokenTextFollowsTheSearchRules : Obligations.TokenTextFollowsTheSearchRules := by
  intro x w out
  exact ⟨fun h => (lzText_encodes x w).unique h, fun h => h ▸ lzText_encodes x w⟩

/-! ### Length of the token text (R188, R190) -/

theorem length_tokenText (a b c : List Word) : (tokenText a b c).length = a.length + b.length + c.length + 4 := by
  simp [tokenText]
  omega

theorem length_dec_le_three {v : Nat} (h : v < 256) : (dec v).length ≤ 3 := by
  by_cases h0 : v = 0
  · simp [h0, dec_of_lt]
  · have hpow : 10 ^ (dec v).length < 10 ^ 4 := (pow_length_dec_le v h0).trans_lt (by omega)
    exact Nat.lt_succ_iff.1 ((Nat.pow_lt_pow_iff_right (by decide)).1 hpow)

theorem length_dec_le_self (v : Nat) (hv : 1 ≤ v) : (dec v).length ≤ v := by
  induction v using dec_induction with
  | one v h => simpa [dec_of_lt h] using hv
  | more v h ih =>
    have := ih (by omega)
    rw [dec_of_ge h, List.length_append, List.length_singleton]
    omega

/-- Seven characters for each character still to encode, and one more for a last token with no next character. -/
theorem EncodesFrom.length_le {s : List Word} {w i : Nat} {out : List Word} (hw : w < 256)
    (h : EncodesFrom s w i out) : out.length ≤ 7 * (s.length - i) + 1 := by
  induction h with
  | done _ => simp
  | @literal i c out hc _ _ ih =>
    have hi := (List.getElem?_eq_some_iff.1 hc).1
    rw [List.length_append, length_tokenText, dec_of_lt (by decide)]
    simp only [List.length_singleton]
    omega
  | @backReference i off len out hm hrest ih =>
    have hoff := length_dec_le_three (hm.le_window.1.trans_lt hw)
    have hlen := length_dec_le_self len hm.positive
    have hpos := hm.positive
    have hinside := hm.found.inside
    rw [List.length_append, length_tokenText]
    by_cases hend : i + len < s.length
    · rw [List.getElem?_eq_getElem hend]
      simp only [Option.toList_some, List.length_singleton]
      omega
    · rw [List.getElem?_eq_none (by omega), hrest.eq_nil (by omega)]
      simp only [Option.toList_none, List.length_nil]
      omega

theorem lzText_length_le (s : List Word) {w : Nat} (hw : w < 256) : (lzText s w).length ≤ 7 * s.length + 1 :=
  (lzText_encodes s w).length_le hw

/-- With no window every character is a literal. -/
theorem encodesFrom_window_zero (before s : List Word) :
    EncodesFrom (before ++ s) 0 before.length (s.flatMap fun c => tokenText [chZero] [chZero] [c]) := by
  induction s generalizing before with
  | nil => exact .done (by simp)
  | cons c s ih =>
    rw [List.flatMap_cons]
    refine .literal (c := c) (by simp) (fun p j h => ?_) ?_
    · have := h.length_le
      omega
    · simpa using ih (before ++ [c])

/-- Settles O23, by the rules: the bound by induction on the token text, and the text of literals is one by the rules. -/
theorem tokenTextLength : Obligations.TokenTextLength := by
  intro x
  exact ⟨fun w => lzText_length_le x w.isLt,
    ((lzText_encodes x 0).unique (encodesFrom_window_zero [] x)).symm⟩

/-! ### LZ_ENCODE (R181, R188, R189) -/

/-- Settles O24: the rules' token text is the one the result writes. -/
theorem lzEncodeWritesTheTokenText : Obligations.LzEncodeWritesTheTokenText := by
  intro s x out hlen hx hfit henc hroom
  obtain rfl := (lzText_encodes _ _).unique henc
  have hseq := (s.inputs.seq_eq_ok .bstr _ x).2 ⟨hlen.symm, hx⟩
  have hresult := (fLzEncode_eq_ok s.params s.inputs _).2 ⟨hlen ▸ hfit, x, hseq, hroom, rfl⟩
  obtain ⟨t, ht, hok, hout⟩ := exec_commitsText (i := .lzEncode) (m := .tok) hresult
  exact ⟨t, ht, hok, hout.wrote, hout.frame, hout.mems, hout.lens .txt (by decide), hout.lens .bstr (by decide),
    hout.alphaN⟩

/-- Under the default parameters the token text of every text that fits BSTR fits TOK (R189). -/
theorem fLzEncode_default_never_capacity (snap : Snapshot) (info : Word) :
    fLzEncode .default snap ≠ .error (.raised .capacity info) := by
  intro he
  rcases (fLzEncode_eq_error _ _ _).1 he with ⟨_, e⟩ | ⟨hfit, e | ⟨x, hseq, hfull, _⟩⟩
  · cases e
  · exact snap.seq_never_raises _ _ _ _ e
  · have hlen := ((snap.seq_eq_ok .bstr _ x).1 hseq).1
    have hbound := lzText_length_le x snap.regs.window.isLt
    simp only [Params.default] at hfit hfull
    omega

/-- Empty input is encoded as the empty token text (R189). -/
theorem fLzEncode_of_empty {p : Params} {snap : Snapshot} (h : snap.regs.bstrLen = 0) :
    fLzEncode p snap = .ok { writes := textWrites .tok [], tail := 0, trunc := none } := by
  have hlen : snap.regs.bstrLen.toNat = 0 := by simp [h]
  exact (fLzEncode_eq_ok p snap _).2 ⟨by omega, [], by rw [hlen]; rfl, Nat.zero_le _, rfl⟩

/-- Settles O25: each condition picks its disjunct of what stops the result, and the token text's length bounds it under
the default parameters. -/
theorem lzEncodeErrors : Obligations.LzEncodeErrors := by
  refine fun s => ⟨fun hlong => ?_, fun x out hlen hx hfit henc hfull => ?_,
    raisesOnly_of_raises fun _ _ => fLzEncode_raises, fun hp => raisesOnly_of_raises fun code info he => ?_,
    fun hempty => ?_⟩
  · exact failsWith_of_raised ((fLzEncode_eq_error _ _ _).2 (.inl ⟨hlong, rfl⟩))
  · obtain rfl := (lzText_encodes _ _).unique henc
    have hseq := (s.inputs.seq_eq_ok .bstr _ x).2 ⟨hlen.symm, hx⟩
    exact failsWith_of_raised ((fLzEncode_eq_error _ _ _).2 (.inr ⟨hlen ▸ hfit, .inr ⟨x, hseq, hfull, rfl⟩⟩))
  · have hne : code ≠ .capacity := fun e => fLzEncode_default_never_capacity s.inputs info (hp ▸ e ▸ he)
    simpa [hne] using fLzEncode_raises he
  · obtain ⟨t, ht, hok, hout⟩ := exec_commitsText (i := .lzEncode) (m := .tok) (fLzEncode_of_empty hempty)
    exact ⟨t, ht, hok, hout.wrote.1⟩

end Sys2Proof.Machine

namespace Sys2Proof.Machine

/-! ### Copies (spec/42_lz77.md R202) -/

/-- `copy` is what a back-reference of distance `off` and length `len` appends to the output `out`. -/
structure CopyOf (out : List Word) (off len : Nat) (copy : List Word) : Prop where
  legal : 1 ≤ len → 1 ≤ off ∧ off ≤ out.length
  length : copy.length = len
  repeats : ∀ k, k < len → copy[k]? = (out ++ copy)[out.length - off + k]?

theorem CopyOf.nil (out : List Word) (off : Nat) : CopyOf out off 0 [] := ⟨by simp, rfl, by simp⟩

theorem CopyOf.copyBack {out copy : List Word} {off len : Nat} (h : CopyOf out off len copy) :
    copyBack off len out.reverse = (out ++ copy).reverse :=
  copyBack_of_copy off len out copy h.legal h.length h.repeats

/-- Every legal back-reference appends something. -/
theorem exists_copyOf {out : List Word} {off len : Nat} (h : 1 ≤ len → 1 ≤ off ∧ off ≤ out.length) :
    ∃ copy, CopyOf out off len copy := by
  cases len with
  | zero => exact ⟨[], .nil out off⟩
  | succ len =>
    obtain ⟨hpos, hle⟩ := h (by omega)
    obtain ⟨copy, hlen, _, hcopy⟩ := copyBack_eq off (len + 1) out hpos hle
    exact ⟨copy, h, hlen, hcopy⟩

/-! ### The decoder's loop follows the rules (R196 to R204, R206) -/

section
variable {t : List Word} {q : Nat} {out fin : List Word} {tr : Option (TruncCause × Nat)}

theorem drop_eq_cons_of_getElem? {c : Word} (h : t[q]? = some c) : t.drop q = c :: t.drop (q + 1) := by
  obtain ⟨hq, rfl⟩ := List.getElem?_eq_some_iff.1 h
  exact List.drop_eq_getElem_cons hq

/-- The rest of the text from a token on: '<', the body, '>', and what follows. -/
theorem TokenAt.drop_eq {body : List Word} (h : TokenAt t q body) :
    t.drop q = chLess :: (body ++ chGreater :: t.drop (q + body.length + 2)) := by
  obtain ⟨after, hafter⟩ := h.closed
  have hrest : t.drop (q + body.length + 2) = after := by
    rw [show q + body.length + 2 = q + 1 + (body ++ [chGreater]).length by simp; omega, ← List.drop_drop, ← hafter,
      List.drop_left]
  rw [hrest, drop_eq_cons_of_getElem? h.opened, ← hafter, List.append_assoc, List.singleton_append]

theorem TokenAt.lt_length {body : List Word} (h : TokenAt t q body) : q < t.length :=
  (List.getElem?_eq_some_iff.1 h.opened).1

theorem reverse_of_length_le_one {c : List Word} (h : c.length ≤ 1) : c.reverse = c := by
  match c, h with
  | [], _ => rfl
  | [_], _ => rfl

/-- The output only grows. -/
theorem DecodesFrom.length_le (h : DecodesFrom t q out fin tr) : out.length ≤ fin.length := by
  induction h with
  | done _ | unterminated _ _ | badField _ _ | badOffset _ _ _ _ => exact Nat.le_refl _
  | raw _ _ _ ih =>
    rw [List.length_append] at ih
    omega
  | token _ _ _ _ _ _ ih =>
    rw [List.length_append, List.length_append] at ih
    omega

/-- The fuel lasts for the pass at index q, and what is left lasts for the rest. -/
theorem exists_fuel_pred {len q fuel : Nat} (hq : q < len) (hfuel : len - q ≤ fuel) :
    ∃ n, fuel = n + 1 ∧ len - (q + 1) ≤ n :=
  ⟨fuel - 1, by omega, by omega⟩

/-- The loop gives what the rules give, unless both outputs are longer than the limit: they part only at a copy longer
than `limit + 1`, which the loop stops early (log entry 10). -/
theorem DecodesFrom.scanFrom_cases (h : DecodesFrom t q out fin tr) (limit fuel : Nat) (hfuel : t.length - q ≤ fuel) :
    scanFrom limit fuel q (t.drop q) out.reverse = (fin.reverse, tr) ∨
    limit < fin.length ∧ limit < (scanFrom limit fuel q (t.drop q) out.reverse).1.length := by
  induction h generalizing fuel with
  | done hq => rw [List.drop_eq_nil_of_le hq, scanFrom_nil]; exact .inl rfl
  | raw hc hne _ ih =>
    obtain ⟨fuel, rfl, hmore⟩ := exists_fuel_pred (List.getElem?_eq_some_iff.1 hc).1 hfuel
    rw [drop_eq_cons_of_getElem? hc, scanFrom_raw _ _ _ _ _ _ hne]
    simpa using ih fuel hmore
  | unterminated hc hnone =>
    obtain ⟨fuel, rfl, _⟩ := exists_fuel_pred (List.getElem?_eq_some_iff.1 hc).1 hfuel
    rw [drop_eq_cons_of_getElem? hc, scanFrom_unterminated _ _ _ _ _ hnone]
    exact .inl rfl
  | badField hat hbad =>
    obtain ⟨fuel, rfl, _⟩ := exists_fuel_pred hat.lt_length hfuel
    rw [hat.drop_eq, scanFrom_badField _ _ _ _ _ _ hat.first hbad]
    exact .inl rfl
  | badOffset hat hbody hlen hoff =>
    obtain ⟨fuel, rfl, _⟩ := exists_fuel_pred hat.lt_length hfuel
    rw [hat.drop_eq, scanFrom_badOffset _ _ _ _ _ _ _ _ _ hat.first hbody hlen (by simpa using hoff)]
    exact .inl rfl
  | @token _ out _ _ body a b c copy hat hbody hlegal hlen hcopy hrest ih =>
    obtain ⟨fuel, rfl, hmore⟩ := exists_fuel_pred hat.lt_length hfuel
    rw [hat.drop_eq, scanFrom_token _ _ _ _ _ _ _ _ _ hat.first hbody (by simpa using hlegal)]
    by_cases hshort : val b ≤ limit + 1
    · have hcopied := CopyOf.copyBack ⟨hlegal, hlen, hcopy⟩
      have hone : c.reverse = c := reverse_of_length_le_one hbody.oneChar
      rw [Nat.min_eq_left hshort, hcopied]
      simpa [hone] using ih fuel (by omega)
    · refine .inr ⟨?_, ?_⟩
      · have := hrest.length_le
        rw [List.length_append, List.length_append] at this
        omega
      · refine lt_of_lt_of_le ?_ (scanFrom_length _ _ _ _ _)
        rw [Nat.min_eq_right (by omega), List.length_append, copyBack_length]
        omega

/-- The model's decoder gives the output and record of the rules when the output fits its limit. -/
theorem DecodesFrom.lzDecode_eq (h : DecodesFrom t 0 [] fin tr) {limit : Nat} (hfit : fin.length ≤ limit) :
    lzDecode limit t = (fin, tr) := by
  have hscan : scanFrom limit t.length 0 t [] = (fin.reverse, tr) :=
    (h.scanFrom_cases limit t.length (by omega)).resolve_right fun hlong => by omega
  rw [lzDecode, hscan, List.reverse_reverse]

/-- Otherwise the model's output is above the limit too. -/
theorem DecodesFrom.lt_length_lzDecode (h : DecodesFrom t 0 [] fin tr) {limit : Nat} (hfull : limit < fin.length) :
    limit < (lzDecode limit t).1.length := by
  rw [lzDecode, List.length_reverse]
  rcases h.scanFrom_cases limit t.length (by omega) with hscan | ⟨_, hlong⟩
  · rw [List.drop_zero, List.reverse_nil] at hscan
    rwa [hscan, List.length_reverse]
  · exact hlong

/-- The rules give one output and one record: those of the model's decoder with a limit above both outputs. -/
theorem DecodesFrom.unique {fin' : List Word} {tr' : Option (TruncCause × Nat)} (h : DecodesFrom t 0 [] fin tr)
    (h' : DecodesFrom t 0 [] fin' tr') : fin' = fin ∧ tr' = tr :=
  Prod.mk.inj ((h'.lzDecode_eq (Nat.le_max_right fin.length fin'.length)).symm.trans
    (h.lzDecode_eq (Nat.le_max_left _ _)))

end

/-- Decoding can go on at every index, and each pass consumes a character. -/
theorem exists_decodesFrom (t : List Word) (q : Nat) (out : List Word) : ∃ fin tr, DecodesFrom t q out fin tr := by
  induction hn : t.length - q using Nat.strong_induction_on generalizing q out with
  | _ n ih =>
    cases hc : t[q]? with
    | none => exact ⟨out, none, .done (List.getElem?_eq_none_iff.1 hc)⟩
    | some c =>
      have hq := (List.getElem?_eq_some_iff.1 hc).1
      by_cases hless : c = chLess
      · subst hless
        by_cases hclosed : chGreater ∈ t.drop (q + 1)
        · obtain ⟨body, after, hsplit, hfirst⟩ := List.eq_append_cons_of_mem hclosed
          have hat : TokenAt t q body := ⟨hc, ⟨after, by simp [hsplit]⟩, hfirst⟩
          by_cases hbody : ∃ a b c, TokenBody body a b c
          · obtain ⟨a, b, c, hbody⟩ := hbody
            by_cases hlegal : 1 ≤ val b → 1 ≤ val a ∧ val a ≤ out.length
            · obtain ⟨copy, hcopy⟩ := exists_copyOf hlegal
              obtain ⟨fin, tr, h⟩ := ih _ (by omega) (q + body.length + 2) (out ++ copy ++ c) rfl
              exact ⟨fin, tr, .token hat hbody hlegal hcopy.length hcopy.repeats h⟩
            · exact ⟨out, _, .badOffset hat hbody (by omega) (by omega)⟩
          · exact ⟨out, _, .badField hat fun a b c h => hbody ⟨a, b, c, h⟩⟩
        · exact ⟨out, _, .unterminated hc hclosed⟩
      · obtain ⟨fin, tr, h⟩ := ih _ (by omega) (q + 1) (out ++ [c]) rfl
        exact ⟨fin, tr, .raw hc hless h⟩

/-- Settles O26: a decoding exists, and the model's decoder, which follows every decoding, makes it the only one. -/
theorem tokenTextDecodesByTheRules : Obligations.TokenTextDecodesByTheRules := by
  intro t
  obtain ⟨fin, tr, h⟩ := exists_decodesFrom t 0 []
  exact ⟨fin, tr, h, fun _ _ h' => h.unique h', fun _ => ⟨h.lzDecode_eq, h.lt_length_lzDecode⟩⟩

/-! ### LZ_DECODE (R196, R204, R206) -/

/-- What LZ_DECODE computes on a token text whose decoding fits BSTR. -/
theorem fLzDecode_of_decodes {p : Params} {snap : Snapshot} {tok fin : List Word} {tr : Option (TruncCause × Nat)}
    (hlen : snap.regs.tokLen.toNat = tok.length) (htok : snap.Holds .tok tok) (hfit : tok.length ≤ p.tokDepth)
    (h : DecodesFrom tok 0 [] fin tr) (hroom : fin.length ≤ p.bstrDepth) :
    fLzDecode p snap = .ok { writes := textWrites .bstr fin, tail := 0, trunc := tr } := by
  have hdec := h.lzDecode_eq hroom
  refine (fLzDecode_eq_ok p snap _).2 ⟨hlen ▸ hfit, tok, (snap.seq_eq_ok .tok _ tok).2 ⟨hlen.symm, htok⟩, ?_, ?_⟩
  · rwa [hdec]
  · rw [hdec]
    rfl

/-- Settles O27: the result writes the rules' output. -/
theorem lzDecodeWritesTheDecodedText : Obligations.LzDecodeWritesTheDecodedText := by
  intro s tok fin tr hlen htok hfit hdec hroom
  obtain ⟨t, ht, hok, hout⟩ :=
    exec_commitsText (i := .lzDecode) (fLzDecode_of_decodes hlen htok hfit hdec hroom)
  exact ⟨t, ht, hok, hout.wrote, hout.frame, hout.mems, hout.lens .txt (by decide), hout.lens .tok (by decide),
    hout.alphaN⟩

/-- Settles O28: each condition picks its disjunct of what stops the result. -/
theorem lzDecodeErrors : Obligations.LzDecodeErrors := by
  refine fun s => ⟨fun hlong => ?_, fun tok fin tr hlen htok hfit hdec hfull => ?_,
    raisesOnly_of_raises fun _ _ => fLzDecode_raises⟩
  · exact failsWith_of_raised ((fLzDecode_eq_error _ _ _).2 (.inl ⟨hlong, rfl⟩))
  · have hseq := (s.inputs.seq_eq_ok .tok _ tok).2 ⟨hlen.symm, htok⟩
    exact failsWith_of_raised ((fLzDecode_eq_error _ _ _).2
      (.inr ⟨hlen ▸ hfit, .inr ⟨tok, hseq, hdec.lt_length_lzDecode hfull, rfl⟩⟩))

end Sys2Proof.Machine

namespace Sys2Proof.Machine

/-! ### A written token reads back (spec/42_lz77.md R187, R207) -/

/-- The fields between a token's '<' and its '>' (R187). -/
def bodyText (a b c : List Word) : List Word := a ++ chComma :: (b ++ chComma :: c)

theorem tokenText_eq (a b c : List Word) : tokenText a b c = chLess :: (bodyText a b c ++ [chGreater]) := by
  simp [tokenText, bodyText]

/-- A '>' as next character closes the token early, and is left behind (R207). -/
theorem tokenText_chGreater (a b : List Word) : tokenText a b [chGreater] = tokenText a b [] ++ [chGreater] := by
  simp [tokenText]

theorem not_mem_dec {c : Word} (hc : isDigit c = false) (v : Nat) : c ∉ dec v := fun h => by
  simp [isDigit_of_mem_dec v c h] at hc

theorem tokenBody_dec {off len : Nat} {c : List Word} (hoff : off < 2 ^ 32) (hlen : len < 2 ^ 32) (hc : c.length ≤ 1) :
    TokenBody (bodyText (dec off) (dec len) c) (dec off) (dec len) c where
  split := rfl
  first := not_mem_dec (by decide) off
  second := not_mem_dec (by decide) len
  digitsA := digits_dec off
  digitsB := digits_dec len
  boundA := by rwa [val_dec]
  boundB := by rwa [val_dec]
  oneChar := hc

theorem chGreater_not_mem_bodyText (off len : Nat) {c : List Word} (hc : chGreater ∉ c) :
    chGreater ∉ bodyText (dec off) (dec len) c := by
  have hdec := not_mem_dec (c := chGreater) (by decide)
  have hcomma : chGreater ≠ chComma := by decide
  simp [bodyText, hdec, hcomma, hc]

theorem tokenAt_append (before after : List Word) {body : List Word} (h : chGreater ∉ body) :
    TokenAt (before ++ (chLess :: (body ++ [chGreater]) ++ after)) before.length body where
  opened := by simp
  closed := by simp
  first := h

section
variable {before after out copy c fin : List Word} {off len : Nat} {tr : Option (TruncCause × Nat)}
  (hoff : off < 2 ^ 32) (hlen : len < 2 ^ 32) (hcopy : CopyOf out off len copy)
include hoff hlen hcopy

/-- One pass over a token whose next character is not '>'. -/
theorem DecodesFrom.of_tokenText_of_not_mem (hc : c.length ≤ 1) (hgreater : chGreater ∉ c)
    (h : DecodesFrom (before ++ (tokenText (dec off) (dec len) c ++ after))
      (before.length + (tokenText (dec off) (dec len) c).length) (out ++ copy ++ c) fin tr) :
    DecodesFrom (before ++ (tokenText (dec off) (dec len) c ++ after)) before.length out fin tr := by
  rw [tokenText_eq] at h ⊢
  refine .token (copy := copy) (tokenAt_append before after (chGreater_not_mem_bodyText off len hgreater))
    (tokenBody_dec hoff hlen hc) ?_ ?_ ?_ ?_
  · simpa [val_dec] using hcopy.legal
  · rw [val_dec, hcopy.length]
  · simpa [val_dec] using hcopy.repeats
  · simpa [Nat.add_assoc] using h

/-- The passes over a written token append its copy and its next character, whatever that is (R207). -/
theorem DecodesFrom.of_tokenText (hc : c.length ≤ 1)
    (h : DecodesFrom (before ++ (tokenText (dec off) (dec len) c ++ after))
      (before.length + (tokenText (dec off) (dec len) c).length) (out ++ copy ++ c) fin tr) :
    DecodesFrom (before ++ (tokenText (dec off) (dec len) c ++ after)) before.length out fin tr := by
  by_cases hgreater : chGreater ∈ c
  · obtain rfl : c = [chGreater] := by
      obtain ⟨x, rfl⟩ := List.length_eq_one_iff.1 (Nat.le_antisymm hc (List.length_pos_of_mem hgreater))
      rw [List.mem_singleton.1 hgreater]
    rw [tokenText_chGreater, List.append_assoc] at h ⊢
    refine .of_tokenText_of_not_mem hoff hlen hcopy (by simp) (by simp) ?_
    refine .raw (c := chGreater) ?_ (by decide) ?_
    · rw [← List.append_assoc, ← List.length_append, List.getElem?_append_right (Nat.le_refl _)]
      simp
    · simpa [Nat.add_assoc] using h
  · exact .of_tokenText_of_not_mem hoff hlen hcopy hc hgreater h

end

/-! ### Decoding inverts encoding (R207) -/

/-- The characters of a recorded match are the copy its token asks for. -/
theorem RecordedMatch.copyOf {s : List Word} {w i off len : Nat} (h : RecordedMatch s w i off len) :
    CopyOf (s.take i) off len (slice s i len) := by
  have hback := h.back
  have hbefore := h.found.before
  have hinside := h.found.inside
  have hout : (s.take i).length = i := List.length_take_of_le (by omega)
  refine ⟨fun _ => by omega, by simp [slice]; omega, fun k hk => ?_⟩
  rw [← h.found.equal, hout, List.getElem?_append_left (by omega)]
  simp only [slice, List.getElem?_take, List.getElem?_drop]
  rw [if_pos hk, if_pos (by omega)]

/-- What is decoded once a token's copy and next character are appended. -/
theorem take_append_slice (s : List Word) (i len : Nat) :
    s.take i ++ slice s i len ++ s[i + len]?.toList = s.take (i + len + 1) := by
  rw [slice, ← List.take_add, ← List.take_add_one]

/-- From the token text of cursor i on, with the text before the cursor decoded, the decoder reaches the whole text. -/
theorem EncodesFrom.decodes {s : List Word} {w i : Nat} {out : List Word} (hw : w < 2 ^ 32)
    (h : EncodesFrom s w i out) (before : List Word) :
    DecodesFrom (before ++ out) before.length (s.take i) s none := by
  induction h generalizing before with
  | done hi =>
    rw [List.take_of_length_le hi]
    exact .done (by simp)
  | @literal i c out hc _ _ ih =>
    refine .of_tokenText (by decide) (by decide) (.nil _ 0) (Nat.le_refl 1) ?_
    have hnext : s.take i ++ [] ++ [c] = s.take (i + 1) := by simp [List.take_add_one, hc]
    rw [hnext, ← List.append_assoc, ← List.length_append]
    exact ih _
  | @backReference i off len out hm _ ih =>
    obtain ⟨hoff, hlen⟩ := hm.le_window
    refine .of_tokenText (by omega) (by omega) hm.copyOf (Option.length_toList_le) ?_
    rw [take_append_slice, ← List.append_assoc, ← List.length_append]
    exact ih _

theorem lzText_decodes (s : List Word) {w : Nat} (hw : w < 2 ^ 32) : DecodesFrom (lzText s w) 0 [] s none :=
  (lzText_encodes s w).decodes hw []

/-! ### LZ_DECODE after LZ_ENCODE (R207) -/

/-- The characters of a written token are marks, digits, and its next character. -/
theorem mem_tokenText_dec {off len : Nat} {c : List Word} {x : Word} (h : x ∈ tokenText (dec off) (dec len) c) :
    x ∈ [chLess, chComma, chGreater] ∨ isDigit x = true ∨ x ∈ c := by
  simp only [tokenText, List.mem_cons, List.mem_append] at h
  rcases h with h | h | h | h | h | h | h | h
  · simp [h]
  · exact .inr (.inl (isDigit_of_mem_dec _ _ h))
  · simp [h]
  · exact .inr (.inl (isDigit_of_mem_dec _ _ h))
  · simp [h]
  · exact .inr (.inr h)
  · simp [h]
  · simp at h

/-- The token text's characters are marks, digits, and characters of the text. -/
theorem EncodesFrom.chars {s : List Word} {w i : Nat} {out : List Word} (h : EncodesFrom s w i out) :
    ∀ x ∈ out, x ∈ [chLess, chComma, chGreater] ∨ isDigit x = true ∨ x ∈ s := by
  induction h with
  | done _ => simp
  | literal hc _ _ ih =>
    refine List.forall_mem_append.2 ⟨fun x hx => ?_, ih⟩
    refine (mem_tokenText_dec hx).imp_right (.imp_right fun hmem => ?_)
    exact List.mem_singleton.1 hmem ▸ List.mem_of_getElem? hc
  | backReference _ _ ih =>
    refine List.forall_mem_append.2 ⟨fun x hx => ?_, ih⟩
    exact (mem_tokenText_dec hx).imp_right (.imp_right fun hmem => List.mem_of_getElem? (Option.mem_toList.1 hmem))

/-- TOK stores the token text of a text in BSTR without loss (spec/20_memory.md R65). -/
theorem lzText_lt {p : Params} (hp : p.wf = true) {s : List Word} (hs : ∀ x ∈ s, x.toNat < 2 ^ p.charW) (w : Nat) :
    ∀ x ∈ lzText s w, x.toNat < 2 ^ p.charW := by
  intro x hx
  have hwide : 2 ^ 8 ≤ 2 ^ p.charW := Nat.pow_le_pow_right (by decide) (Params.wf_bounds hp).1
  have hmarks : ∀ c ∈ [chLess, chComma, chGreater], c.toNat < 2 ^ 8 := by
    simp [chLess, chComma, chGreater]
  rcases (lzText_encodes s w).chars x hx with hmark | hdigit | hmem
  · exact (hmarks x hmark).trans_le hwide
  · simp [isDigit, chZero, chNine] at hdigit
    omega
  · exact hs x hmem

/-- What LZ_DECODE computes right after LZ_ENCODE's commit: the text that was encoded. -/
theorem fLzDecode_after_lzEncode {s t : State} {x : List Word} (h : s.Inv)
    (hseq : s.inputs.seq .bstr s.inputs.regs.bstrLen.toNat = .ok x)
    (hfit : s.inputs.regs.bstrLen.toNat ≤ s.params.bstrDepth) (w : BitVec 8)
    (hroom : (lzText x w.toNat).length ≤ s.params.tokDepth) (ht : s.CommitsText t .tok (lzText x w.toNat)) (v : Word) :
    fLzDecode s.params (t.accept v).inputs = .ok { writes := textWrites .bstr x, tail := 0, trunc := none } := by
  have htoks : t.capture.Holds .tok (lzText x w.toNat) :=
    ht.wrote.holds (ht.frame.params.symm ▸ lzText_lt h.params (h.text_lt (m := .bstr) hseq) w.toNat)
  have htokLen : t.regs.tokLen.toNat = (lzText x w.toNat).length :=
    toNat_of_committed ht.wrote.1 hroom (TextMem.depth_le h.params .tok)
  have hlen := ((s.inputs.seq_eq_ok .bstr _ x).1 hseq).1
  exact fLzDecode_of_decodes htokLen htoks hroom (lzText_decodes x (w.isLt.trans (by decide))) (hlen.trans_le hfit)

/-- Settles O29: LZ_DECODE's result is the text, whose characters BSTR holds unchanged. -/
theorem lz77RoundTrip : Obligations.Lz77RoundTrip := by
  intro s t h hexec herr
  obtain ⟨out, hout, rfl⟩ := exists_ok_of_err_ok hexec herr
  obtain ⟨hfit, x, hseq, hroom, hw⟩ := (fLzEncode_eq_ok _ _ _).1 hout
  have henc : s.CommitsText (s.commitOk out) .tok (lzText x s.inputs.regs.window.toNat) :=
    s.commitOk_commitsText (congrArg Outputs.writes hw)
  have hresult := fLzDecode_after_lzEncode h hseq hfit _ hroom henc (encode .lzDecode)
  rw [← henc.frame.params] at hresult
  obtain ⟨u, hu, hsucc, hdec⟩ := exec_commitsText (i := .lzDecode) hresult
  have hparams : u.params = s.params := hdec.frame.params.trans henc.frame.params
  obtain ⟨hlen, htext⟩ := (s.inputs.seq_eq_ok .bstr _ x).1 hseq
  have hheld : u.capture.Holds .bstr x := hdec.wrote.holds (hparams.symm ▸ h.text_lt (m := .bstr) hseq)
  refine ⟨u, hu, hsucc, ?_, fun k hk => ?_⟩
  · have hbstrLen : u.regs.bstrLen = BitVec.ofNat 32 x.length := hdec.wrote.1
    rw [hbstrLen, hlen, BitVec.ofNat_toNat, BitVec.setWidth_eq]
  · exact (hheld k (hlen ▸ hk)).trans (htext k (hlen ▸ hk)).symm

end Sys2Proof.Machine

namespace Sys2Proof.Machine

/-! ### Illegal command words (spec/43_pipeline.md R233) -/

theorem commandWordWf_encode (i : Instr) : commandWordWf (encode i) = true := by cases i <;> decide

/-- The decoder rejects every illegal word. -/
theorem exists_decode_error {v : Word} (h : commandWordWf v = false) : ∃ r, decode v = .error r := by
  cases hd : decode v with
  | error r => exact ⟨r, rfl⟩
  | ok i =>
    rw [(decode_eq_ok_iff v i).1 hd, commandWordWf_encode] at h
    cases h

/-- On an Idle block the host's write of a word to CMD is its acceptance, whatever the word. -/
theorem step_writeCmd {s : State} (hi : s.phase = .idle) {v : Word} {rest : List Turn}
    (h : s.turns = .bus (.write 0x000008 0xF v) :: rest) :
    step s = .next (State.accept { s with turns := rest } v) :=
  (step_of_turns_cons h).trans ((State.busStep_write_reg { s with turns := rest } .cmd v).trans
    (congrArg _ (State.writeCmd_of_idle (s := { s with turns := rest }) hi v)))

/-- Settles O3: the write is the acceptance, and the engine's step is the failing commit, which reads nothing. -/
theorem illegalWordEndsWithIllegalCmd : Obligations.IllegalWordEndsWithIllegalCmd := by
  intro s v rest hi hv
  obtain ⟨r, hd⟩ := exists_decode_error hv
  have haccept := step_writeCmd (s := { s with turns := .bus (.write 0x000008 0xF v) :: .engine :: rest }) hi rfl
  have hengine : step (State.accept { s with turns := .engine :: rest } v) =
      .next (State.commitFail (State.accept { s with turns := rest } v) .illegalCmd v) :=
    (step_of_turns_cons (s := State.accept { s with turns := .engine :: rest } v) rfl).trans
      (State.engineStep_of_illegal (s := State.accept { s with turns := rest } v) rfl hd)
  obtain ⟨hbusy, hdone, _, _, _, _, _, herr, _⟩ :=
    statusWordLayout.1 (State.commitFail (State.accept { s with turns := rest } v) .illegalCmd v)
  exact ⟨_, _, haccept, State.readReg_status_getElem_zero _, hengine, State.commitFail_failed _ _ _, herr, hbusy, hdone,
    State.commitFail_nothingCommitted _ _ _, rfl, rfl⟩

/-! ### The bitstring COMPRESS writes (spec/43_pipeline.md R221) -/

/-- In a table whose code depends on the rank alone, a symbol's code is that of its rank. -/
theorem codeIn_mapIdx (code : Nat → List Word) {ranked : List (Word × Nat)} {x : Word}
    (hx : x ∈ ranked.map Prod.fst) :
    codeIn (ranked.mapIdx fun k e => ⟨e.1, e.2, code k⟩) x = code ((ranked.map Prod.fst).idxOf x) := by
  induction ranked generalizing code with
  | nil => cases hx
  | cons e ranked ih =>
    rw [List.mapIdx_cons, codeIn, List.map_cons]
    by_cases he : e.1 = x
    · rw [if_pos he, List.idxOf_cons_eq _ he]
    · have hrest : x ∈ ranked.map Prod.fst := (List.mem_cons.1 hx).resolve_left (Ne.symm he)
      rw [if_neg he, ih (fun k => code (k + 1)) hrest, List.idxOf_cons_ne _ he]

theorem mem_rank_tally_fst {t : List Word} {x : Word} : x ∈ (rank (tally t)).map Prod.fst ↔ x ∈ t := by
  rw [((rank_perm (tally t)).map Prod.fst).mem_iff, mem_tally_fst]

/-- The SF_ENCODE stage of COMPRESS concatenates the codes of the ranks. -/
theorem encodeWith_buildTable (t : List Word) :
    encodeWith (buildTable t) t = t.flatMap (codeOf (rank (tally t))) := by
  refine List.flatMap_congr fun x hx => ?_
  rw [buildTable_eq]
  exact codeIn_mapIdx (fun k => closedCode k (rank (tally t)).length) (mem_rank_tally_fst.2 hx)

/-- An alphabet of at most 2^m symbols makes at most m characters of each character of the text. -/
theorem length_flatMap_codeOf_le {ranked : List (Word × Nat)} {m : Nat} (hm : 1 ≤ m) (hsize : ranked.length ≤ 2 ^ m)
    (t : List Word) : (t.flatMap (codeOf ranked)).length ≤ m * t.length := by
  induction t with
  | nil => simp
  | cons x t ih =>
    have hcode : (codeOf ranked x).length ≤ m := length_closedCode_le hm hsize _
    rw [List.flatMap_cons, List.length_append, List.length_cons, Nat.mul_succ]
    omega

/-! ### COMPRESS's errors (spec/43_pipeline.md R223) -/

/-- A text a command reads has at most 2^CHAR_W distinct symbols. -/
theorem State.Inv.length_tally_le {s : State} (h : s.Inv) {n : Nat} {t : List Word}
    (ht : s.inputs.seq .txt n = .ok t) : (tally t).length ≤ 2 ^ s.params.charW := by
  rw [tally_length]
  exact length_le_of_nodup_lt t.nodup_dedup fun x hx => h.text_lt (m := .txt) ht x (List.mem_dedup.1 hx)

/-- Under the default parameters each output fits its memory: at most 256 symbols, 8 characters for each of at most 4096
in BSTR, and 7 for each of those in TOK. -/
theorem State.Inv.compress_default_never_capacity {s : State} (h : s.Inv) (hp : s.params = .default) (info : Word) :
    fCompress s.params s.inputs ≠ .error (.raised .capacity info) := by
  intro he
  rcases (fCompress_eq_error _ _ _).1 he with ⟨_, e⟩ | ⟨hfit, ⟨_, e⟩ | ⟨_, e | ⟨t, ht, hfull⟩⟩⟩
  · cases e
  · cases e
  · exact s.inputs.seq_never_raises _ _ _ _ e
  · have htally := h.length_tally_le ht
    have hlen := ((s.inputs.seq_eq_ok .txt _ t).1 ht).1
    rw [hp] at htally
    have hbits := length_flatMap_codeOf_le (m := 8) (by decide) ((rank_length _).trans_le htally) t
    have htoks := lzText_length_le (t.flatMap (codeOf (rank (tally t)))) s.inputs.regs.window.isLt
    rw [encodeWith_buildTable, hp] at hfull
    simp only [hp, Params.default] at hfit hfull htally
    omega

/-- Settles O31: each condition picks its disjunct of what stops the result, and the outputs' lengths are bounded under
the default parameters. -/
theorem compressErrors : Obligations.CompressErrors := by
  refine fun s => ⟨fun hlong => ?_, fun hempty => ?_, fun text b tok hlen htext hfit hb henc => ?_,
    raisesOnly_of_raises fun _ _ => fCompress_raises, fun h hp => raisesOnly_of_raises fun code info he => ?_⟩
  · exact failsWith_of_raised ((fCompress_eq_error _ _ _).2 (.inl ⟨hlong, rfl⟩))
  · exact failsWith_of_raised ((fCompress_eq_error _ _ _).2 (.inr ⟨by omega, .inl ⟨hempty, rfl⟩⟩))
  · subst hb
    obtain rfl := (lzText_encodes _ _).unique henc
    have hseq := (s.inputs.seq_eq_ok .txt _ text).2 ⟨hlen.symm, htext⟩
    have hle := (List.dedup_sublist text).length_le
    rw [← tally_length] at hle ⊢
    rw [← encodeWith_buildTable]
    -- Once the text is read, only the three capacity checks are left to stop the command.
    have fails {info : Word} (hpos : text ≠ []) (hstop : _) : s.FailsWith .compress .capacity info :=
      failsWith_of_raised ((fCompress_eq_error _ _ _).2 (.inr ⟨hlen ▸ hfit,
        .inr ⟨hlen ▸ (List.length_pos_iff.2 hpos).ne', .inr ⟨text, hseq, hstop⟩⟩⟩))
    refine ⟨fun hct => fails ?_ (.inl ⟨hct, rfl⟩), fun hne hct hbits => fails hne (.inr ⟨hct, .inl ⟨hbits, rfl⟩⟩),
      fun hne hct hbits htoks => fails hne (.inr ⟨hct, .inr ⟨hbits, htoks, rfl⟩⟩)⟩
    exact List.length_pos_iff.1 (by omega)
  · have hne : code ≠ .capacity := fun e => h.compress_default_never_capacity hp info (e ▸ he)
    simpa [hne] using fCompress_raises he

/-! ### DECOMPRESS's errors (spec/43_pipeline.md R230) -/

/-- Settles O34: each condition picks its disjunct of what stops the result. -/
theorem decompressErrors : Obligations.DecompressErrors := by
  refine fun s => ⟨fun hlong => ?_, fun info hlen h => decompress_failsWith_badTable h hlen,
    fun rows tok b tr rs tl hrows hv hlen htok hfit hdec hparse => ?_,
    raisesOnly_of_raises fun _ _ => fDecompress_raises⟩
  · exact failsWith_of_raised ((fDecompress_eq_error _ _ _).2 (.inl ⟨hlong, rfl⟩))
  · have hseq := (s.inputs.seq_eq_ok .tok _ tok).2 ⟨hlen.symm, htok⟩
    -- Once the token text is read, only the two capacity checks are left to stop the command.
    have fails {info : Word} (hstop : _) : s.FailsWith .decompress .capacity info :=
      failsWith_of_raised ((fDecompress_eq_error _ _ _).2 (.inr ⟨hlen ▸ hfit,
        .inr ⟨hrows.tableOk_ok hv, .inr ⟨tok, hseq, hstop⟩⟩⟩))
    refine ⟨fun hfull => fails (.inl ⟨hdec.lt_length_lzDecode hfull, rfl⟩), fun hroom hfull => ?_⟩
    have hlz := hdec.lzDecode_eq hroom
    refine fails (info := memIdTxt) (.inr ⟨?_, .inr ⟨(rs.map TableRow.sym, tl.length), ?_, ?_, rfl⟩⟩)
    · rwa [hlz]
    · rw [hlz]; exact hrows.scanBits_eq hv.valid hparse
    · rwa [List.length_map]

end Sys2Proof.Machine

namespace Sys2Proof.Machine

/-! ### Commits one after another (spec/40_host_interface.md R113, R119) -/

/-- The state with the command word and completion record of `r`, and another phase: all that acceptance and a commit
set besides the outputs. -/
def State.withRecord (s : State) (r : Regs) (phase : Phase) : State :=
  { s with
    regs := { s.regs with
      cmd := r.cmd, status := r.status, errInfo := r.errInfo, tailBits := r.tailBits, truncPos := r.truncPos }
    phase := phase }

/-- The state with another word in CMD. -/
def State.withCmd (s : State) (v : Word) : State := { s with regs := { s.regs with cmd := v } }

section
variable (s : State) (r : Regs) (phase : Phase)

theorem State.writeLoc_withRecord (l : Loc) (v : Word) :
    (s.withRecord r phase).writeLoc l v = (s.writeLoc l v).withRecord r phase := by
  cases l <;> rfl

theorem State.applyWrites_withRecord (ws : List (Loc × Word)) :
    (s.withRecord r phase).applyWrites ws = (s.applyWrites ws).withRecord r phase := by
  induction ws generalizing s with
  | nil => rfl
  | cons w ws ih => rw [State.applyWrites_cons, State.writeLoc_withRecord, ih, State.applyWrites_cons]

/-- A commit sets the whole record and the phase; of the old ones it keeps CMD, OVR and ACC. -/
theorem State.commitOk_withRecord (out : Outputs) (hovr : r.status.ovr = s.regs.status.ovr)
    (hacc : r.status.acc = s.regs.status.acc) :
    (s.withRecord r phase).commitOk out = (s.commitOk out).withCmd r.cmd := by
  rw [State.commitOk, State.applyWrites_withRecord]
  simp [State.commitOk, State.withRecord, State.withCmd, Status.committedOk, hovr, hacc]

end

/-- The outputs of two commits in sequence may be committed at once: the second sets the record again. -/
theorem State.commitOk_commitOk (s : State) (us ws : List (Loc × Word)) (tail tail' : Nat)
    (trunc trunc' : Option (TruncCause × Nat)) :
    (s.commitOk ⟨us, tail', trunc'⟩).commitOk ⟨ws, tail, trunc⟩ = s.commitOk ⟨us ++ ws, tail, trunc⟩ := by
  refine ((s.applyWrites us).commitOk_withRecord (s.commitOk ⟨us, tail', trunc'⟩).regs .idle _ rfl rfl).trans ?_
  simp [State.commitOk, State.withCmd, State.applyWrites_append]

/-- The commit of a text's code table, as BUILD's. -/
def State.commitTable (s : State) (text : List Word) : State := s.commitOk ⟨buildWrites text, 0, none⟩

/-- The commit of one text, with a record of no warning. -/
def State.commitText (s : State) (m : TextMem) (xs : List Word) : State := s.commitOk ⟨textWrites m xs, 0, none⟩

section
variable (s : State) (v : Word) (m : TextMem) (xs : List Word)

theorem State.commitText_commitsText : s.CommitsText (s.commitText m xs) m xs := s.commitOk_commitsText rfl

theorem State.commitText_withCmd : (s.withCmd v).commitText m xs = (s.commitText m xs).withCmd v :=
  s.commitOk_withRecord { s.regs with cmd := v } s.phase _ rfl rfl

/-- After the commit, the acceptance before it shows in CMD alone. -/
theorem State.commitText_accept : (s.accept v).commitText m xs = (s.commitText m xs).withCmd v :=
  s.commitOk_withRecord (s.accept v).regs (s.accept v).phase _ rfl rfl

end

end Sys2Proof.Machine

namespace Sys2Proof.Machine

/-! ### What a commit of a text leaves of the outputs before it -/

theorem TextMem.cell_ne {m m' : TextMem} (h : m' ≠ m) (j k : Nat) : m'.cell j ≠ m.cell k := by
  cases m <;> cases m' <;> simp [TextMem.cell] at h ⊢

section
variable {s t : State} {m : TextMem} {xs : List Word} (h : s.CommitsText t m xs)
include h

theorem State.CommitsText.read_other {c : Cell} (hc : ∀ k, c ≠ m.cell k) : t.mems.read c = s.mems.read c := by
  refine h.mems c fun e he k _ => ?_
  obtain rfl := List.mem_singleton.1 he
  exact hc k

/-- A text in another memory stays. -/
theorem State.CommitsText.keeps_text {m' : TextMem} (hne : m' ≠ m) {ys : List Word}
    (hw : s.Wrote m'.cell ys (m'.lenOf s.regs)) : t.Wrote m'.cell ys (m'.lenOf t.regs) := by
  refine ⟨(h.lens m' hne).trans hw.1, fun k y hy => ?_⟩
  rw [h.read_other (TextMem.cell_ne hne k), h.frame.params]
  exact hw.2 k y hy

/-- The code table stays. -/
theorem State.CommitsText.keeps_table {ranked : List (Word × Nat)} (hw : s.WroteTable ranked) :
    t.WroteTable ranked := by
  refine ⟨h.alphaN.trans hw.1, fun k e hk => ?_⟩
  rw [h.read_other (c := .ctSym k), h.read_other (c := .ctFreq k), h.read_other (c := .ctLen k),
    h.read_other (c := .ctBits k), h.frame.params]
  · exact hw.2 k e hk
  all_goals cases m <;> simp [TextMem.cell]

end

theorem State.CommitFrame.trans {s t u : State} (h : s.CommitFrame t) (h' : t.CommitFrame u) : s.CommitFrame u where
  params := h'.params.trans h.params
  irqEn := h'.irqEn.trans h.irqEn
  cmd := h'.cmd.trans h.cmd
  window := h'.window.trans h.window
  ovr := h'.ovr.trans h.ovr
  acc := h'.acc.trans h.acc
  turns := h'.turns.trans h.turns
  returned := h'.returned.trans h.returned
  draws := h'.draws.trans h.draws

theorem State.MemoryFrame.trans {s t u : State} {ms ms' : List ((Nat → Cell) × Nat)} (h : s.MemoryFrame t ms)
    (h' : t.MemoryFrame u ms') : s.MemoryFrame u (ms ++ ms') := fun c hc =>
  (h' c fun m hm => hc m (List.mem_append_right _ hm)).trans (h c fun m hm => hc m (List.mem_append_left _ hm))

/-! ### DECOMPRESS (spec/43_pipeline.md R228, R229) -/

/-- What DECOMPRESS computes on a token text whose decoding parses, when both outputs fit. -/
theorem fDecompress_of_parse {p : Params} {snap : Snapshot} {rows rs : List TableRow} {tok b tl : List Word}
    {tr : Option (TruncCause × Nat)} (hrows : snap.HoldsTable rows) (hv : TableValid p rows)
    (hlen : snap.regs.tokLen.toNat = tok.length) (htok : snap.Holds .tok tok) (hfit : tok.length ≤ p.tokDepth)
    (hdec : DecodesFrom tok 0 [] b tr) (hbits : b.length ≤ p.bstrDepth) (hparse : BitParse rows b rs tl)
    (htxt : rs.length ≤ p.txtDepth) :
    fDecompress p snap =
      .ok ⟨textWrites .bstr b ++ textWrites .txt (rs.map TableRow.sym), tl.length, tr⟩ := by
  have hseq := (snap.seq_eq_ok .tok _ tok).2 ⟨hlen.symm, htok⟩
  have hlz := hdec.lzDecode_eq hbits
  refine (fDecompress_eq_ok p snap _).2 ⟨hlen ▸ hfit, hrows.tableOk_ok hv, tok, hseq, ?_,
    (rs.map TableRow.sym, tl.length), ?_, (List.length_map _).trans_le htxt, ?_⟩ <;> rw [hlz]
  · exact hbits
  · exact hrows.scanBits_eq hv.valid hparse
  · rfl

/-- Settles O33: the commit is that of the bitstring and then that of the text. -/
theorem decompressWritesBitstringAndText : Obligations.DecompressWritesBitstringAndText := by
  intro s rows tok b tr rs tl hrows hv hlen htok hfit hdec hbits hparse htxt
  have hexec := exec_of_ok (i := .decompress) (fDecompress_of_parse hrows hv hlen htok hfit hdec hbits hparse htxt)
  rw [← State.commitOk_commitOk s _ _ _ 0 _ none] at hexec
  have hbstr := s.commitText_commitsText .bstr b
  have htext := (s.commitText .bstr b).commitOk_commitsText
    (out := ⟨textWrites .txt (rs.map TableRow.sym), tl.length, tr⟩) rfl
  have hframe := hbstr.mems.trans htext.mems
  rw [List.length_map] at hframe
  exact ⟨_, hexec, State.commitOk_succeeded _ _, htext.keeps_text (m' := .bstr) (by decide) hbstr.wrote, htext.wrote,
    hbstr.frame.trans htext.frame, hframe, (htext.lens .tok (by decide)).trans (hbstr.lens .tok (by decide)),
    htext.alphaN.trans hbstr.alphaN⟩

/-! ### COMPRESS (spec/43_pipeline.md R221, R222) -/

/-- What COMPRESS reads and computes when it succeeds: a text that fits, its bitstring by the ranked alphabet, and the
token text of that, each within its memory. -/
structure Snapshot.Compresses (p : Params) (snap : Snapshot) (text b tok : List Word) : Prop where
  size : snap.regs.txtLen.toNat = text.length
  held : snap.Holds .txt text
  nonempty : text ≠ []
  txtFits : text.length ≤ p.txtDepth
  ctFits : text.dedup.length ≤ p.ctDepth
  bits : b = text.flatMap (codeOf (rank (tally text)))
  bstrFits : b.length ≤ p.bstrDepth
  tokens : EncodesFrom b snap.regs.window.toNat 0 tok
  tokFits : tok.length ≤ p.tokDepth

/-- A COMPRESS that succeeds is one of these. -/
theorem exists_compresses {p : Params} {snap : Snapshot} {out : Outputs} (h : fCompress p snap = .ok out) :
    ∃ text b tok, snap.Compresses p text b tok := by
  obtain ⟨hfit, hne, text, hseq, hct, hbits, htoks, _⟩ := (fCompress_eq_ok _ _ _).1 h
  obtain ⟨hlen, hheld⟩ := (snap.seq_eq_ok .txt _ text).1 hseq
  exact ⟨text, _, _, hlen.symm, hheld, List.ne_nil_of_length_pos (by omega), hlen.trans_le hfit,
    (tally_length text).symm.trans_le hct, encodeWith_buildTable text, hbits, lzText_encodes _ _, htoks⟩

section
variable {p : Params} {snap : Snapshot} {text b tok : List Word} (h : snap.Compresses p text b tok)
include h

theorem Snapshot.Compresses.seq : snap.seq .txt snap.regs.txtLen.toNat = .ok text :=
  (snap.seq_eq_ok .txt _ text).2 ⟨h.size.symm, h.held⟩

theorem Snapshot.Compresses.txtLen_ne_zero : snap.regs.txtLen.toNat ≠ 0 :=
  h.size.trans_ne (List.length_pos_iff.2 h.nonempty).ne'

theorem Snapshot.Compresses.fBuild_eq : fBuild p snap = .ok ⟨buildWrites text, 0, none⟩ :=
  (fBuild_eq_ok _ _ _).2 ⟨h.size.trans_le h.txtFits, h.txtLen_ne_zero, text, h.seq,
    (tally_length text).trans_le h.ctFits, rfl⟩

theorem Snapshot.Compresses.fCompress_eq :
    fCompress p snap = .ok ⟨buildWrites text ++ textWrites .bstr b ++ textWrites .tok tok, 0, none⟩ := by
  obtain rfl := h.bits.trans (encodeWith_buildTable text).symm
  obtain rfl := (lzText_encodes _ _).unique h.tokens
  exact (fCompress_eq_ok _ _ _).2 ⟨h.size.trans_le h.txtFits, h.txtLen_ne_zero, text, h.seq,
    (tally_length text).trans_le h.ctFits, h.bstrFits, h.tokFits, rfl⟩

theorem Snapshot.Compresses.bits_chars : ∀ x ∈ b, x = chZero ∨ x = chOne := by
  rw [h.bits]
  intro x hx
  obtain ⟨_, _, hcode⟩ := List.mem_flatMap.1 hx
  exact closedCode_chars _ _ x hcode

end

section
variable {s : State} {text b tok : List Word} (h : s.inputs.Compresses s.params text b tok)
include h

theorem Snapshot.Compresses.exec_build : exec .build s = .next (s.commitTable text) :=
  exec_of_ok (i := .build) h.fBuild_eq

/-- COMPRESS commits what BUILD commits, then the bitstring, then the token text. -/
theorem Snapshot.Compresses.exec_compress :
    exec .compress s = .next (((s.commitTable text).commitText .bstr b).commitText .tok tok) := by
  rw [State.commitTable, State.commitText, State.commitText, State.commitOk_commitOk, State.commitOk_commitOk,
    ← List.append_assoc]
  exact exec_of_ok (i := .compress) h.fCompress_eq

end

/-- Settles O30: BUILD's commit is that of O6, and the two texts are committed after it. -/
theorem compressWritesItsThreeOutputs : Obligations.CompressWritesItsThreeOutputs := by
  intro s text b tok hlen htext hne hfit hct hb hbits henc htoks
  have hc : s.inputs.Compresses s.params text b tok := ⟨hlen, htext, hne, hfit, hct, hb, hbits, henc, htoks⟩
  obtain ⟨t, hbuild, _, htable, halpha, hframe, hmems, htxtLen, _⟩ :=
    buildWritesTheCodeTable s text hlen htext hne hfit hct
  obtain rfl := Host.Outcome.next.inj (hbuild.symm.trans hc.exec_build)
  have hbstr := (s.commitTable text).commitText_commitsText .bstr b
  have htok := ((s.commitTable text).commitText .bstr b).commitText_commitsText .tok tok
  exact ⟨_, hc.exec_compress, State.commitOk_succeeded _ _, htok.keeps_table (hbstr.keeps_table htable),
    htok.alphaN.trans (hbstr.alphaN.trans halpha), htok.keeps_text (m' := .bstr) (by decide) hbstr.wrote, htok.wrote,
    (hframe.trans hbstr.frame).trans htok.frame, (hmems.trans hbstr.mems).trans htok.mems,
    (htok.lens .txt (by decide)).trans ((hbstr.lens .txt (by decide)).trans htxtLen)⟩

end Sys2Proof.Machine

namespace Sys2Proof.Machine

/-! ### The table COMPRESS leaves (spec/43_pipeline.md R225, R234) -/

/-- What a command with a table reads of it is its size and R84's fields. -/
theorem Snapshot.HoldsTable.congr {snap snap' : Snapshot} {rows : List TableRow} (h : snap.HoldsTable rows)
    (hsize : snap'.regs.alphaN = snap.regs.alphaN)
    (hread : ∀ c, TableReads snap.regs c → snap'.mems.read c = snap.mems.read c) : snap'.HoldsTable rows := by
  refine ⟨hsize ▸ h.size, fun k r hk => ?_⟩
  have hlt : k < snap.regs.alphaN.toNat := h.size ▸ (List.getElem?_eq_some_iff.1 hk).1
  rw [hread _ ⟨k, hlt, .inl rfl⟩, hread _ ⟨k, hlt, .inr (.inl rfl)⟩, hread _ ⟨k, hlt, .inr (.inr rfl)⟩]
  exact h.entries k r hk

/-- Every symbol of a ranked alphabet has its row in CT, with its code. -/
theorem exists_builtRow {p : Params} {ranked : List (Word × Nat)} (hsize : ranked.length ≤ 2 ^ 16) {x : Word}
    (hx : x ∈ ranked.map Prod.fst) (hlt : x.toNat < 2 ^ p.charW) :
    ∃ r ∈ builtRows p ranked, r.sym = x ∧ r.code = codeOf ranked x := by
  have hmem := List.idxOf_lt_length_iff.2 hx
  have hk : (ranked.map Prod.fst).idxOf x < ranked.length := hmem.trans_eq (List.length_map _)
  have hsym : ranked[(ranked.map Prod.fst).idxOf x].1 = x := by
    rw [← List.getElem_map Prod.fst (h := hmem), List.getElem_idxOf]
  refine ⟨_, List.mem_mapIdx.2 ⟨_, hk, rfl⟩, ?_, builtRow_code hsize _ _⟩
  exact (congrArg _ hsym).trans (storedBits_of_lt p (.ctSym _) x hlt)

theorem State.Inv.inputs_txtLen {s : State} (h : s.Inv) : s.inputs.regs.txtLen = s.regs.txtLen := by
  cases hphase : s.phase with
  | idle => rw [s.inputs_of_idle hphase, s.capture_regs]
  | busy v snap => rw [s.inputs_of_busy v snap hphase, (h.inFlight v snap hphase).txtLen]

theorem State.Inv.inputs_window {s : State} (h : s.Inv) : s.inputs.regs.window = s.regs.window := by
  cases hphase : s.phase with
  | idle => rw [s.inputs_of_idle hphase, s.capture_regs]
  | busy v snap => rw [s.inputs_of_busy v snap hphase, (h.inFlight v snap hphase).window]

section
variable {s : State} {text b tok : List Word} (h : s.Inv) (hc : s.inputs.Compresses s.params text b tok)
include h hc

theorem Snapshot.Compresses.text_lt : ∀ x ∈ text, x.toNat < 2 ^ s.params.charW := h.text_lt (m := .txt) hc.seq

theorem Snapshot.Compresses.length_rank_le : (rank (tally text)).length ≤ 2 ^ 16 := by
  have hbounds := Params.wf_bounds h.params
  have hct := hc.ctFits
  rw [rank_length, tally_length]
  omega

theorem Snapshot.Compresses.tableValid : TableValid s.params (builtRows s.params (rank (tally text))) :=
  tableValid_builtRows h.params hc.nonempty ((tally_length text).trans_le hc.ctFits) (hc.text_lt h)

theorem Snapshot.Compresses.exists_row {x : Word} (hx : x ∈ text) :
    ∃ r ∈ builtRows s.params (rank (tally text)), r.sym = x ∧ r.code = codeOf (rank (tally text)) x :=
  exists_builtRow (hc.length_rank_le h) (mem_rank_tally_fst.2 hx) (hc.text_lt h x hx)

theorem Snapshot.Compresses.known : ∀ x ∈ text, ∃ r ∈ builtRows s.params (rank (tally text)), r.sym = x := fun _ hx =>
  (hc.exists_row h hx).imp fun _ hr => ⟨hr.1, hr.2.1⟩

theorem Snapshot.Compresses.tok_lt : ∀ x ∈ tok, x.toNat < 2 ^ s.params.charW := by
  obtain rfl := (lzText_encodes _ _).unique hc.tokens
  exact lzText_lt h.params (bitChars_lt h.params hc.bits_chars) _

/-- The bitstring is what the rows in CT encode the text as. -/
theorem Snapshot.Compresses.bits_eq : text.flatMap (rowCode (builtRows s.params (rank (tally text)))) = b := by
  rw [hc.bits]
  refine List.flatMap_congr fun x hx => ?_
  obtain ⟨r, hr, rfl, hcode⟩ := hc.exists_row h hx
  rw [rowCode_of_mem (hc.tableValid h).valid hr, hcode]

end

/-! ### The stages as commands of their own (R225) -/

section
variable {s t : State} {text b tok : List Word} (h : s.Inv) (hc : s.inputs.Compresses s.params text b tok)
include h hc

/-- What SF_ENCODE computes right after BUILD's commit: the bitstring of COMPRESS. -/
theorem fSfEncode_after_build (v : Word) :
    fSfEncode s.params ((s.commitTable text).accept v).inputs = .ok ⟨textWrites .bstr b, 0, none⟩ := by
  have hsize := hc.length_rank_le h
  have hparams : (s.commitTable text).params = s.params := s.commitOk_params _
  have hwrote : (s.commitTable text).WroteTable (rank (tally text)) :=
    s.commitOk_build_wroteTable rfl ((rank_length _).symm.trans_le (hsize.trans (by decide)))
  have htable : ((s.commitTable text).accept v).inputs.HoldsTable (builtRows s.params (rank (tally text))) :=
    hparams ▸ (hwrote.holdsTable hsize).congr rfl fun _ _ => rfl
  have hheld : (s.commitTable text).capture.Holds .txt text := fun k hk => by
    rw [← hc.held k hk, h.inputs_mems]
    exact s.commitOk_build_frame rfl (by simp)
  have hlen : (s.commitTable text).regs.txtLen.toNat = text.length := by
    rw [← hc.size, h.inputs_txtLen, State.commitTable, State.commitOk_txtLen, State.applyWrites_build_regs]
  have hencode := htable.encodeFrom_ok (hc.tableValid h).valid (hc.known h)
  rw [hc.bits_eq h] at hencode
  exact (fSfEncode_eq_ok _ _ _).2 ⟨hlen.trans_le hc.txtFits, htable.tableOk_ok (hc.tableValid h), text,
    (Snapshot.seq_eq_ok _ .txt _ text).2 ⟨hlen.symm, hheld⟩, b, hencode, hc.bstrFits, rfl⟩

/-- What LZ_ENCODE computes right after the bitstring's commit: the token text of COMPRESS. -/
theorem fLzEncode_after_sfEncode {u : State} (hparams : u.params = s.params) (hwindow : u.regs.window = s.regs.window)
    (hu : u.CommitsText t .bstr b) (v : Word) :
    fLzEncode s.params (t.accept v).inputs = .ok ⟨textWrites .tok tok, 0, none⟩ := by
  have htparams : t.params = s.params := hu.frame.params.trans hparams
  have hheld : t.capture.Holds .bstr b := hu.wrote.holds (bitChars_lt (htparams ▸ h.params) hc.bits_chars)
  have hlen : t.regs.bstrLen.toNat = b.length :=
    toNat_of_committed hu.wrote.1 hc.bstrFits (TextMem.depth_le h.params .bstr)
  have htokens := hc.tokens
  rw [h.inputs_window, ← hwindow, ← hu.frame.window] at htokens
  obtain rfl := (lzText_encodes _ _).unique htokens
  exact (fLzEncode_eq_ok _ _ _).2 ⟨hlen.trans_le hc.bstrFits, b,
    (Snapshot.seq_eq_ok _ .bstr _ b).2 ⟨hlen.symm, hheld⟩, hc.tokFits, rfl⟩

end

/-- Settles O32: COMPRESS's commit is the three stages' commits in sequence, and acceptance between them changes CMD
alone. -/
theorem compressEqualsItsStages : Obligations.CompressEqualsItsStages := by
  intro s t h hexec herr
  obtain ⟨out, hout, -⟩ := exists_ok_of_err_ok hexec herr
  obtain ⟨text, b, tok, hc⟩ := exists_compresses hout
  obtain rfl := Host.Outcome.next.inj (hc.exec_compress.symm.trans hexec)
  have hframe := exec_frame hc.exec_build
  have hbstr := ((s.commitTable text).accept (encode .sfEncode)).commitText_commitsText .bstr b
  have hsf := fSfEncode_after_build h hc (encode .sfEncode)
  have hlz := fLzEncode_after_sfEncode (u := (s.commitTable text).accept _) h hc hframe.params hframe.window hbstr
    (encode .lzEncode)
  rw [← hframe.params] at hsf
  rw [← hbstr.frame.params.trans hframe.params] at hlz
  have hcommits :
      ((((s.commitTable text).accept (encode .sfEncode)).commitText .bstr b).accept (encode .lzEncode)).commitText
          .tok tok =
        (((s.commitTable text).commitText .bstr b).commitText .tok tok).withCmd (encode .lzEncode) := by
    rw [State.commitText_accept, State.commitText_accept, State.commitText_withCmd]
    rfl
  refine ⟨_, _, _, hc.exec_build, s.commitOk_succeeded _, exec_of_ok (i := .sfEncode) hsf, State.commitOk_succeeded _ _,
    (exec_of_ok (i := .lzEncode) hlz).trans (congrArg _ hcommits), ?_, ?_⟩
  · exact hcommits ▸ State.commitOk_succeeded _ _
  · exact ⟨rfl, rfl, rfl, rfl, rfl, rfl⟩

/-! ### DECOMPRESS after COMPRESS (R234) -/

/-- What DECOMPRESS computes where the table and token text of a COMPRESS stand: the bitstring and text it read. -/
theorem fDecompress_after_compress {s t : State} {snap : Snapshot} {text b tok : List Word} (h : s.Inv)
    (hc : s.inputs.Compresses s.params text b tok) (hparams : t.params = s.params)
    (htable : t.WroteTable (rank (tally text))) (htok : t.Wrote .tok tok t.regs.tokLen)
    (htokLen : snap.regs.tokLen = t.regs.tokLen) (halpha : snap.regs.alphaN = t.regs.alphaN)
    (hreads : ∀ c, CommandReads t.regs .decompress c → snap.mems.read c = t.mems.read c) :
    fDecompress s.params snap = .ok ⟨textWrites .bstr b ++ textWrites .txt text, 0, none⟩ := by
  have hrows : snap.HoldsTable (builtRows s.params (rank (tally text))) :=
    hparams ▸ (htable.holdsTable (hc.length_rank_le h)).congr halpha fun c hc => hreads c (.inr hc)
  have hlen : t.regs.tokLen.toNat = tok.length :=
    toNat_of_committed htok.1 hc.tokFits (TextMem.depth_le h.params .tok)
  have hheld : snap.Holds .tok tok := fun k hk =>
    (hreads _ (.inl ⟨k, hlen ▸ hk, rfl⟩)).trans (htok.holds (m := .tok) (hparams ▸ hc.tok_lt h) k hk)
  have hdec : DecodesFrom tok 0 [] b none := hc.tokens.decodes (s.inputs.regs.window.isLt.trans (by decide)) []
  obtain ⟨rs, hparse, rfl⟩ := (hc.tableValid h).valid.bitParse_codes (hc.known h)
  rw [hc.bits_eq h] at hparse
  exact fDecompress_of_parse hrows (hc.tableValid h) (htokLen ▸ hlen) hheld hc.tokFits hdec hc.bstrFits hparse
    ((List.length_map _).symm.trans_le hc.txtFits)

/-- Settles O35: O30 says what COMPRESS leaves in CT and TOK, which DECOMPRESS decodes to the text. -/
theorem compressDecompressRoundTrip : Obligations.CompressDecompressRoundTrip := by
  intro s t u h hexec herr hparams htokLen halpha hreads
  obtain ⟨out, hout, -⟩ := exists_ok_of_err_ok hexec herr
  obtain ⟨text, b, tok, hc⟩ := exists_compresses hout
  obtain ⟨t', hexec', _, htable, _, _, htok, hframe, _⟩ := compressWritesItsThreeOutputs s text b tok hc.size hc.held
    hc.nonempty hc.txtFits hc.ctFits hc.bits hc.bstrFits hc.tokens hc.tokFits
  obtain rfl := Host.Outcome.next.inj (hexec'.symm.trans hexec)
  have hresult := fDecompress_after_compress h hc hframe.params htable htok htokLen halpha hreads
  rw [hframe.params] at hparams
  rw [← hparams] at hresult
  have hdecompress := exec_of_ok (i := .decompress) hresult
  rw [← State.commitOk_commitOk u _ _ _ 0 _ none] at hdecompress
  have hbstr := u.commitText_commitsText .bstr b
  have htxt := (u.commitText .bstr b).commitText_commitsText .txt text
  have hwide := hc.text_lt h
  rw [← hparams, ← hbstr.frame.params, ← htxt.frame.params] at hwide
  refine ⟨_, hdecompress, State.commitOk_succeeded _ _, ?_, fun k hk => ?_⟩
  · exact htxt.wrote.1.trans (by rw [← hc.size, BitVec.ofNat_toNat, BitVec.setWidth_eq])
  · rw [hc.size] at hk
    exact (htxt.wrote.holds hwide k hk).trans (hc.held k hk).symm

end Sys2Proof.Machine

namespace Sys2Proof.Machine

/-! ### The protocol flags (spec/60_exceptions.md R245) -/

/-- The accesses that set ACC on a Busy block: a write of WINDOW, of a length register or of ALPHA_N (R115), and an
access to a memory word (R74). -/
def AccAccess (p : Params) (turn : Option Turn) : Prop :=
  ∃ a, ((∃ v, turn = some (.bus (.write a 0xF v))) ∧ a ∈ [0x000014, 0x000018, 0x00001C, 0x000020, 0x000024] ∨
    ((∃ v, turn = some (.bus (.write a 0xF v))) ∨ turn = some (.bus (.read a 0xF))) ∧ ∃ c, targetOf p a = .cell c)

/-- The two resets, as turns: a hard reset, and a CTRL write with SOFT_RESET (R117). -/
def ResetTurn (turn : Option Turn) : Prop :=
  turn = some .hardReset ∨ ∃ v : Word, turn = some (.bus (.write 0x000004 0xF v)) ∧ v[1] = true

/-- Everything a turn can do to OVR and ACC, from STATUS `st` before it to `st'` after it. -/
inductive FlagStep (p : Params) (busy : Bool) (turn : Option Turn) (st st' : Status) : Prop
  /-- Most turns, acceptance and commits among them. -/
  | kept (hovr : st'.ovr = st.ovr) (hacc : st'.acc = st.acc)
  /-- R114. -/
  | setOvr (hb : busy = true) (v : Word) (hturn : turn = some (.bus (.write 0x000008 0xF v))) (hst : st' = st.setOvr)
  /-- R74, R115. -/
  | setAcc (hb : busy = true) (haccess : AccAccess p turn) (hst : st' = st.setAcc)
  /-- R116. -/
  | w1c (v : Word) (hturn : turn = some (.bus (.write 0x00000C 0xF v))) (hst : st' = st.w1c v)
  /-- R117, R270, R272. -/
  | reset (hreset : ResetTurn turn) (hst : st' = Status.reset)

section
variable {p : Params} {busy : Bool} {turn : Option Turn} {st st' : Status} (h : FlagStep p busy turn st st')
include h

theorem FlagStep.sets_ovr (hlow : st.ovr = false) (hhigh : st'.ovr = true) :
    busy = true ∧ ∃ v, turn = some (.bus (.write 0x000008 0xF v)) := by
  cases h with
  | kept hovr => simp [hovr, hlow] at hhigh
  | setOvr hb v hturn => exact ⟨hb, v, hturn⟩
  | setAcc _ _ hst => simp [hst, hlow] at hhigh
  | w1c v _ hst => simp [hst, hlow] at hhigh
  | reset _ hst => simp [hst, Status.reset] at hhigh

theorem FlagStep.sets_acc (hlow : st.acc = false) (hhigh : st'.acc = true) : busy = true ∧ AccAccess p turn := by
  cases h with
  | kept _ hacc => simp [hacc, hlow] at hhigh
  | setOvr _ _ _ hst => simp [hst, hlow] at hhigh
  | setAcc hb haccess => exact ⟨hb, haccess⟩
  | w1c v _ hst => simp [hst, hlow] at hhigh
  | reset _ hst => simp [hst, Status.reset] at hhigh

theorem FlagStep.clears_ovr (hhigh : st.ovr = true) (hlow : st'.ovr = false) :
    (∃ v : Word, turn = some (.bus (.write 0x00000C 0xF v)) ∧ v[4] = true) ∨ ResetTurn turn := by
  cases h with
  | kept hovr => simp [hovr, hhigh] at hlow
  | setOvr _ _ _ hst => simp [hst] at hlow
  | setAcc _ _ hst => simp [hst, hhigh] at hlow
  | w1c v hturn hst => exact .inl ⟨v, hturn, by simpa [hst, hhigh] using hlow⟩
  | reset hreset => exact .inr hreset

theorem FlagStep.clears_acc (hhigh : st.acc = true) (hlow : st'.acc = false) :
    (∃ v : Word, turn = some (.bus (.write 0x00000C 0xF v)) ∧ v[5] = true) ∨ ResetTurn turn := by
  cases h with
  | kept _ hacc => simp [hacc, hhigh] at hlow
  | setOvr _ _ _ hst => simp [hst, hhigh] at hlow
  | setAcc _ _ hst => simp [hst] at hlow
  | w1c v hturn hst => exact .inl ⟨v, hturn, by simpa [hst, hhigh] using hlow⟩
  | reset hreset => exact .inr hreset

end

/-- No commit touches OVR or ACC (R119, R120). -/
theorem State.CommitFrame.flagStep {s t : State} (h : s.CommitFrame t) {p : Params} {busy : Bool} {turn : Option Turn} :
    FlagStep p busy turn s.regs.status t.regs.status :=
  .kept h.ovr h.acc

section
variable (s : State)

theorem State.configWrite_flagStep {turn : Option Turn} (haccess : AccAccess s.params turn) {r : Regs}
    (hst : r.status = s.regs.status) :
    FlagStep s.params s.busy turn s.regs.status (s.configWrite r).regs.status := by
  unfold State.configWrite
  split
  · next hb => exact .setAcc hb haccess rfl
  · exact .kept (congrArg _ hst) (congrArg _ hst)

theorem State.writeCmd_flagStep (v : Word) :
    FlagStep s.params s.busy (some (.bus (.write Reg.cmd.offset 0xF v))) s.regs.status (s.writeCmd v).regs.status := by
  unfold State.writeCmd
  split
  · next hb => exact .setOvr hb v rfl rfl
  · exact .kept rfl rfl

theorem State.writeCtrl_flagStep (v : Word) :
    FlagStep s.params s.busy (some (.bus (.write Reg.ctrl.offset 0xF v))) s.regs.status (s.writeCtrl v).regs.status := by
  cases hv : v[1] with
  | false =>
    rw [s.writeCtrl_of_no_reset hv]
    exact .kept rfl rfl
  | true =>
    rw [s.writeCtrl_of_reset hv]
    exact .reset (.inr ⟨v, rfl, hv⟩) rfl

theorem State.writeReg_flagStep (r : Reg) (v : Word) :
    FlagStep s.params s.busy (some (.bus (.write r.offset 0xF v))) s.regs.status (s.writeReg r v).regs.status := by
  cases r with
  | ctrl => exact s.writeCtrl_flagStep v
  | cmd => exact s.writeCmd_flagStep v
  | status => exact .w1c v rfl rfl
  | window | txtLen | bstrLen | tokLen | alphaN =>
    exact s.configWrite_flagStep ⟨_, .inl ⟨⟨v, rfl⟩, by decide⟩⟩ rfl
  | _ => exact .kept rfl rfl

theorem State.busWrite_flagStep (a : Addr) (lanes : BitVec 4) (v : Word) :
    FlagStep s.params s.busy (some (.bus (.write a lanes v))) s.regs.status (s.busWrite a lanes v).regs.status := by
  rcases s.busWrite_target_cases a lanes v with e | ⟨rfl, r, rfl, e⟩ | ⟨rfl, c, hc, ⟨hb, e⟩ | ⟨_, e⟩⟩ <;> rw [e]
  · exact .kept rfl rfl
  · exact s.writeReg_flagStep r v
  · exact .setAcc hb ⟨a, .inr ⟨.inl ⟨v, rfl⟩, c, hc⟩⟩ rfl
  · exact .kept rfl rfl

/-- Everything a bus read can do, with the memory word its address names: return a word, with ACC ← 1 and a draw for a
memory word while Busy. -/
theorem State.busRead_target_cases {t : State} {a : Addr} {lanes : BitVec 4} (h : s.busRead a lanes = .next t) :
    (∃ v, t = s.answer v) ∨
    (lanes = 0xF ∧ s.busy = true ∧ ∃ c, targetOf s.params a = .cell c ∧
      t = { s.setAcc.answer (Config.busyRead s.draws) with draws := s.draws + 1 }) := by
  rcases s.busRead_cases t a lanes h with hanswer | ⟨hb, rfl⟩
  · exact .inl hanswer
  · unfold State.busRead at h
    split at h
    · next hwf =>
      split at h
      · exact .inl ⟨_, (Host.Outcome.next.inj h).symm⟩
      · exact .inl ⟨_, (Host.Outcome.next.inj h).symm⟩
      · next c hc => exact .inr ⟨((accessWf_iff a lanes).1 hwf).2, hb, c, hc, rfl⟩
    · exact .inl ⟨_, (Host.Outcome.next.inj h).symm⟩

theorem State.busRead_flagStep {t : State} {a : Addr} {lanes : BitVec 4} (h : s.busRead a lanes = .next t) :
    FlagStep s.params s.busy (some (.bus (.read a lanes))) s.regs.status t.regs.status := by
  rcases s.busRead_target_cases h with ⟨v, rfl⟩ | ⟨rfl, hb, c, hc, rfl⟩
  · exact .kept rfl rfl
  · exact .setAcc hb ⟨a, .inr ⟨.inr rfl, c, hc⟩⟩ rfl

end

/-- Every step moves OVR and ACC as its turn says: a commit keeps both. -/
theorem step_flagStep {s t : State} (h : step s = .next t) :
    FlagStep s.params s.busy s.turns.head? s.regs.status t.regs.status := by
  rcases step_cases s t h with ⟨_, rfl⟩ | ⟨_, _, _, _, _, he⟩ | ⟨v, _, _, _, _, rfl⟩ | ⟨_, _, hturn, hr⟩ |
    ⟨a, lanes, v, hturn, rfl⟩ | ⟨hturn, rfl⟩
  · exact .kept rfl rfl
  · exact (exec_frame he).flagStep
  · exact (s.turnTaken.commitFail_frame .illegalCmd v).flagStep
  · exact hturn ▸ s.turnTaken.busRead_flagStep hr
  · exact hturn ▸ s.turnTaken.busWrite_flagStep a lanes v
  · exact .reset (.inl hturn) rfl

/-- Settles O54: what a step does to the two flags is one `FlagStep`, whose cases name the turn. -/
theorem protocolFlagsAreSticky : Obligations.ProtocolFlagsAreSticky := by
  intro s t hstep
  have h := step_flagStep hstep
  exact ⟨h.sets_ovr, h.sets_acc, fun h1 h0 => or_left_comm.1 (h.clears_ovr h1 h0),
    fun h1 h0 => or_left_comm.1 (h.clears_acc h1 h0)⟩

end Sys2Proof.Machine

namespace Sys2Proof.Machine

/-! ### Unwritten input texts (spec/70_reset_and_hazards.md R271) -/

/-- `Seq` over a range with an entry that holds no value stops on such an entry. -/
theorem Snapshot.exists_seq_eq_unwritten {snap : Snapshot} {mk : Nat → Cell} {n k : Nat} (hk : k < n)
    (hnone : snap.mems.read (mk k) = none) :
    ∃ j < n, snap.mems.read (mk j) = none ∧ snap.seq mk n = .error (.unwritten (mk j)) := by
  cases hseq : snap.seq mk n with
  | ok t =>
    obtain ⟨rfl, hheld⟩ := (snap.seq_eq_ok mk n t).1 hseq
    have hval : none = some t[k] :=
      hnone.symm.trans ((hheld k hk).trans (List.getElem?_eq_getElem hk))
    cases hval
  | error e =>
    obtain ⟨j, hj, hread, rfl⟩ := snap.seq_eq_error mk n e hseq
    exact ⟨j, hj, hread, rfl⟩

theorem exec_eq_fault {i : Instr} {s : State} {c : Cell} :
    exec i s = .fault (.unwrittenRead c) ↔ resultOf i s.params s.inputs = .error (.unwritten c) := by
  simp [exec_eq, State.complete_eq_fault]

/-- Settles O37: past the length check and TableOK a command reads its text, which stops on an unwritten entry; and a
fault comes from a result that stopped on one of the command's unwritten inputs. -/
theorem unwrittenInputsFault : Obligations.UnwrittenInputsFault := by
  refine fun s => ⟨fun k hlen hk hnone => ?txt, fun k hlen hk hnone => ?bstr, fun k hlen hk hnone => ?tok,
    fun i c hfault => ?named⟩
  case txt =>
    obtain ⟨j, hj, hread, hseq⟩ := Snapshot.exists_seq_eq_unwritten hk hnone
    have hne : s.inputs.regs.txtLen.toNat ≠ 0 := Nat.ne_zero_of_lt hk
    exact ⟨j, hj, hread,
      exec_eq_fault.2 ((fBuild_eq_error _ _ _).2 (.inr ⟨hlen, .inr ⟨hne, .inl hseq⟩⟩)),
      exec_eq_fault.2 ((fCompress_eq_error _ _ _).2 (.inr ⟨hlen, .inr ⟨hne, .inl hseq⟩⟩)),
      fun rows hrows hv => exec_eq_fault.2
        ((fSfEncode_eq_error _ _ _).2 (.inr ⟨hlen, .inr ⟨hrows.tableOk_ok hv, .inl hseq⟩⟩))⟩
  case bstr =>
    obtain ⟨j, hj, hread, hseq⟩ := Snapshot.exists_seq_eq_unwritten hk hnone
    exact ⟨j, hj, hread,
      exec_eq_fault.2 ((fLzEncode_eq_error _ _ _).2 (.inr ⟨hlen, .inl hseq⟩)),
      fun rows hrows hv => exec_eq_fault.2
        ((fSfDecode_eq_error _ _ _).2 (.inr ⟨hlen, .inr ⟨hrows.tableOk_ok hv, .inl hseq⟩⟩))⟩
  case tok =>
    obtain ⟨j, hj, hread, hseq⟩ := Snapshot.exists_seq_eq_unwritten hk hnone
    exact ⟨j, hj, hread,
      exec_eq_fault.2 ((fLzDecode_eq_error _ _ _).2 (.inr ⟨hlen, .inl hseq⟩)),
      fun rows hrows hv => exec_eq_fault.2
        ((fDecompress_eq_error _ _ _).2 (.inr ⟨hlen, .inr ⟨hrows.tableOk_ok hv, .inl hseq⟩⟩))⟩
  case named =>
    obtain ⟨hreads, -, hnone⟩ := resultOf_unwritten (exec_eq_fault.1 hfault)
    exact ⟨hreads, hnone⟩

/-! ### Hard reset (spec/70_reset_and_hazards.md R270) -/

theorem step_hardReset (s : State) (rest : List Turn) :
    step { s with turns := .hardReset :: rest } = .next (State.hardReset { s with turns := rest }) := rfl

/-- Settles O56: the turn answers `hardReset`, whose registers are the reset column and whose memories are unwritten. -/
theorem hardResetState : Obligations.HardResetState := by
  refine ⟨fun s rest => ⟨_, step_hardReset s rest, State.hardReset_params _, State.hardReset_turns _,
    State.hardReset_regs _, State.hardReset_phase _, State.hardReset_irq _, Memories.read_unwritten⟩, ?_⟩
  have hstatus : State.reset.readReg .status = 0 := by decide
  exact ⟨rfl, rfl, rfl, hstatus, rfl, rfl, rfl, rfl, rfl, rfl, rfl, rfl, rfl, rfl, rfl, rfl, rfl, rfl, rfl,
    Memories.read_unwritten⟩

end Sys2Proof.Machine
